-- ==== Sys2Proof/Word.lean ====
section
/-! DEFINITION. The words of the block: bytes, 16-bit fields, and the channel's error values (00_scope R11). -/

namespace Sys2Proof

/-- A `u8` (00_scope R11). -/
abbrev Byte := BitVec 8

/-- A `u16`, or the bit pattern of an `s16` (00_scope R11). -/
abbrev Half := BitVec 16

/-- The channel's own error value, "a parameter of the model" (10_state R23): error values are numbered.
DESIGN CHOICE, log 4: safe, the block only copies the value. -/
abbrev ErrInfo := Nat

end Sys2Proof
end

