-- ==== Sys2Proof/Config.lean ====
section
/-! DEFINITION. The constants of the block (00_scope R6 to R9, 10_state R26), the open range policy, the channel's
answers, and the free values: constants with no body, of which nothing can be proved. -/

namespace Sys2Proof.Config

/-- `WIDTH`, canvas columns (00_scope R6). The reference value is fixed: DESIGN CHOICE, log 15. -/
abbrev width : Nat := 144
/-- `HEIGHT`, canvas rows (00_scope R6). -/
abbrev height : Nat := 126
/-- `GROUPS = WIDTH / 9` (00_scope R7). -/
abbrev groups : Nat := width / 9
/-- `ROWS = HEIGHT / 2` (00_scope R7). -/
abbrev rows : Nat := height / 2
/-- `FRAME_SIZE = GROUPS * ROWS` (00_scope R7, 90_conflicts C1). -/
abbrev frameSize : Nat := groups * rows
/-- `MAX_PAYLOAD` (00_scope R8). -/
abbrev maxPayload : Nat := 255
/-- `HEADER_SIZE` (00_scope R8). -/
abbrev headerSize : Nat := 5
/-- `MODE_BYTE` (00_scope R8, 30_encoding R53). -/
abbrev modeByte : Byte := 0x00#8
/-- `FLAG_BYTE` (00_scope R8, 30_encoding R54). -/
abbrev flagByte : Byte := 0x20#8
/-- `FRAME_BASE`, the device address of frame byte 0 (00_scope R9, 20_memory R36, D5). -/
abbrev frameBase : Nat := 0
/-- `BLANK_VALUE`, the fill value the host blanks the display with (42_transport R94, D18). -/
abbrev blankValue : Byte := 0x00#8
/-- `RADIUS = HEIGHT / 10` rounded toward zero (43_animation R98, D19). -/
abbrev radius : Nat := height / 10

/-- The two readings of the address-range invariant that 42_transport R85 offers. -/
inductive RangePolicy where
  /-- a packet outside the frame memory is refused: this spec's choice -/
  | refuse
  /-- the packet is sent unchecked, and the device's response is unspecified -/
  | emit
  deriving DecidableEq, Repr

/-- `RANGE_POLICY` at the spec's default (42_transport R85, D8). The other reading is modelled by the operations
that take the policy as an argument: log 16. -/
def rangePolicy : RangePolicy := .refuse

/-- What happens at one `ChanWrite` (20_memory R44, 60_exceptions R116): the channel's answer, with what it draws,
or RESET arriving before the write or while it is blocked (log 2, log 3). -/
inductive ChanEvent where
  /-- all bytes accepted for delivery in order -/
  | ok
  /-- the write failed with the channel's error value; the second argument draws the delivered length -/
  | fail (e : ErrInfo) (delivered : Nat)
  /-- RESET is asserted before the write starts -/
  | resetBefore
  /-- RESET is asserted while the write is blocked: it is logged as failed (10_state R31); the spec gives that
  entry no error value, so the first argument leaves it free (log 21) -/
  | resetDuring (e : ErrInfo) (delivered : Nat)
  deriving DecidableEq, Repr, Inhabited

/-- FREE VALUE: the event at the n-th draw, where no scripted input gives it (20_memory R44, U12; log 3). -/
opaque chanEvent : Nat → ChanEvent
/-- FREE VALUE: ADDR between commands (10_state section 4, U11; log 6). -/
opaque freeAddr : Nat → Half
/-- FREE VALUE: LEN between commands (log 6). -/
opaque freeLen : Nat → Byte
/-- FREE VALUE: TOTAL between commands (log 6). -/
opaque freeTotal : Nat → Half
/-- FREE VALUE: J between commands (log 6). -/
opaque freeJ : Nat → BitVec 6
/-- FREE VALUE: I between commands (log 6). -/
opaque freeI : Nat → BitVec 4
/-- FREE VALUE: K between commands (log 6). -/
opaque freeK : Nat → BitVec 4
/-- FREE VALUE: ACC between commands (log 6). -/
opaque freeAcc : Nat → Byte
/-- FREE VALUE: HDR between commands (log 6). -/
opaque freeHdr : Nat → Vector Byte 5
/-- FREE VALUE: FILLV between commands (log 6). -/
opaque freeFillv : Nat → Byte
/-- FREE VALUE: the s16 position after an advance whose exact sum does not fit s16, by the position and the velocity
(-1 or +1): the spec states no value there (10_state R16, D3; log 17). -/
opaque animOverflow : Half → Int → Half

end Sys2Proof.Config
end

