-- ==== Sys2Proof/Syntax.lean ====
section
/-! DEFINITION. The commands of the block (30_encoding R58, R59), the wire packet (R52) and the reserved opcodes (R63):
one constructor per row of spec/opcode_table.json. -/

namespace Sys2Proof

/-- The rows of the opcode table. The 16-bit operands are kept as their bit patterns; `s16` operands are read with
`toInt` where they enter arithmetic (30_encoding R60). -/
inductive Instr where
  /-- CANVAS_NEW, 0x01 (40_canvas R68) -/
  | canvasNew
  /-- SET_PIXEL, 0x02: `x`, `y` u16, `v` 0 or 1 (40_canvas R69) -/
  | setPixel (x y : Half) (v : Bool)
  /-- DRAW_CIRCLE, 0x03: `cx`, `cy`, `d` s16 (40_canvas R70) -/
  | drawCircle (cx cy d : Half)
  /-- ENCODE, 0x04 (41_encoder R74) -/
  | encode
  /-- WRITE_PACKET, 0x05: `address` u16, and the `n` payload bytes (42_transport R83) -/
  | writePacket (address : Half) (payload : List Byte)
  /-- SEND_RANGE, 0x06: `start_address` u16, and the `n` data bytes (42_transport R88) -/
  | sendRange (start : Half) (data : List Byte)
  /-- FILL, 0x07: `value` u8 (42_transport R93) -/
  | fill (value : Byte)
  /-- SEND_FRAME, 0x08 (42_transport R95) -/
  | sendFrame
  /-- ANIM_INIT, 0x09 (43_animation R99) -/
  | animInit
  /-- TICK, 0x0A (43_animation R100) -/
  | tick
  /-- RUN, 0x0B (43_animation R104) -/
  | run
  /-- WIRE_PACKET: what the block emits on the channel, a 5-byte header and the payload; not a host command
  (30_encoding R52; log 12) -/
  | wirePacket (address : Half) (payload : List Byte)
  /-- (reserved): an opcode byte that names no command (30_encoding R63; log 13) -/
  | reserved (opcode : Byte)
  deriving DecidableEq, Repr

end Sys2Proof
end

