-- ==== Sys2Proof/WellFormed.lean ====
section
/-! DEFINITION. Which terms of `Instr` stand for something an encoding of the spec can say. -/

namespace Sys2Proof

/-- An opcode byte that names no command: 0x00 and 0x0C to 0xFF (30_encoding R63). -/
def isReservedOpcode (opcode : Byte) : Bool := opcode == 0x00#8 || 0x0C#8 ≤ opcode

/-- A term that an encoding can say: `n` is a 16-bit field (30_encoding R59, R60), a wire packet has 1 to 255 payload
bytes (R56), a reserved opcode names no command (R63). -/
def Instr.wellFormed : Instr → Bool
  | .canvasNew => true
  | .setPixel _ _ _ => true
  | .drawCircle _ _ _ => true
  | .encode => true
  | .writePacket _ payload => decide (payload.length < 2 ^ 16)
  | .sendRange _ data => decide (data.length < 2 ^ 16)
  | .fill _ => true
  | .sendFrame => true
  | .animInit => true
  | .tick => true
  | .run => true
  | .wirePacket _ payload =>
    decide (1 ≤ payload.length ∧ payload.length ≤ Config.maxPayload)
  | .reserved opcode => isReservedOpcode opcode

/-- A command that the host can issue: every row but the wire packet, which is what the block emits, and the
reserved opcodes (30_encoding R59). -/
def Instr.isCommand : Instr → Bool
  | .canvasNew => true
  | .setPixel _ _ _ => true
  | .drawCircle _ _ _ => true
  | .encode => true
  | .writePacket _ _ => true
  | .sendRange _ _ => true
  | .fill _ => true
  | .sendFrame => true
  | .animInit => true
  | .tick => true
  | .run => true
  | .wirePacket _ _ => false
  | .reserved _ => false

end Sys2Proof
end

