-- ==== Sys2Proof/Decode.lean ====
section
/-! DEFINITION. The command descriptor (30_encoding R58 to R60) and the wire packet (R52 to R57): their decoders,
the encoder, and the host's view of the opcode table's words. -/

namespace Sys2Proof

/-- Why bytes are no descriptor (or no wire packet). Raised by the decoders below; `step` answers a refusal with it.
Safe: the spec gives such bytes no meaning (30_encoding R63), and the run stops. -/
inductive DecodeError where
  /-- there is no opcode byte (log 14) -/
  | empty
  /-- the operand fields or the `n` data bytes are cut short (R59 gives the lengths; log 14) -/
  | truncated
  /-- bytes are left after the last field (R59 gives the lengths; log 14) -/
  | trailing
  /-- SET_PIXEL's `v` is neither 0 nor 1 (R63) -/
  | badPixelValue
  /-- not the header 00 20 AH AL LEN with LEN at least 1 and its LEN payload bytes (R52, R64) -/
  | notAPacket
  deriving DecidableEq, Repr

/-- The field of two bytes `b0 ++ b1`, the more significant byte first (30_encoding R60). -/
def joinBytes (b0 b1 : Byte) : Half := b0 ++ b1

/-- `v[15:8]` (00_scope R11). -/
def hiByte (v : Half) : Byte := v.extractLsb' 8 8

/-- `v[7:0]` (00_scope R11). -/
def loByte (v : Half) : Byte := v.extractLsb' 0 8

/-- The first `n` bytes and the rest, if there are `n`. -/
def takeBytes (n : Nat) (bs : List Byte) : Option (List Byte × List Byte) :=
  if n ≤ bs.length then some (bs.take n, bs.drop n) else none

/-- The fields of WRITE_PACKET and SEND_RANGE: an address, `n`, and `n` data bytes (30_encoding R59). -/
def decodeAddressed (mk : Half → List Byte → Instr) : List Byte → Except DecodeError (Instr × List Byte)
  | a0 :: a1 :: n0 :: n1 :: rest =>
    match takeBytes (joinBytes n0 n1).toNat rest with
    | some (data, rest') => .ok (mk (joinBytes a0 a1) data, rest')
    | none => .error .truncated
  | _ => .error .truncated

/-- The `v` field of SET_PIXEL: 0 or 1, else invalid (30_encoding R63). -/
def decodePixelValue (v : Byte) : Except DecodeError Bool :=
  if v = 0#8 then .ok false else if v = 1#8 then .ok true else .error .badPixelValue

/-- The operand fields after an opcode byte (30_encoding R59), with the bytes left over. -/
def decodeOperands (opcode : Byte) (bs : List Byte) : Except DecodeError (Instr × List Byte) :=
  match opcode.toNat with
  | 0x01 => .ok (.canvasNew, bs)
  | 0x02 =>
    match bs with
    | x0 :: x1 :: y0 :: y1 :: v :: rest =>
      match decodePixelValue v with
      | .ok b => .ok (.setPixel (joinBytes x0 x1) (joinBytes y0 y1) b, rest)
      | .error e => .error e
    | _ => .error .truncated
  | 0x03 =>
    match bs with
    | x0 :: x1 :: y0 :: y1 :: d0 :: d1 :: rest =>
      .ok (.drawCircle (joinBytes x0 x1) (joinBytes y0 y1) (joinBytes d0 d1), rest)
    | _ => .error .truncated
  | 0x04 => .ok (.encode, bs)
  | 0x05 => decodeAddressed .writePacket bs
  | 0x06 => decodeAddressed .sendRange bs
  | 0x07 =>
    match bs with
    | v :: rest => .ok (.fill v, rest)
    | _ => .error .truncated
  | 0x08 => .ok (.sendFrame, bs)
  | 0x09 => .ok (.animInit, bs)
  | 0x0A => .ok (.tick, bs)
  | 0x0B => .ok (.run, bs)
  | _ => .ok (.reserved opcode, bs)

/-- Decode the descriptor at the front of the bytes. An opcode byte that names no command decodes to `reserved`, the
verdict "invalid" of 30_encoding R63. -/
def decode : List Byte → Except DecodeError (Instr × List Byte)
  | [] => .error .empty
  | opcode :: bs => decodeOperands opcode bs

/-- Decode one whole descriptor: nothing may be left over (30_encoding R59; log 14). What follows an opcode that names
no command is not looked at. -/
def decodeDescriptor (bs : List Byte) : Except DecodeError Instr :=
  match decode bs with
  | .ok (.reserved opcode, _) => .ok (.reserved opcode)
  | .ok (i, []) => .ok i
  | .ok (_, _ :: _) => .error .trailing
  | .error e => .error e

/-- Read one wire packet off a byte stream: header byte 4 tells where it ends (30_encoding R52, R56). -/
def decodePacket : List Byte → Except DecodeError (Instr × List Byte)
  | mode :: flags :: ah :: al :: len :: rest =>
    if mode = Config.modeByte ∧ flags = Config.flagByte ∧ len ≠ 0#8 then
      match takeBytes len.toNat rest with
      | some (payload, rest') => .ok (.wirePacket (joinBytes ah al) payload, rest')
      | none => .error .notAPacket
    else .error .notAPacket
  | _ => .error .notAPacket

/-- The two bytes of a 16-bit field, the more significant first (30_encoding R60). -/
def halfBytes (v : Half) : List Byte := [hiByte v, loByte v]

/-- The bytes of a term: a descriptor (30_encoding R59, R60) or, for the wire packet, header and payload (R52). -/
def encode : Instr → List Byte
  | .canvasNew => [0x01#8]
  | .setPixel x y v => 0x02#8 :: (halfBytes x ++ halfBytes y ++ [if v then 1#8 else 0#8])
  | .drawCircle cx cy d => 0x03#8 :: (halfBytes cx ++ halfBytes cy ++ halfBytes d)
  | .encode => [0x04#8]
  | .writePacket a p => 0x05#8 :: (halfBytes a ++ halfBytes (BitVec.ofNat 16 p.length) ++ p)
  | .sendRange a p => 0x06#8 :: (halfBytes a ++ halfBytes (BitVec.ofNat 16 p.length) ++ p)
  | .fill v => [0x07#8, v]
  | .sendFrame => [0x08#8]
  | .animInit => [0x09#8]
  | .tick => [0x0A#8]
  | .run => [0x0B#8]
  | .wirePacket a p => [Config.modeByte, Config.flagByte, hiByte a, loByte a, BitVec.ofNat 8 p.length] ++ p
  | .reserved opcode => [opcode]

/-- How many bytes the descriptor that starts with these bytes has (30_encoding R59), a missing byte read as 0. -/
def descriptorLength (bs : List Byte) : Nat :=
  match (bs.getD 0 0#8).toNat with
  | 0x02 => 6
  | 0x03 => 7
  | 0x05 => 5 + (joinBytes (bs.getD 3 0#8) (bs.getD 4 0#8)).toNat
  | 0x06 => 5 + (joinBytes (bs.getD 3 0#8) (bs.getD 4 0#8)).toNat
  | 0x07 => 2
  | _ => 1

/-- The `n` bytes of a word numbered as the opcode table numbers it: byte 0 is bits 7..0. -/
def wordBytes (n w : Nat) : List Byte := (List.range n).map fun k => BitVec.ofNat 8 (w / 2 ^ (8 * k))

/-- The descriptor whose first `nbits` bits are `w` and whose further bytes are 0. -/
def paddedDescriptor (nbits w : Nat) : List Byte :=
  let given := wordBytes ((nbits + 7) / 8) w
  given ++ List.replicate (descriptorLength given - given.length) 0#8

/-- What the decoder reads from the descriptor whose table bits are `w`. -/
def decodeTableWord (nbits w : Nat) : Option Instr :=
  match decodeDescriptor (paddedDescriptor nbits w) with
  | .ok i => some i
  | .error _ => none

end Sys2Proof
end

