-- ==== Sys2Proof/Machine/State.lean ====
section
/-! DEFINITION. The state of the block as plain data (10_state R13), the reasons a step can stop, and the state after
reset (10_state R31). INVENTORY.md lists every field with its rule and its reset value. -/

namespace Sys2Proof.Machine

/-- A byte memory in canonical form: addresses strictly rising; an unlisted address holds no value. -/
abbrev Memory := List Host.Cell

/-- The canonical form of a memory of the addresses below `bound`. -/
abbrev Memory.wf (bound : Nat) (m : Memory) : Prop :=
  m.Pairwise (fun c d => c.1 < d.1) ∧ ∀ c ∈ m, c.1 < bound

/-- The pixels that are `true`, by linear index `y * WIDTH + x` (20_memory R34), strictly rising; every other pixel of
the grid is `false`. Whether CANVAS holds a value at all is CANVAS_VALID's to say (10_state R27; log 8). -/
abbrev Canvas := List Nat

/-- The canonical form of the canvas. -/
abbrev Canvas.wf (c : Canvas) : Prop := c.Pairwise (· < ·) ∧ ∀ k ∈ c, k < Config.width * Config.height

/-- A velocity, -1 or +1 (10_state R16). -/
inductive Dir where
  | neg
  | pos
  deriving DecidableEq, Repr

/-- ANIM, the animation register file (10_state R16): the centre as s16 bit patterns and the velocity per axis. -/
structure Anim where
  cx : Half
  cy : Half
  dx : Dir
  dy : Dir
  deriving DecidableEq, Repr

/-- The working registers that the host cannot read (10_state R17, R18, R19's TOTAL, R20 to R22). -/
structure Working where
  /-- ADDR (R17) -/
  addr : Half
  /-- LEN (R18) -/
  len : Byte
  /-- TOTAL (R19) -/
  total : Half
  /-- J, the encoded-row index (R20) -/
  j : BitVec 6
  /-- I, the column-group index (R20) -/
  i : BitVec 4
  /-- K, the bit counter with its terminal count (R20) -/
  k : BitVec 4
  /-- ACC, the byte being assembled (R20) -/
  acc : Byte
  /-- HDR, the header under construction (R21) -/
  hdr : Vector Byte 5
  /-- FILLV (R22) -/
  fillv : Byte
  deriving DecidableEq, Repr

/-- The two commands that tick (43_animation R100, R104). -/
inductive Ticker where
  | tick
  | run
  deriving DecidableEq, Repr

/-- Whose ENCODE is being executed: a command of its own, or step 2 of a tick (30_encoding R66). -/
inductive EncodeUser where
  | encode
  | ticker (t : Ticker)
  deriving DecidableEq, Repr

/-- Whose SEND_RANGE is being executed (30_encoding R66). -/
inductive RangeUser where
  | sendRange
  | fill
  | sendFrame
  | ticker (t : Ticker)
  deriving DecidableEq, Repr

/-- The position of the work within EXEC (10_state R24): the phase, header or payload, of the transport commands beside
OFF, and the step number of TICK; that ENCODE is in its loop, whose (J, I, K) are working registers; and the operands of
the executing command that are still needed. -/
inductive Job where
  /-- accepted, nothing done yet; for TICK and RUN, step 1 is next -/
  | issued (i : Instr)
  /-- step 2 of a tick: ENCODE is next -/
  | encodeNext (t : Ticker)
  /-- in ENCODE's loop, at (J, I, K) -/
  | encoding (u : EncodeUser)
  /-- step 2 of a tick: SEND_FRAME is next -/
  | sendNext (t : Ticker)
  /-- WRITE_PACKET: the header is next -/
  | packetHeader (address : Half) (payload : List Byte)
  /-- WRITE_PACKET: the payload is next -/
  | packetPayload (address : Half) (payload : List Byte)
  /-- SEND_RANGE at OFF: the header of the next chunk, or the end of the loop, is next -/
  | rangeHeader (u : RangeUser) (start : Half) (data : List Byte)
  /-- SEND_RANGE at OFF: the payload of the chunk is next -/
  | rangePayload (u : RangeUser) (start : Half) (data : List Byte)
  /-- step 3 of a tick is next -/
  | advance (t : Ticker)
  /-- step 4 of a tick is next -/
  | reverse (t : Ticker)
  deriving DecidableEq, Repr

/-- The sequencer (10_state R24). -/
inductive Seq where
  /-- no command executing: accepts a command -/
  | idle
  /-- a command is executing, at this position -/
  | exec (j : Job)
  /-- a ContractViolation was raised: accepts nothing until reset -/
  | halt
  deriving DecidableEq, Repr

/-- The bits of STATUS that are storage of their own (10_state R25). BUSY and FATAL are the sequencer's, and the
whole register is `State.statusWord` (Machine/Flags.lean). -/
structure Status where
  terr : Bool
  canvasValid : Bool
  frameValid : Bool
  animValid : Bool
  deriving DecidableEq, Repr

/-- What became of a channel write (10_state R29). -/
inductive WriteOutcome where
  | ok
  | fail (e : ErrInfo)
  deriving DecidableEq, Repr

/-- One entry of TX, the channel log (10_state R29). -/
structure TxEntry where
  bytes : List Byte
  outcome : WriteOutcome
  delivered : Nat
  deriving DecidableEq, Repr

/-- The host's moves (30_encoding R62): the only three things it can do to the block. -/
inductive HostMove where
  /-- present a command descriptor -/
  | issue (descriptor : List Byte)
  /-- assert RESET -/
  | reset
  /-- read STATUS, RESULT, ERRINFO or OFF, or do nothing -/
  | observe
  deriving DecidableEq, Repr

/-- The state of the block (10_state R13), the history and the ghost outside it (R29, R30), and the inputs. -/
structure State where
  /-- CANVAS (R14) -/
  canvas : Canvas
  /-- FRAME (R15) -/
  frame : Memory
  /-- ANIM (R16) -/
  anim : Anim
  /-- the working registers but OFF (R17 to R22) -/
  work : Working
  /-- OFF, host-readable (R19) -/
  off : Half
  /-- RESULT, host-readable (R23) -/
  result : Byte
  /-- the register under ERRINFO; the host reads it through `State.errorValue` (R23; log 5) -/
  errinfo : ErrInfo
  /-- SEQ, and within EXEC the position of the work (R24) -/
  seq : Seq
  /-- STATUS (R25) -/
  status : Status
  /-- TX, oldest first (R29) -/
  tx : List TxEntry
  /-- DEV: the bytes of the device's frame memory that the spec determines (R30, 60_exceptions R118; log 10) -/
  dev : Memory
  /-- the model's own: DEV still follows the packets (60_exceptions R118; log 10) -/
  devSynced : Bool
  /-- the model's own: the host's coming moves (log 19) -/
  hostMoves : List HostMove
  /-- the model's own: the channel's coming answers (log 3) -/
  events : List Config.ChanEvent
  /-- the model's own: how many channel events have happened, which the free ones are drawn by (log 3) -/
  writes : Nat
  /-- the model's own: how many times working registers were released, which their free values are drawn by (log 6) -/
  draws : Nat
  deriving DecidableEq, Repr

/-- Why the machine stops with a fault. -/
inductive Fault where
  /-- Raised when SEND_FRAME is issued, or a tick's sending half begins, while a byte of FRAME is not listed. Safe: no
  run reaches such a state, and `MemRead` is not defined there (00_scope R12; log 9). -/
  | frameByteNoValue
  deriving DecidableEq, Repr

/-- Why a command has no meaning (60_exceptions R114). Each is safe: the run stops where the spec gives no successor. -/
inductive Refusal where
  /-- an instruction that has no meaning yet; raised by no arm of `exec` now. Safe. -/
  | notModelled (mnemonic : String)
  /-- raised by the execution of an opcode that names no command (30_encoding R63). Safe. -/
  | reservedOpcode (opcode : Byte)
  /-- raised by `step` on bytes that are no descriptor (30_encoding R63; log 14). Safe. -/
  | invalid (e : DecodeError)
  /-- raised by SET_PIXEL, DRAW_CIRCLE and ENCODE while CANVAS_VALID is 0 (10_state R27). Safe. -/
  | canvasNotValid
  /-- raised by SEND_FRAME while FRAME_VALID is 0 (10_state R27). Safe. -/
  | frameNotValid
  /-- raised by TICK and RUN while ANIM_VALID is 0 (10_state R27). Safe. -/
  | animNotValid
  /-- raised by SET_PIXEL outside the grid (40_canvas R69). Safe. -/
  | outsideGrid
  /-- raised by WRITE_PACKET, SEND_RANGE and a wire packet outside the device's frame memory (42_transport R85, R87). Safe. -/
  | outOfRange
  /-- raised by WRITE_PACKET and a wire packet with no payload (42_transport R86). Safe. -/
  | emptyPayload
  /-- raised by a wire packet of more than 255 bytes, which no length byte can say (30_encoding R56; log 12). Safe. -/
  | packetTooLong
  /-- raised by TICK and RUN if the boundary tests could overlap, which the reference sizes exclude (43_animation R105). Safe. -/
  | overlappingBoundaries
  deriving DecidableEq, Repr

/-- The working registers as this model's reset leaves them: the spec says "unspecified" (10_state R31). DESIGN CHOICE,
log 7. -/
def Working.reset : Working :=
  { addr := 0#16, len := 0#8, total := 0#16, j := 0#6, i := 0#4, k := 0#4, acc := 0#8,
    hdr := #v[0#8, 0#8, 0#8, 0#8, 0#8], fillv := 0#8 }

/-- The machine right after reset (10_state R31, 70_reset_and_hazards R123), with nothing observed yet and no input.
SEQ, STATUS and RESULT are the spec's values; the others are DESIGN CHOICE, log 7 and log 10. -/
def State.reset : State :=
  { canvas := [], frame := [], anim := { cx := 0#16, cy := 0#16, dx := .pos, dy := .pos }, work := Working.reset,
    off := 0#16, result := 0#8, errinfo := 0, seq := .idle,
    status := { terr := false, canvasValid := false, frameValid := false, animValid := false },
    tx := [], dev := [], devSynced := true, hostMoves := [], events := [], writes := 0, draws := 0 }

end Sys2Proof.Machine
end

