-- ==== Sys2Proof/Machine/Flags.lean ====
section
/-! DEFINITION. STATUS, RESULT and ERRINFO as the host reads them, and their writes at the end of a command
(10_state R23, R25; 60_exceptions R110 to R112). -/

namespace Sys2Proof.Machine

/-- RESULT code OK (60_exceptions R112). -/
def resultOk : Byte := 0#8
/-- RESULT code TransportError (60_exceptions R112). -/
def resultTransportError : Byte := 1#8
/-- RESULT code ContractViolation (60_exceptions R112). -/
def resultContractViolation : Byte := 2#8

/-- `SEQ = EXEC`, at any position. -/
def Seq.executing : Seq → Bool
  | .idle => false
  | .exec _ => true
  | .halt => false

/-- STATUS.BUSY: `SEQ = EXEC` (10_state R25). -/
def State.busy (s : State) : Bool := s.seq.executing

/-- STATUS.FATAL: `SEQ = HALT` (10_state R25). -/
def State.fatal (s : State) : Bool := decide (s.seq = .halt)

/-- The work goes on at `j` (10_state R24). -/
def State.goTo (s : State) (j : Job) : State := { s with seq := .exec j }

/-- STATUS as the host reads it: bits 7:6 reserved 0, then ANIM_VALID, FRAME_VALID, CANVAS_VALID, FATAL, TERR, BUSY
(10_state R25). -/
def State.statusWord (s : State) : Byte :=
  0#2 ++ BitVec.ofBool s.status.animValid ++ BitVec.ofBool s.status.frameValid ++ BitVec.ofBool s.status.canvasValid ++
    BitVec.ofBool s.fatal ++ BitVec.ofBool s.status.terr ++ BitVec.ofBool s.busy

/-- ERRINFO as the host reads it: "it has a value only when RESULT = 1" (10_state R23; log 5). -/
def State.errorValue (s : State) : Option ErrInfo :=
  if s.result = resultTransportError then some s.errinfo else none

/-- `RESULT <- 0`, the last line of every command's rule. A command that is part of another does it too (30_encoding R66,
42_transport R83, R88; log 20). -/
def State.succeed (s : State) : State := { s with result := resultOk }

/-- Completion: RESULT 0, BUSY cleared (10_state R24, 30_encoding R62). -/
def State.complete (s : State) : State := { s.succeed with seq := .idle }

/-- A turn of RUN's loop that ended OK: RESULT 0, and the next turn is due (43_animation R104; log 20). -/
def State.keepRunning (s : State) : State := s.succeed.goTo (.issued .run)

def State.setCanvasValid (s : State) : State := { s with status := { s.status with canvasValid := true } }
/-- ENCODE's start (10_state R25, 41_encoder R74). -/
def State.clearFrameValid (s : State) : State := { s with status := { s.status with frameValid := false } }

def State.setFrameValid (s : State) : State := { s with status := { s.status with frameValid := true } }
def State.setAnimValid (s : State) : State := { s with status := { s.status with animValid := true } }

end Sys2Proof.Machine
end

