-- ==== Sys2Proof/Machine/Operands.lean ====
section
/-! DEFINITION. The operand forms and the exact arithmetic they enter: grid coordinates, the disk test, device ranges,
chunks, the packet header, one axis of the animation. -/

namespace Sys2Proof.Machine

/-- An `s16` operand as the exact integer it enters arithmetic as (30_encoding R60, 40_canvas R71). -/
def signedOf (v : Half) : Int := v.toInt

/-- Pixel (x, y) is in the grid (40_canvas R69). -/
def inGrid (x y : Nat) : Bool := decide (x < Config.width) && decide (y < Config.height)

/-- The linear index of pixel (x, y): row-major, origin top-left (20_memory R34). -/
def pixelIndex (x y : Nat) : Nat := y * Config.width + x

/-- The disk test of DRAW_CIRCLE, strict and exact (40_canvas R70, R71). -/
def inDisk (cx cy d : Int) (x y : Nat) : Bool :=
  decide (((x : Int) - cx) * (x - cx) + ((y : Int) - cy) * (y - cy) < d * d)

/-- One step of the packing: `ACC[6:0] ++ bit(p)` (41_encoder R74, R75; 20_memory R37, R38). -/
def shiftIn (acc : Byte) (p : Bool) : Byte := acc.extractLsb' 0 7 ++ BitVec.ofBool p

/-- `n` bytes from device address `a` lie inside the device's frame memory, `a + n` exact (42_transport R82, R83). -/
def inFrameMemory (a n : Nat) : Bool :=
  decide (Config.frameBase ≤ a) && decide (a + n ≤ Config.frameBase + Config.frameSize)

/-- A packet may be emitted under the range policy (42_transport R85). -/
def packetAllowed (policy : Config.RangePolicy) (a n : Nat) : Bool :=
  inFrameMemory a n || decide (policy = .emit)

/-- A range may be sent under the range policy (42_transport R87). Under `emit` every chunk's address and `n` must
still be 16-bit fields (log 16). -/
def rangeAllowed (policy : Config.RangePolicy) (a n : Nat) : Bool :=
  inFrameMemory a n ||
    (decide (policy = .emit) && decide (a + Config.maxPayload * ((n - 1) / Config.maxPayload) < 2 ^ 16) &&
      decide (n < 2 ^ 16))

/-- `P = ceil(n / 255)` (42_transport R89). -/
def chunkCount (n : Nat) : Nat := (n + (Config.maxPayload - 1)) / Config.maxPayload

/-- The header of a packet, HDR from ADDR and LEN (30_encoding R52 to R56, 42_transport R83). -/
def headerOf (addr : Half) (len : Byte) : Vector Byte 5 :=
  #v[Config.modeByte, Config.flagByte, hiByte addr, loByte addr, len]

/-- The velocity as an integer (10_state R16). -/
def Dir.value : Dir → Int
  | .neg => -1
  | .pos => 1

/-- One axis of step 3, `c + d` in an s16 register (43_animation R100). A sum outside s16 has no value in the spec:
FREE VALUE, log 17. -/
def advancePosition (c : Half) (d : Dir) : Half :=
  let sum := signedOf c + d.value
  if -(2 ^ 15) ≤ sum ∧ sum < 2 ^ 15 then BitVec.ofInt 16 sum else Config.animOverflow c d.value

/-- One axis of step 4, the upper test first, the lower only when it fails (43_animation R101). -/
def reverseAt (dimension : Nat) (c : Half) (d : Dir) : Dir :=
  if signedOf c ≥ (dimension : Int) - Config.radius then .neg
  else if signedOf c ≤ Config.radius then .pos
  else d

/-- Step 3 of a tick on ANIM: the position advances by the velocity, axis by axis (43_animation R100). -/
def Anim.move (a : Anim) : Anim := { a with cx := advancePosition a.cx a.dx, cy := advancePosition a.cy a.dy }

/-- Step 4 of a tick on ANIM: the reversal, on the position as it stands, axis by axis (43_animation R101). -/
def Anim.reverse (a : Anim) : Anim :=
  { a with dx := reverseAt Config.width a.cx a.dx, dy := reverseAt Config.height a.cy a.dy }

/-- Steps 3 and 4 of a tick on ANIM (43_animation R100, R101). -/
def Anim.advance (a : Anim) : Anim := a.move.reverse

/-- The initial ANIM: the centre of the canvas and velocity (+1, +1) (43_animation R99). -/
def Anim.initial : Anim :=
  { cx := BitVec.ofNat 16 (Config.width / 2), cy := BitVec.ofNat 16 (Config.height / 2), dx := .pos, dy := .pos }

/-- The boundary tests cannot overlap (43_animation R100, R105). -/
def boundariesApart : Bool :=
  decide ((Config.width : Int) - Config.radius > Config.radius) &&
    decide ((Config.height : Int) - Config.radius > Config.radius)

end Sys2Proof.Machine
end

