-- ==== Sys2Proof/Machine/Ops.lean ====
section
/-! DEFINITION. The named operations: memories, the canvas, the device image, the channel, raising an error, RESET,
the packet and the range. -/

namespace Sys2Proof.Machine

/-! ### Refusals (60_exceptions R114): what each command checks, in the order of its rule -/

/-- Refuse for the reason given, or go on. -/
def refuseOr (r : Option Refusal) (o : Host.Outcome State Fault Refusal) : Host.Outcome State Fault Refusal :=
  match r with
  | some r => .refused r
  | none => o

/-- DRAW_CIRCLE and ENCODE read CANVAS (10_state R27). -/
def State.canvasRefusal (s : State) : Option Refusal := if s.status.canvasValid then none else some .canvasNotValid

/-- SEND_FRAME reads FRAME (10_state R27). -/
def State.frameRefusal (s : State) : Option Refusal := if s.status.frameValid then none else some .frameNotValid

/-- SET_PIXEL reads CANVAS, and (x, y) is in the grid (40_canvas R69). -/
def State.pixelRefusal (s : State) (x y : Half) : Option Refusal :=
  if !s.status.canvasValid then some .canvasNotValid
  else if !inGrid x.toNat y.toNat then some .outsideGrid
  else none

/-- TICK and RUN read ANIM, and the boundary tests are apart (43_animation R100, R105). -/
def State.tickRefusal (s : State) : Option Refusal :=
  if !s.status.animValid then some .animNotValid
  else if !boundariesApart then some .overlappingBoundaries
  else none

/-- A packet of `n` bytes has a payload, and its range is allowed (42_transport R82, R85, R86). -/
def packetRefusal (policy : Config.RangePolicy) (a : Half) (n : Nat) : Option Refusal :=
  if n = 0 then some .emptyPayload
  else if !packetAllowed policy a.toNat n then some .outOfRange
  else none

/-- A range of `n` bytes is allowed (42_transport R87). -/
def rangeRefusal (policy : Config.RangePolicy) (a : Half) (n : Nat) : Option Refusal :=
  if !rangeAllowed policy a.toNat n then some .outOfRange else none

/-- A wire packet is one the block may emit (30_encoding R64). -/
def wirePacketRefusal (a : Half) (n : Nat) : Option Refusal :=
  if n > Config.maxPayload then some .packetTooLong else packetRefusal Config.rangePolicy a n

/-- Why a command is refused, if it is. WRITE_PACKET's length check comes first and refuses nothing: it raises
ContractViolation (42_transport R82, 60_exceptions R113). -/
def refusalOf (i : Instr) (s : State) : Option Refusal :=
  match i with
  | .canvasNew => none
  | .setPixel x y _ => s.pixelRefusal x y
  | .drawCircle _ _ _ => s.canvasRefusal
  | .encode => s.canvasRefusal
  | .writePacket a p =>
    if p.length > Config.maxPayload then none else packetRefusal Config.rangePolicy a p.length
  | .sendRange a data => rangeRefusal Config.rangePolicy a data.length
  | .fill _ => none
  | .sendFrame => s.frameRefusal
  | .animInit => none
  | .tick => s.tickRefusal
  | .run => s.tickRefusal
  | .wirePacket a p => wirePacketRefusal a p.length
  | .reserved opcode => some (.reservedOpcode opcode)

/-! ### Byte memories -/

/-- The byte at `a`, if `a` is listed. -/
def Memory.read : Memory → Nat → Option Byte
  | [], _ => none
  | c :: m, a => if a = c.1 then some c.2 else Memory.read m a

/-- Write one byte, keeping the addresses rising. -/
def Memory.write : Memory → Nat → Byte → Memory
  | [], a, b => [(a, b)]
  | c :: m, a, b =>
    if a < c.1 then (a, b) :: c :: m
    else if a = c.1 then (a, b) :: m
    else c :: Memory.write m a b

/-- Write bytes at increasing addresses from `a`. -/
def Memory.writeRange : Memory → Nat → List Byte → Memory
  | m, _, [] => m
  | m, a, b :: bs => Memory.writeRange (Memory.write m a b) (a + 1) bs

/-- `MemRead(a, n)`: the `n` bytes from `a` in increasing address order (00_scope R12), if all are listed. -/
def Memory.readRange (m : Memory) : Nat → Nat → Option (List Byte)
  | _, 0 => some []
  | a, n + 1 =>
    match Memory.read m a, Memory.readRange m (a + 1) n with
    | some b, some bs => some (b :: bs)
    | _, _ => none

/-- Leave the `n` bytes from `a` without a value. -/
def Memory.forget (m : Memory) (a n : Nat) : Memory :=
  m.filter fun c => decide (¬(a ≤ c.1 ∧ c.1 < a + n))

/-- The memory that holds `f k` at every `k` below `n`. -/
def Memory.tabulate (n : Nat) (f : Nat → Byte) : Memory := (List.range n).map fun k => (k, f k)

/-! ### The canvas -/

/-- `CANVAS[x, y]` (00_scope R12, 20_memory R34). -/
def Canvas.pixel (c : Canvas) (x y : Nat) : Bool := c.contains (pixelIndex x y)

/-- The canvas with index `k` also `true`. -/
def Canvas.insert : Canvas → Nat → Canvas
  | [], k => [k]
  | h :: c, k => if k < h then k :: h :: c else if k = h then h :: c else h :: Canvas.insert c k

/-- `CANVAS[x, y] <- p`. -/
def Canvas.write (c : Canvas) (x y : Nat) (p : Bool) : Canvas :=
  if p then Canvas.insert c (pixelIndex x y) else c.filter fun k => !decide (k = pixelIndex x y)

/-- Set every grid pixel that passes the test, scanning the full grid; no pixel is cleared (40_canvas R70). Irreducible
so that no proof unrolls the scan by accident. -/
@[irreducible] def Canvas.draw (c : Canvas) (test : Nat → Nat → Bool) : Canvas :=
  (List.range (Config.width * Config.height)).filter fun k =>
    c.contains k || test (k % Config.width) (k / Config.width)

/-- ACC after the eight K steps for encoded row `j` and group `i` (41_encoder R74). -/
def Canvas.packedByte (c : Canvas) (j i : Nat) : Byte :=
  (List.range 8).foldl (fun acc k => shiftIn acc (c.pixel (9 * i + k) (2 * j + 1))) 0#8

/-- The frame of a canvas: the byte at `GROUPS * j + i` (41_encoder R74, 20_memory R35). Irreducible so that no proof
unrolls it by accident. -/
@[irreducible] def Canvas.encoded (c : Canvas) : Memory :=
  Memory.tabulate Config.frameSize fun k => c.packedByte (k / Config.groups) (k % Config.groups)

/-! ### Working registers between commands (10_state section 4, U11; log 6) -/

/-- ADDR, LEN, HDR hold anything after a packet command. -/
def State.releasePacket (s : State) : State :=
  { s with
    work := { s.work with addr := Config.freeAddr s.draws, len := Config.freeLen s.draws, hdr := Config.freeHdr s.draws }
    draws := s.draws + 1 }

/-- ADDR, LEN, HDR and TOTAL hold anything after a range command. -/
def State.releaseRange (s : State) : State :=
  { s.releasePacket with work := { s.releasePacket.work with total := Config.freeTotal s.draws } }

/-- As after a range command, and FILLV. -/
def State.releaseFill (s : State) : State :=
  { s.releaseRange with work := { s.releaseRange.work with fillv := Config.freeFillv s.draws } }

/-- J, I, K and ACC hold anything after ENCODE. -/
def State.releaseEncoder (s : State) : State :=
  { s with
    work := { s.work with j := Config.freeJ s.draws, i := Config.freeI s.draws, k := Config.freeK s.draws,
                          acc := Config.freeAcc s.draws }
    draws := s.draws + 1 }

/-- The registers of both halves of a tick. -/
def State.releaseTick (s : State) : State := s.releaseEncoder.releaseRange

/-! ### Errors and RESET -/

/-- `raise TransportError(e)` (60_exceptions R110). -/
def State.raiseTransportError (e : ErrInfo) (s : State) : State :=
  { s with errinfo := e, result := resultTransportError, status := { s.status with terr := true }, seq := .idle }

/-- `raise ContractViolation` (60_exceptions R111): nothing is written to the channel, and the block halts. -/
def State.raiseContractViolation (s : State) : State :=
  { s with result := resultContractViolation, seq := .halt }

/-- RESET (70_reset_and_hazards R123, 10_state R31): the block as after reset; TX, DEV and the inputs are not the
block's, and stay. -/
def State.assertReset (s : State) : State :=
  { State.reset with
    tx := s.tx, dev := s.dev, devSynced := s.devSynced, hostMoves := s.hostMoves, events := s.events, writes := s.writes,
    draws := s.draws }

/-! ### The channel -/

/-- What happens at the next `ChanWrite`: the scripted input, or past its end a free value (20_memory R44; log 3). -/
def State.nextEvent (s : State) : Config.ChanEvent :=
  match s.events with
  | e :: _ => e
  | [] => Config.chanEvent s.writes

/-- One event has been taken. -/
def State.takeEvent (s : State) : State := { s with events := s.events.tail, writes := s.writes + 1 }

/-- Append one entry to TX (10_state R29). -/
def State.logWrite (s : State) (bytes : List Byte) (outcome : WriteOutcome) (delivered : Nat) : State :=
  { s with tx := s.tx ++ [{ bytes := bytes, outcome := outcome, delivered := delivered }] }

/-- How a `ChanWrite` came back. -/
inductive WriteResult where
  | ok (s : State)
  | fail (e : ErrInfo) (s : State)
  /-- RESET came before the write -/
  | resetBefore (s : State)
  /-- RESET came while the write was blocked -/
  | resetDuring (s : State)
  deriving DecidableEq, Repr

/-- `ChanWrite(b)` (20_memory R44): one entry of TX per call, the delivered length 0 to all of it on failure; RESET
in flight is logged as failed (60_exceptions R116). -/
def chanWrite (b : List Byte) (s : State) : WriteResult :=
  match s.nextEvent with
  | .ok => .ok (s.takeEvent.logWrite b .ok b.length)
  | .fail e n => .fail e (s.takeEvent.logWrite b (.fail e) (min n b.length))
  | .resetBefore => .resetBefore s.takeEvent
  | .resetDuring e n => .resetDuring (s.takeEvent.logWrite b (.fail e) (min n b.length))

/-! ### The device image DEV (10_state R30, 60_exceptions R118; log 10, log 11) -/

/-- A packet delivered in full writes `p[k]` to `a + k` (R30, 20_memory R41). Once a transaction has been cut short, and
outside the frame memory, the effect on DEV is unspecified. -/
def State.devDeliver (s : State) (a : Nat) (p : List Byte) : State :=
  if s.devSynced && inFrameMemory a p.length then { s with dev := s.dev.writeRange a p }
  else { s with dev := [], devSynced := false }

/-- An accepted header alone writes no byte of DEV. It is a transaction, so that once one has been cut short its effect on
DEV is unspecified, as that of every later one (60_exceptions R118). -/
def State.devHeader (s : State) : State := { s with dev := if s.devSynced then s.dev else [] }

/-- A packet cut short leaves the bytes it addressed unspecified, and all that comes later (60_exceptions R118). -/
def State.devCut (s : State) (a n : Nat) : State :=
  if s.devSynced && inFrameMemory a n then { s with dev := s.dev.forget a n, devSynced := false }
  else { s with dev := [], devSynced := false }

/-! ### Commands in progress -/

/-- Where the work of a transport command stands: done, ended by an error of the channel, or by RESET. -/
inductive Progress where
  | done (s : State)
  | failed (e : ErrInfo) (s : State)
  | reset (s : State)
  deriving DecidableEq, Repr

/-- Go on only if the work so far is done: an error ends every enclosing command (60_exceptions R110). -/
def Progress.andThen (p : Progress) (f : State → Progress) : Progress :=
  match p with
  | .done s => f s
  | .failed e s => .failed e s
  | .reset s => .reset s

/-- The end of a command: its working registers hold anything, and it completes, raises the channel's error, or was
cut off by RESET. -/
def Progress.finish (release : State → State) : Progress → State
  | .done s => (release s).complete
  | .failed e s => (release s).raiseTransportError e
  | .reset s => s.assertReset

/-- The end of one turn of RUN's loop: it goes on after a tick that ended OK (43_animation R104). -/
def Progress.finishTurn (release : State → State) : Progress → State
  | .done s => (release s).keepRunning
  | .failed e s => (release s).raiseTransportError e
  | .reset s => s.assertReset

/-- ADDR, LEN, HDR for a packet (42_transport R83). -/
def State.buildHeader (s : State) (a : Half) (n : Nat) : State :=
  { s with work := { s.work with addr := a, len := BitVec.ofNat 8 n, hdr := headerOf a (BitVec.ofNat 8 n) } }

/-- Transaction 1 of a packet of `n` bytes: the header (42_transport R83, 30_encoding R52). -/
def sendHeader (a : Half) (n : Nat) (s : State) : Progress :=
  match chanWrite (s.buildHeader a n).work.hdr.toList (s.buildHeader a n) with
  | .ok s => .done s.devHeader
  | .fail e s => .failed e (s.devCut a.toNat n)
  | .resetBefore s => .reset s
  | .resetDuring s => .reset (s.devCut a.toNat n)

/-- Transaction 2 of a packet: the payload (42_transport R83). -/
def sendPayload (a : Half) (payload : List Byte) (s : State) : Progress :=
  match chanWrite payload s with
  | .ok s => .done (s.devDeliver a.toNat payload)
  | .fail e s => .failed e (s.devCut a.toNat payload.length)
  | .resetBefore s => .reset (s.devCut a.toNat payload.length)
  | .resetDuring s => .reset (s.devCut a.toNat payload.length)

/-- One wire packet: header, then payload, as two channel transactions; the payload is not attempted after a failed
header (42_transport R83, R84; 30_encoding R52). -/
def emitPacket (a : Half) (payload : List Byte) (s : State) : Progress :=
  (sendHeader a payload.length s).andThen (sendPayload a payload)

/-- TOTAL and OFF at the start of a range (42_transport R88). -/
def rangeStart (data : List Byte) (s : State) : State :=
  { s with off := 0#16, work := { s.work with total := BitVec.ofNat 16 data.length } }

/-- The address of the chunk at OFF (42_transport R88, R92). -/
def State.chunkAddress (s : State) (start : Half) : Half := BitVec.ofNat 16 (start.toNat + s.off.toNat)

/-- The bytes of the chunk at OFF: at most 255 (42_transport R88). -/
def State.chunkBytes (s : State) (data : List Byte) : List Byte :=
  (data.drop s.off.toNat).take (min Config.maxPayload (s.work.total.toNat - s.off.toNat))

/-- `OFF <- OFF + m`, `m` the length of the chunk at OFF (42_transport R88). -/
def State.advanceOff (s : State) : State :=
  { s with off := BitVec.ofNat 16 (s.off.toNat + min Config.maxPayload (s.work.total.toNat - s.off.toNat)) }

/-- The loop of SEND_RANGE: while `OFF < TOTAL`, the steps of WRITE_PACKET for at most 255 bytes at
`start + OFF`, which end in RESULT 0 (R83), then OFF advances; a packet that fails leaves OFF at its offset (42_transport
R88, R90). The first argument bounds the turns. -/
def sendLoop : Nat → Half → List Byte → State → Progress
  | 0, _, _, s => .done s
  | turns + 1, start, data, s =>
    if s.off.toNat < s.work.total.toNat then
      (emitPacket (s.chunkAddress start) (s.chunkBytes data) s).andThen fun s =>
        sendLoop turns start data s.succeed.advanceOff
    else .done s

/-- SEND_RANGE past its range check (42_transport R88): `ceil(n / 255)` turns are enough. -/
def sendRangeFrom (start : Half) (data : List Byte) (s : State) : Progress :=
  sendLoop (chunkCount data.length) start data (rangeStart data s)

/-- FILL's register write (42_transport R93). -/
def fillStart (value : Byte) (s : State) : State := { s with work := { s.work with fillv := value } }

/-- SEND_RANGE of the whole frame memory's bytes from `FRAME_BASE` (42_transport R93, R95). -/
def sendToFrameBase (data : List Byte) (s : State) : Progress :=
  sendRangeFrom (BitVec.ofNat 16 Config.frameBase) data s

/-- SEND_FRAME past its valid check: `MemRead(0, FRAME_SIZE)`, then the range; nothing if a byte of FRAME has no value
(42_transport R95; log 9). -/
def sendFrameFrom (s : State) : Option Progress :=
  (s.frame.readRange 0 Config.frameSize).map fun data => sendToFrameBase data s

/-! ### The canvas and encoder halves that TICK shares with the commands -/

/-- Every pixel false, CANVAS_VALID, RESULT 0 (40_canvas R68). -/
def State.blankCanvas (s : State) : State := { s with canvas := [] }.setCanvasValid.succeed

/-- The disk of radius `|d|` about (cx, cy) added to CANVAS, RESULT 0 (40_canvas R70). -/
def State.drawDisk (s : State) (cx cy d : Int) : State := { s with canvas := s.canvas.draw (inDisk cx cy d) }.succeed

/-- FRAME written in full from CANVAS, FRAME_VALID, RESULT 0 (41_encoder R74). -/
def State.encodeCanvas (s : State) : State := { s with frame := s.canvas.encoded }.setFrameValid.succeed

/-- Step 1 of a tick: a blank canvas and the disk at ANIM's position (43_animation R100). -/
def State.tickDrawn (s : State) : State :=
  s.blankCanvas.drawDisk (signedOf s.anim.cx) (signedOf s.anim.cy) Config.radius

/-- Steps 1 to 4 of a tick past its preconditions (43_animation R100): nothing after a failed send (R102). -/
def tickFrom (s : State) : Option Progress :=
  (sendFrameFrom s.tickDrawn.encodeCanvas).map fun p => p.andThen fun s => .done { s with anim := s.anim.advance }

end Sys2Proof.Machine
end

