-- ==== Sys2Proof/Machine/Fetch.lean ====
section
/-! DEFINITION. What the block is asked to do next: the host's next move against the sequencer (30_encoding R62,
60_exceptions R116). -/

namespace Sys2Proof.Machine

/-- What one step of the block is about. -/
inductive Fetched where
  /-- nothing is executed: the block waits, is halted, or was reset -/
  | quiet (s : State)
  /-- a command is presented in IDLE -/
  | issue (i : Instr) (s : State)
  /-- the executing command's work goes on -/
  | work (j : Job) (s : State)
  /-- the bytes are no descriptor -/
  | invalid (e : DecodeError)
  deriving DecidableEq, Repr

/-- The host's moves without the first. -/
def State.dropMove (s : State) : State := { s with hostMoves := s.hostMoves.tail }

/-- A packet whose header has been accepted and whose payload never comes is cut short: what the device makes of it is
unspecified (60_exceptions R116, R118; 70_reset_and_hazards R125; log 11). -/
def State.abandonPacket (s : State) : State :=
  match s.seq with
  | .idle => s
  | .exec (.packetPayload a p) => s.devCut a.toNat p.length
  | .exec (.rangePayload _ start data) => s.devCut (s.chunkAddress start).toNat (s.chunkBytes data).length
  | .exec _ => s
  | .halt => s

/-- A descriptor presented in IDLE is decoded (30_encoding R62, R63). -/
def readDescriptor (descriptor : List Byte) (s : State) : Fetched :=
  match decodeDescriptor descriptor with
  | .ok i => .issue i s
  | .error e => .invalid e

/-- The next thing to do. RESET overrides everything, at any step (60_exceptions R113, R116). In IDLE a descriptor is
decoded; with no move the block waits (70_reset_and_hazards R124). In EXEC the work goes on: the host has no move but
reading and RESET, so a descriptor stays with the host (30_encoding R62). In HALT a descriptor is not accepted and has no
effect (R62). -/
def fetch (s : State) : Fetched :=
  match s.hostMoves, s.seq with
  | .reset :: _, _ => .quiet s.dropMove.abandonPacket.assertReset
  | .issue d :: _, .idle => readDescriptor d s.dropMove
  | .issue _ :: _, .exec j => .work j s
  | .issue _ :: _, .halt => .quiet s.dropMove
  | .observe :: _, .exec j => .work j s.dropMove
  | .observe :: _, .idle => .quiet s.dropMove
  | .observe :: _, .halt => .quiet s.dropMove
  | [], .exec j => .work j s
  | [], .idle => .quiet s
  | [], .halt => .quiet s

/-- The machine about to run the descriptor whose table bits are `w`: the descriptor is the host's next move, and the
block is idle so that it accepts it (30_encoding R62; log 19). -/
def State.presentWord (s : State) (nbits w : Nat) : State :=
  { s with hostMoves := .issue (paddedDescriptor nbits w) :: s.hostMoves, seq := .idle }

end Sys2Proof.Machine
end

