-- ==== Sys2Proof/Machine/Animation.lean ====
section
/-! DEFINITION. The animation client ANIM_INIT, TICK and RUN (43_animation). -/

namespace Sys2Proof.Machine

/-- ANIM_INIT (43_animation R99). -/
def execAnimInit (s : State) : Host.Outcome State Fault Refusal :=
  .next { s with anim := Anim.initial }.setAnimValid.complete

/-- TICK's preconditions, then its four steps, ended by `finish` (43_animation R100 to R102, R105). -/
def tickEndedBy (finish : Progress → State) (s : State) : Host.Outcome State Fault Refusal :=
  refuseOr s.tickRefusal ((tickFrom s).elim (.fault .frameByteNoValue) fun p => .next (finish p))

/-- TICK (43_animation R100). -/
def execTick (s : State) : Host.Outcome State Fault Refusal := tickEndedBy (Progress.finish State.releaseTick) s

/-- RUN (43_animation R104): one turn of its loop, a TICK. After a tick that ended OK the command still executes
(SEQ = EXEC) and the next turn is due; otherwise RUN has ended (log 20). -/
def execRun (s : State) : Host.Outcome State Fault Refusal := tickEndedBy (Progress.finishTurn State.releaseTick) s

end Sys2Proof.Machine
end

