-- ==== Sys2Proof/Machine/Canvas.lean ====
section
/-! DEFINITION. The canvas commands CANVAS_NEW, SET_PIXEL and DRAW_CIRCLE (40_canvas). -/

namespace Sys2Proof.Machine

/-- CANVAS_NEW (40_canvas R68): no precondition, no failure. -/
def execCanvasNew (s : State) : Host.Outcome State Fault Refusal := .next s.blankCanvas.complete

/-- SET_PIXEL (40_canvas R69). -/
def execSetPixel (x y : Half) (v : Bool) (s : State) : Host.Outcome State Fault Refusal :=
  refuseOr (s.pixelRefusal x y) (.next { s with canvas := s.canvas.write x.toNat y.toNat v }.complete)

/-- DRAW_CIRCLE (40_canvas R70 to R72): the s16 operands enter the test as exact integers. -/
def execDrawCircle (cx cy d : Half) (s : State) : Host.Outcome State Fault Refusal :=
  refuseOr s.canvasRefusal (.next (s.drawDisk (signedOf cx) (signedOf cy) (signedOf d)).complete)

end Sys2Proof.Machine
end

