-- ==== Sys2Proof/Machine/Encoder.lean ====
section
/-! DEFINITION. The frame encoder ENCODE (41_encoder). -/

namespace Sys2Proof.Machine

/-- ENCODE (41_encoder R74): FRAME from CANVAS alone, CANVAS unchanged (R77); J, I, K and ACC hold anything after it
(10_state R20; log 6). -/
def execEncode (s : State) : Host.Outcome State Fault Refusal :=
  refuseOr s.canvasRefusal (.next s.encodeCanvas.releaseEncoder.complete)

end Sys2Proof.Machine
end

