-- ==== Sys2Proof/Machine/Transport.lean ====
section
/-! DEFINITION. The binary transport WRITE_PACKET, SEND_RANGE, FILL and SEND_FRAME (42_transport), and the wire packet
itself (30_encoding R52). -/

namespace Sys2Proof.Machine

/-- WRITE_PACKET under a range policy: the checks in the order of 42_transport R82, then the packet. -/
def writePacketUnder (policy : Config.RangePolicy) (address : Half) (payload : List Byte) (s : State) :
    Host.Outcome State Fault Refusal :=
  if payload.length > Config.maxPayload then .next s.raiseContractViolation
  else refuseOr (packetRefusal policy address payload.length)
    (.next ((emitPacket address payload s).finish State.releasePacket))

/-- WRITE_PACKET (42_transport R82 to R86). -/
def execWritePacket (address : Half) (payload : List Byte) (s : State) : Host.Outcome State Fault Refusal :=
  writePacketUnder Config.rangePolicy address payload s

/-- SEND_RANGE under a range policy: one range check before any packet (42_transport R87), then the chunks (R88). -/
def sendRangeUnder (policy : Config.RangePolicy) (start : Half) (data : List Byte) (s : State) :
    Host.Outcome State Fault Refusal :=
  refuseOr (rangeRefusal policy start data.length) (.next ((sendRangeFrom start data s).finish State.releaseRange))

/-- SEND_RANGE (42_transport R87 to R92). -/
def execSendRange (start : Half) (data : List Byte) (s : State) : Host.Outcome State Fault Refusal :=
  sendRangeUnder Config.rangePolicy start data s

/-- FILL (42_transport R93): FILLV, then SEND_RANGE of FRAME_SIZE copies of it. -/
def execFill (value : Byte) (s : State) : Host.Outcome State Fault Refusal :=
  .next ((sendToFrameBase (List.replicate Config.frameSize value) (fillStart value s)).finish State.releaseFill)

/-- SEND_FRAME (42_transport R95): FRAME is not modified and stays valid. -/
def execSendFrame (s : State) : Host.Outcome State Fault Refusal :=
  refuseOr s.frameRefusal
    ((sendFrameFrom s).elim (.fault .frameByteNoValue) fun p => .next (p.finish State.releaseRange))

/-- The end of a packet that is not a command of its own: RESULT is a command's to write, unless the channel failed. -/
def endOfPacket : Progress → State
  | .done s => s.releasePacket
  | .failed e s => s.releasePacket.raiseTransportError e
  | .reset s => s.assertReset

/-- WIRE_PACKET (30_encoding R52 to R57): the emission of one packet; a packet that the block never emits is refused
(R64). It is no host command: log 12. -/
def execWirePacket (address : Half) (payload : List Byte) (s : State) : Host.Outcome State Fault Refusal :=
  refuseOr (wirePacketRefusal address payload.length) (.next (endOfPacket (emitPacket address payload s)))

/-- An opcode that names no command: the spec gives it no meaning (30_encoding R63, 60_exceptions R114). -/
def execReserved (opcode : Byte) (_ : State) : Host.Outcome State Fault Refusal := .refused (.reservedOpcode opcode)

end Sys2Proof.Machine
end

