-- ==== Sys2Proof/Machine/Dispatch.lean ====
section
/-! DEFINITION. The execution of an accepted command: one arm per row of the opcode table. -/

namespace Sys2Proof.Machine

def exec (i : Instr) (s : State) : Host.Outcome State Fault Refusal :=
  match i with
  | .canvasNew => Sys2Proof.Machine.execCanvasNew s
  | .setPixel x y v => Sys2Proof.Machine.execSetPixel x y v s
  | .drawCircle cx cy d => Sys2Proof.Machine.execDrawCircle cx cy d s
  | .encode => Sys2Proof.Machine.execEncode s
  | .writePacket address payload => Sys2Proof.Machine.execWritePacket address payload s
  | .sendRange start data => Sys2Proof.Machine.execSendRange start data s
  | .fill value => Sys2Proof.Machine.execFill value s
  | .sendFrame => Sys2Proof.Machine.execSendFrame s
  | .animInit => Sys2Proof.Machine.execAnimInit s
  | .tick => Sys2Proof.Machine.execTick s
  | .run => Sys2Proof.Machine.execRun s
  | .wirePacket address payload => Sys2Proof.Machine.execWirePacket address payload s
  | .reserved opcode => Sys2Proof.Machine.execReserved opcode s

end Sys2Proof.Machine
end

