-- ==== Sys2Proof/Machine/Sequencer.lean ====
section
/-! DEFINITION. The sequencer: accepting a command, and one step of the work of the command that is executing, at its
position (10_state R24, 20_memory R46). `exec` is the meaning of a whole command; what stands here is its work, step by
step, in the order of the spec's pseudocode (log 1, log 30). -/

namespace Sys2Proof.Machine

/-- Issue (30_encoding R62): BUSY is set, and nothing else is done yet. A command that its meaning refuses is refused here
(60_exceptions R114; log 24). -/
def acceptCommand (i : Instr) (s : State) : Host.Outcome State Fault Refusal :=
  refuseOr (refusalOf i s) (.next (s.goTo (.issued i)))

/-- The end of one transaction: the work goes on, or the command ends in the channel's error, or was cut off by RESET. -/
def Progress.turn (release : State → State) (goOn : State → State) : Progress → State
  | .done s => goOn s
  | .failed e s => (release s).raiseTransportError e
  | .reset s => s.assertReset

/-! ### ENCODE (41_encoder R74) -/

/-- ENCODE's start: FRAME_VALID cleared, the loop at J = 0, I = 0, K = 0 with ACC = 0. -/
def State.startEncoding (u : EncodeUser) (s : State) : State :=
  ({ s.clearFrameValid with work := { s.work with j := 0#6, i := 0#4, k := 0#4, acc := 0#8 } }).goTo (.encoding u)

/-- One K step: the next pixel enters ACC. -/
def State.packPixel (s : State) : State :=
  { s with work := { s.work with
      acc := shiftIn s.work.acc (s.canvas.pixel (9 * s.work.i.toNat + s.work.k.toNat) (2 * s.work.j.toNat + 1))
      k := s.work.k + 1#4 } }

/-- `FRAME[GROUPS * J + I] <- ACC`. -/
def State.storeByte (s : State) : State :=
  { s with frame := s.frame.write (Config.groups * s.work.j.toNat + s.work.i.toNat) s.work.acc }

/-- The loop at the start of byte (j, i). -/
def State.nextByte (s : State) (j : BitVec 6) (i : BitVec 4) : State :=
  { s with work := { s.work with j := j, i := i, k := 0#4, acc := 0#8 } }

/-- ENCODE's end: FRAME_VALID and RESULT 0, and the command completes or the tick goes on. -/
def State.endEncoding (u : EncodeUser) (s : State) : State :=
  match u with
  | .encode => s.setFrameValid.releaseEncoder.complete
  | .ticker t => s.setFrameValid.succeed.goTo (.sendNext t)

/-- One step of ENCODE's loop: a pixel, or, with all eight in, the byte and the next place. -/
def State.encodeTurn (u : EncodeUser) (s : State) : State :=
  if s.work.k.toNat < 8 then s.packPixel
  else if s.work.i.toNat + 1 < Config.groups then s.storeByte.nextByte s.work.j (s.work.i + 1#4)
  else if s.work.j.toNat + 1 < Config.rows then s.storeByte.nextByte (s.work.j + 1#6) 0#4
  else s.storeByte.endEncoding u

/-! ### The transport commands (42_transport R83, R88) -/

/-- The header of WRITE_PACKET. -/
def State.packetHeaderTurn (a : Half) (p : List Byte) (s : State) : State :=
  (sendHeader a p.length s).turn State.releasePacket fun s => s.goTo (.packetPayload a p)

/-- The payload of WRITE_PACKET, and its end. -/
def State.packetPayloadTurn (a : Half) (p : List Byte) (s : State) : State :=
  (sendPayload a p s).turn State.releasePacket fun s => s.releasePacket.complete

/-- The working registers that a range command leaves with any contents. -/
def RangeUser.release : RangeUser → State → State
  | .sendRange => State.releaseRange
  | .fill => State.releaseFill
  | .sendFrame => State.releaseRange
  | .ticker _ => State.releaseTick

/-- The start of SEND_RANGE past its check: TOTAL, OFF, and the first header is next. -/
def State.startRange (u : RangeUser) (start : Half) (data : List Byte) (s : State) : State :=
  (rangeStart data s).goTo (.rangeHeader u start data)

/-- The start of SEND_FRAME: `MemRead(0, FRAME_SIZE)`, then the range from `FRAME_BASE` (42_transport R95; log 9). -/
def State.startFrame (u : RangeUser) (s : State) : Host.Outcome State Fault Refusal :=
  (s.frame.readRange 0 Config.frameSize).elim (.fault .frameByteNoValue) fun data =>
    .next (s.startRange u (BitVec.ofNat 16 Config.frameBase) data)

/-- SEND_RANGE's end, with OFF = TOTAL: RESULT 0, and the command completes, or the tick goes on to its step 3. -/
def State.endRange (u : RangeUser) (s : State) : State :=
  match u with
  | .sendRange => (u.release s).complete
  | .fill => (u.release s).complete
  | .sendFrame => (u.release s).complete
  | .ticker t => s.succeed.goTo (.advance t)

/-- The head of SEND_RANGE's loop: the header of the chunk at OFF, or the end. -/
def State.rangeHeaderTurn (u : RangeUser) (start : Half) (data : List Byte) (s : State) : State :=
  if s.off.toNat < s.work.total.toNat then
    (sendHeader (s.chunkAddress start) (s.chunkBytes data).length s).turn u.release fun s =>
      s.goTo (.rangePayload u start data)
  else s.endRange u

/-- The payload of the chunk at OFF; accepted, the steps of WRITE_PACKET end in RESULT 0 and OFF advances (42_transport R83,
R88); failed, it does not (R90). -/
def State.rangePayloadTurn (u : RangeUser) (start : Half) (data : List Byte) (s : State) : State :=
  (sendPayload (s.chunkAddress start) (s.chunkBytes data) s).turn u.release fun s =>
    s.succeed.advanceOff.goTo (.rangeHeader u start data)

/-! ### TICK and RUN (43_animation R100, R104) -/

/-- Step 3. -/
def State.advanceTurn (t : Ticker) (s : State) : State := { s with anim := s.anim.move }.goTo (.reverse t)

/-- Step 4, and the end of the tick: TICK completes, RUN goes on to its next turn. -/
def State.reverseTurn (t : Ticker) (s : State) : State :=
  match t with
  | .tick => { s with anim := s.anim.reverse }.releaseTick.complete
  | .run => { s with anim := s.anim.reverse }.releaseTick.keepRunning

/-! ### One step of the work -/

/-- The first step of an accepted command. The canvas commands and ANIM_INIT are done in it: their loops have no position
that R24 names, and nothing outside the block sees one (log 27). -/
def startWork (i : Instr) (s : State) : Host.Outcome State Fault Refusal :=
  match i with
  | .canvasNew => exec .canvasNew s
  | .setPixel x y v => exec (.setPixel x y v) s
  | .drawCircle cx cy d => exec (.drawCircle cx cy d) s
  | .encode => .next (s.startEncoding .encode)
  | .writePacket a p =>
    if p.length > Config.maxPayload then .next s.raiseContractViolation else .next (s.goTo (.packetHeader a p))
  | .sendRange a data => .next (s.startRange .sendRange a data)
  | .fill v =>
    .next ((fillStart v s).startRange .fill (BitVec.ofNat 16 Config.frameBase) (List.replicate Config.frameSize v))
  | .sendFrame => s.startFrame .sendFrame
  | .animInit => exec .animInit s
  | .tick => .next (s.tickDrawn.goTo (.encodeNext .tick))
  | .run => .next (s.tickDrawn.goTo (.encodeNext .run))
  | .wirePacket a p => exec (.wirePacket a p) { s with seq := .idle }
  | .reserved opcode => exec (.reserved opcode) s

/-- One step of the work of the executing command (10_state R24). -/
def workOn (j : Job) (s : State) : Host.Outcome State Fault Refusal :=
  match j with
  | .issued i => startWork i s
  | .encodeNext t => .next (s.startEncoding (.ticker t))
  | .encoding u => .next (s.encodeTurn u)
  | .sendNext t => s.startFrame (.ticker t)
  | .packetHeader a p => .next (s.packetHeaderTurn a p)
  | .packetPayload a p => .next (s.packetPayloadTurn a p)
  | .rangeHeader u start data => .next (s.rangeHeaderTurn u start data)
  | .rangePayload u start data => .next (s.rangePayloadTurn u start data)
  | .advance t => .next (s.advanceTurn t)
  | .reverse t => .next (s.reverseTurn t)

end Sys2Proof.Machine
end

