-- ==== Sys2Proof/Machine/Step.lean ====
section
/-! DEFINITION. One step: what the host and the sequencer ask for, done (30_encoding R62, 10_state R24). -/

namespace Sys2Proof.Machine

/-- One step of the block. -/
def step (s : State) : Host.Outcome State Fault Refusal :=
  match fetch s with
  | .quiet t => .next t
  | .issue i t => acceptCommand i t
  | .work j t => workOn j t
  | .invalid e => .refused (.invalid e)

/-- `s` with the instruction of the opcode table's word placed where `step` takes its next instruction. -/
def State.withFetchWord (s : State) (nbits w : Nat) : State := s.presentWord nbits w

end Sys2Proof.Machine
end

