-- ==== Sys2Proof/Safety.lean ====
section
/-! DEFINITION. The terms that claims use: the coming events, what a packet and a range put on the channel, which
pixels reach the frame, running many steps, the positions within a command, the faulted condition and the end of a run,
and the invariants. -/

namespace Sys2Proof.Machine

/-! ### Inputs -/

/-- What happens at the `k`-th `ChanWrite` from now, counted from 0 (20_memory R44; log 3). -/
def State.eventAt (s : State) (k : Nat) : Config.ChanEvent := s.events.getD k (Config.chanEvent (s.writes + k))

/-- The channel answers `ok` to the next `n` writes, and no RESET comes in them. -/
def State.allOk (s : State) (n : Nat) : Prop := ∀ k < n, s.eventAt k = .ok

/-- An event that is RESET (60_exceptions R116). -/
def isResetEvent : Config.ChanEvent → Bool
  | .ok => false
  | .fail _ _ => false
  | .resetBefore => true
  | .resetDuring _ _ => true

/-- No RESET comes in the next `n` writes. -/
def State.resetFree (s : State) (n : Nat) : Prop := ∀ k < n, isResetEvent (s.eventAt k) = false

/-- The most channel writes an instruction (for RUN, one turn of its loop) makes (70_reset_and_hazards R138). -/
def mostWrites : Instr → Nat
  | .canvasNew => 0
  | .setPixel _ _ _ => 0
  | .drawCircle _ _ _ => 0
  | .encode => 0
  | .writePacket _ _ => 2
  | .sendRange _ data => 2 * chunkCount data.length
  | .fill _ => 2 * chunkCount Config.frameSize
  | .sendFrame => 2 * chunkCount Config.frameSize
  | .animInit => 0
  | .tick => 2 * chunkCount Config.frameSize
  | .run => 2 * chunkCount Config.frameSize
  | .wirePacket _ _ => 2
  | .reserved _ => 0

/-! ### What the channel sees -/

/-- The five header bytes of a packet of `n` bytes to address `a` (30_encoding R52). -/
def packetHeader (a n : Nat) : List Byte :=
  [0x00#8, 0x20#8, BitVec.ofNat 8 (a / 256), BitVec.ofNat 8 (a % 256), BitVec.ofNat 8 n]

/-- The TX entry of a write that was accepted. -/
def sentOk (b : List Byte) : TxEntry := { bytes := b, outcome := .ok, delivered := b.length }

/-- The TX entry of a write that failed with `e` after `min n (length)` bytes. -/
def sentFail (b : List Byte) (e : ErrInfo) (n : Nat) : TxEntry :=
  { bytes := b, outcome := .fail e, delivered := min n b.length }

/-- The two entries of a packet that was accepted (42_transport R83). -/
def packetEntries (a : Nat) (p : List Byte) : List TxEntry := [sentOk (packetHeader a p.length), sentOk p]

/-- The payload of packet `m` of a range (42_transport R89). -/
def chunkAt (data : List Byte) (m : Nat) : List Byte := (data.drop (255 * m)).take 255

/-- The entries of the first `k` packets of a range, all accepted (42_transport R89). -/
def firstPackets (start : Nat) (data : List Byte) (k : Nat) : List TxEntry :=
  (List.range k).flatMap fun m => packetEntries (start + 255 * m) (chunkAt data m)

/-- The entries of a whole range, all accepted: `ceil(n / 255)` packets (42_transport R89). -/
def rangeEntries (start : Nat) (data : List Byte) : List TxEntry := firstPackets start data ((data.length + 254) / 255)

/-- The bytes an entry's write handed to the channel, counted over a log. -/
def bytesHanded (log : List TxEntry) : Nat := (log.map fun e => e.bytes.length).sum

/-- Header bytes the block may emit: 00 20, a length of 1 to 255, inside the frame memory (30_encoding R64). -/
def isHeader : List Byte → Bool
  | [mode, flags, ah, al, len] =>
    decide (mode = 0x00#8 ∧ flags = 0x20#8 ∧ len ≠ 0#8 ∧ 256 * ah.toNat + al.toNat + len.toNat ≤ 1008)
  | _ => false

/-- A log that is a sequence of packets: header, then a payload of the header's length; a failed write ends it, and where
`cut` says that RESET came, so does an accepted header with no payload (20_memory R47, 30_encoding R64, 42_transport R84,
R96). -/
def isPacketTrace (cut : Bool) : List TxEntry → Bool
  | [] => true
  | [h] => isHeader h.bytes && (cut || !decide (h.outcome = .ok))
  | h :: p :: rest =>
    isHeader h.bytes && decide (h.outcome = .ok) && decide (p.bytes.length = (h.bytes.getD 4 0#8).toNat) &&
      (rest.isEmpty || (decide (p.outcome = .ok) && isPacketTrace cut rest))

/-- An entry as 10_state R29 and 20_memory R44 and R45 say: never empty, at most 255 bytes, delivered in full exactly
as far as the outcome says. -/
def TxEntry.wf (e : TxEntry) : Prop :=
  1 ≤ e.bytes.length ∧ e.bytes.length ≤ 255 ∧ e.delivered ≤ e.bytes.length ∧
    (e.outcome = .ok → e.delivered = e.bytes.length)

/-! ### Pixels -/

/-- Grid pixel (x, y) has a bit in the frame (20_memory R40). -/
def represented (x y : Nat) : Prop := x < 144 ∧ y < 126 ∧ y % 2 = 1 ∧ x % 9 ≠ 8

/-! ### Running -/

/-- `n` steps of the block. -/
def steps : Nat → State → Host.Outcome State Fault Refusal
  | 0, s => .next s
  | n + 1, s =>
    match step s with
    | .next t => steps n t
    | .fault f => .fault f
    | .refused r => .refused r

/-- The host neither looks nor asserts RESET: it does nothing, or waits with a descriptor (30_encoding R62; log 19). -/
def State.undisturbed (s : State) : Prop := s.hostMoves = [] ∨ ∃ d moves, s.hostMoves = .issue d :: moves

/-- `s` comes to `t` in one or more steps, and BUSY is 1 at every step before. -/
def RunsTo (s t : State) : Prop :=
  ∃ n, steps (n + 1) s = .next t ∧ ∀ m ≤ n, ∃ u, steps m s = .next u ∧ u.statusWord.getLsbD 0 = true

/-- The range of bytes that a command puts on the channel, and where (42_transport R88, R93, R95; 43_animation R100). For
TICK and a turn of RUN it is the frame of the disk at ANIM's position. -/
def sends (i : Instr) (s : State) (a : Half) (data : List Byte) : Prop :=
  (i = .sendRange a data ∧ a.toNat + data.length ≤ 1008) ∨
  ((∃ v, i = .fill v ∧ data = List.replicate 1008 v) ∧ a = 0#16) ∨
  (i = .sendFrame ∧ a = 0#16 ∧ s.status.frameValid = true ∧ data.length = 1008 ∧
    ∀ k < 1008, data[k]? = Memory.read s.frame k) ∨
  ((i = .tick ∨ i = .run) ∧ a = 0#16 ∧ s.status.animValid = true ∧ data.length = 1008 ∧
    ∀ j i k, j < 63 → i < 16 → k < 8 → ∃ b, data[16 * j + i]? = some b ∧
      (b.getLsbD (7 - k) = true ↔
        ((9 * i + k : Nat) - s.anim.cx.toInt : Int) ^ 2 + ((2 * j + 1 : Nat) - s.anim.cy.toInt : Int) ^ 2 < 12 ^ 2))

/-! ### Positions within a command (10_state R24) -/

/-- The step number of a tick, 1 to 4; none for the work of another command. -/
def Job.tickStep : Job → Option Nat
  | .issued .tick => some 1
  | .issued .run => some 1
  | .issued _ => none
  | .encodeNext _ => some 2
  | .encoding .encode => none
  | .encoding (.ticker _) => some 2
  | .sendNext _ => some 2
  | .packetHeader _ _ => none
  | .packetPayload _ _ => none
  | .rangeHeader (.ticker _) _ _ => some 2
  | .rangeHeader _ _ _ => none
  | .rangePayload (.ticker _) _ _ => some 2
  | .rangePayload _ _ _ => none
  | .advance _ => some 3
  | .reverse _ => some 4

/-- The phases of a packet: its header is next, or its payload. -/
inductive PacketPhase where
  | header
  | payload
  deriving DecidableEq, Repr

/-- The phase of the packet in progress (10_state R24). -/
def Job.phase : Job → Option PacketPhase
  | .issued _ => none
  | .encodeNext _ => none
  | .encoding _ => none
  | .sendNext _ => none
  | .packetHeader _ _ => some .header
  | .packetPayload _ _ => some .payload
  | .rangeHeader _ _ _ => some .header
  | .rangePayload _ _ _ => some .payload
  | .advance _ => none
  | .reverse _ => none

/-- In ENCODE's loop at (J, I, K): the bytes before are in FRAME, and the first K pixels of this one in ACC (41_encoder
R74). -/
def State.EncodingAt (s : State) : Prop :=
  s.status.canvasValid = true ∧ s.status.frameValid = false ∧ s.work.j.toNat < 63 ∧ s.work.k.toNat ≤ 8 ∧
    (∀ n < 16 * s.work.j.toNat + s.work.i.toNat,
      Memory.read s.frame n = some (s.canvas.packedByte (n / 16) (n % 16))) ∧
    ∀ k < s.work.k.toNat, s.work.acc.getLsbD (s.work.k.toNat - 1 - k) =
      s.canvas.pixel (9 * s.work.i.toNat + k) (2 * s.work.j.toNat + 1)

/-- In SEND_RANGE's loop: the range is in the frame memory, TOTAL is its length, and OFF is at a chunk or at the end
(42_transport R88). -/
def State.RangeAt (s : State) (start : Half) (data : List Byte) : Prop :=
  start.toNat + data.length ≤ 1008 ∧ s.work.total.toNat = data.length ∧ s.off.toNat ≤ data.length ∧
    (s.off.toNat = data.length ∨ s.off.toNat % 255 = 0)

/-- The last entry of TX is the accepted header of a packet of `n` bytes to `a`. -/
def State.HeaderSent (s : State) (a n : Nat) : Prop := s.tx.getLast? = some (sentOk (packetHeader a n))

/-- What a tick has at its step 2, once ENCODE is done. -/
def State.TickReady (s : State) : Prop :=
  s.status.animValid = true ∧ s.status.canvasValid = true ∧ s.status.frameValid = true

/-- What the position of the work says of the rest of the state. -/
def Job.Inv : Job → State → Prop
  | .issued i, s => i.isCommand = true ∧ refusalOf i s = none
  | .encodeNext _, s => s.status.animValid = true ∧ s.status.canvasValid = true
  | .encoding .encode, s => s.EncodingAt
  | .encoding (.ticker _), s => s.EncodingAt ∧ s.status.animValid = true
  | .sendNext _, s => s.TickReady
  | .packetHeader a p, _ => 1 ≤ p.length ∧ p.length ≤ 255 ∧ a.toNat + p.length ≤ 1008
  | .packetPayload a p, s =>
    1 ≤ p.length ∧ p.length ≤ 255 ∧ a.toNat + p.length ≤ 1008 ∧ s.HeaderSent a.toNat p.length
  | .rangeHeader (.ticker _) a data, s => s.RangeAt a data ∧ s.TickReady
  | .rangeHeader _ a data, s => s.RangeAt a data
  | .rangePayload (.ticker _) a data, s => s.RangeAt a data ∧ s.off.toNat < data.length ∧
    s.HeaderSent (a.toNat + s.off.toNat) (min 255 (data.length - s.off.toNat)) ∧ s.TickReady
  | .rangePayload _ a data, s => s.RangeAt a data ∧ s.off.toNat < data.length ∧
    s.HeaderSent (a.toNat + s.off.toNat) (min 255 (data.length - s.off.toNat))
  | .advance _, s => s.TickReady
  | .reverse _, s => s.TickReady

/-- The position of the work fits the state; in IDLE and HALT there is none. -/
def State.PositionInv (s : State) : Prop :=
  match s.seq with
  | .idle => True
  | .exec j => j.Inv s
  | .halt => True

/-! ### Conditions of the whole machine -/

/-- The condition 60_exceptions R111 asks a model to treat as a fault: never final, left by RESET alone (log 18). -/
def State.faulted (s : State) : Bool := s.fatal

/-- A run is over by a transport failure (43_animation R106). -/
def State.runFailed (s : State) : Prop := s.seq = .idle ∧ s.result = resultTransportError

/-- Every memory has its canonical form. -/
def State.MemoryInv (s : State) : Prop :=
  Canvas.wf s.canvas ∧ Memory.wf 1008 s.frame ∧ Memory.wf 1008 s.dev

/-- RESULT is a code of R112; HALT is ContractViolation's; a TransportError was recorded in TERR; in EXEC the position of
the work fits the state; a valid frame has every byte, and a canvas it came from. -/
def State.ControlInv (s : State) : Prop :=
  (s.result = 0#8 ∨ s.result = 1#8 ∨ s.result = 2#8) ∧ (s.seq = .halt ↔ s.result = 2#8) ∧
    (s.result = 1#8 → s.status.terr = true) ∧ s.PositionInv ∧
    (s.status.frameValid = true → s.status.canvasValid = true ∧ ∀ k < 1008, (Memory.read s.frame k).isSome = true)

/-- One axis: inside `[12, dimension - 12]`, and heading inward at its ends (43_animation R101, R103). -/
def axisInRange (dimension : Int) (c : Half) (d : Dir) : Prop :=
  12 ≤ c.toInt ∧ c.toInt ≤ dimension - 12 ∧ (c.toInt = dimension - 12 → d = .neg) ∧ (c.toInt = 12 → d = .pos)

/-- Between step 3 and step 4 of a tick: the position has advanced, and the reversal is next. -/
def Seq.reversing : Seq → Bool
  | .idle => false
  | .exec (.reverse _) => true
  | .exec _ => false
  | .halt => false

/-- ANIM as it stands, or, between steps 3 and 4 of a tick, as step 4 will leave it. -/
def State.settledAnim (s : State) : Anim := if s.seq.reversing then s.anim.reverse else s.anim

/-- The position never leaves `[12, 132] x [12, 114]`, and heads inward at its ends (43_animation R101, R103). -/
def State.AnimInv (s : State) : Prop :=
  s.status.animValid = true →
    axisInRange 144 s.settledAnim.cx s.settledAnim.dx ∧ axisInRange 126 s.settledAnim.cy s.settledAnim.dy

end Sys2Proof.Machine
end

