-- ==== Sys2Proof/Certificates/Slice0/Obligations.lean ====
section
/-! DEFINITION. The statements for the provers, from the numbered rules of spec/. -/

open Sys2Proof Sys2Proof.Machine

/-! ### Encodings -/

/-- 30_encoding R59, R60: descriptors of 95_test_vectors P1 to P5 and each family, written out byte by byte. -/
def Obligations.DescriptorWordsDecode : Prop :=
  decodeDescriptor [0x01#8] = .ok .canvasNew ∧
  decodeDescriptor [0x02#8, 0x00#8, 0x03#8, 0x00#8, 0x01#8, 0x01#8] = .ok (.setPixel 3#16 1#16 true) ∧
  decodeDescriptor [0x03#8, 0x00#8, 0x08#8, 0x00#8, 0x03#8, 0xFF#8, 0xFD#8] = .ok (.drawCircle 8#16 3#16 (-3#16)) ∧
  decodeDescriptor [0x04#8] = .ok .encode ∧
  decodeDescriptor [0x05#8, 0x02#8, 0xFD#8, 0x00#8, 0x01#8, 0x1C#8] = .ok (.writePacket 0x02FD#16 [0x1C#8]) ∧
  decodeDescriptor [0x07#8, 0xAA#8] = .ok (.fill 0xAA#8) ∧
  decodeDescriptor [0x0A#8] = .ok .tick ∧
  decodePacket [0x00#8, 0x20#8, 0x02#8, 0xFD#8, 0x01#8, 0x55#8] = .ok (.wirePacket 0x02FD#16 [0x55#8], [])

/-- 30_encoding R59, R60, R65: every command, with every operand at every value its fields admit, comes back from its
descriptor, whatever follows it. -/
def Obligations.DescriptorRoundTrip : Prop :=
  ∀ (i : Instr) (rest : List Byte), i.wellFormed = true → i.isCommand = true →
    decode (encode i ++ rest) = .ok (i, rest)

/-- 30_encoding R52, R55, R56: every packet the header can say comes back from its bytes on the stream. -/
def Obligations.WirePacketRoundTrip : Prop :=
  ∀ (a : Half) (p rest : List Byte), (Instr.wirePacket a p).wellFormed = true →
    decodePacket (encode (.wirePacket a p) ++ rest) = .ok (.wirePacket a p, rest)

/-- 30_encoding R59, R63: what the descriptor decoder accepts is well-formed, and the bytes are its encoding, so that no
two commands share bytes. -/
def Obligations.DecodedBytesAreTheEncoding : Prop :=
  ∀ (bs rest : List Byte) (i : Instr), decode bs = .ok (i, rest) → i.wellFormed = true ∧ bs = encode i ++ rest

/-- 30_encoding R63, 60_exceptions R114: an opcode byte 0x00 or 0x0C to 0xFF names no command: the block refuses it,
presented by the host or executed; and a SET_PIXEL whose `v` is neither 0 nor 1 is refused. -/
def Obligations.InvalidEncodingsRefused : Prop :=
  (∀ (s : State) (op : Byte) (bs : List Byte) (moves : List HostMove), (op.toNat = 0 ∨ 0x0C ≤ op.toNat) →
    s.seq = .idle → s.hostMoves = .issue (op :: bs) :: moves → step s = .refused (.reservedOpcode op)) ∧
  (∀ (op : Byte) (s : State), exec (.reserved op) s = .refused (.reservedOpcode op)) ∧
  (∀ (s : State) (x0 x1 y0 y1 v : Byte) (moves : List HostMove), 1 < v.toNat →
    s.seq = .idle → s.hostMoves = .issue [0x02#8, x0, x1, y0, y1, v] :: moves →
    step s = .refused (.invalid .badPixelValue))

/-! ### The step, the host's moves, RESET -/

/-- 30_encoding R62, 10_state R24: in IDLE a presented descriptor that decodes to an instruction is issued: BUSY is set and
the instruction is what the sequencer executes; where its meaning refuses, the issue is refused for the same reason. What
the steps that follow come to is `CommandRunsToItsMeaning`. -/
def Obligations.StepRunsTheDescriptor : Prop :=
  ∀ (s : State) (d : List Byte) (moves : List HostMove) (i : Instr), s.seq = .idle → s.hostMoves = .issue d :: moves →
    decodeDescriptor d = .ok i →
    ((∀ r, exec i { s with hostMoves := moves } ≠ .refused r) →
      step s = .next { s with hostMoves := moves, seq := .exec (.issued i) }) ∧
    (∀ r, exec i { s with hostMoves := moves } = .refused r → step s = .refused r)

/-- 30_encoding R62, 20_memory R46, 10_state R24: while a command executes, a step is one step of its work, at its position; a
descriptor stays with the host, and a look at the registers passes. -/
def Obligations.StepContinuesTheWork : Prop :=
  (∀ (s : State) (j : Job), s.seq = .exec j → s.hostMoves = [] → step s = workOn j s) ∧
  (∀ (s : State) (j : Job) (d : List Byte) (moves : List HostMove), s.seq = .exec j → s.hostMoves = .issue d :: moves →
    step s = workOn j s) ∧
  (∀ (s : State) (j : Job) (moves : List HostMove), s.seq = .exec j → s.hostMoves = .observe :: moves →
    step s = workOn j { s with hostMoves := moves })

/-- 20_memory R46, 10_state R24, 30_encoding R62: from the issue of a command whose meaning goes on, the steps of its work
come, with BUSY = 1 at each of them, to what the meaning says (log 30); a command that its meaning stops is stopped at its
first step. -/
def Obligations.CommandRunsToItsMeaning : Prop :=
  ∀ (s : State) (i : Instr), i.isCommand = true → s.seq = .exec (.issued i) → s.undisturbed → Memory.wf 1008 s.frame →
    (∀ t, exec i s = .next t → RunsTo s t) ∧ (∀ f, exec i s = .fault f → step s = .fault f)

/-- 70_reset_and_hazards R124, 30_encoding R62, 60_exceptions R111, R116: an idle block that is given no command stays
as it is, and in HALT nothing but RESET has an effect. -/
def Obligations.NothingHappensUnasked : Prop :=
  (∀ s : State, s.seq = .idle → s.hostMoves = [] → step s = .next s) ∧
  (∀ (s : State) (moves : List HostMove), s.seq = .idle → s.hostMoves = .observe :: moves →
    step s = .next { s with hostMoves := moves }) ∧
  (∀ s : State, s.seq = .halt → (∀ moves, s.hostMoves ≠ .reset :: moves) →
    step s = .next { s with hostMoves := s.hostMoves.tail })

/-- 70_reset_and_hazards R123, R125; 10_state R31: what RESET leaves, in any state and at any step of a command. Where no
packet is between its header and its payload, DEV is as before; a packet cut there has its bytes unspecified (log 11, from
60_exceptions R118). And the state after reset itself. -/
def Obligations.ResetLeaves : Prop :=
  (∀ (s : State) (moves : List HostMove), s.hostMoves = .reset :: moves → ∃ t, step s = .next t ∧
    t.seq = .idle ∧ t.statusWord = 0x00#8 ∧ t.result = 0#8 ∧ t.errorValue = none ∧
    t.tx = s.tx ∧ t.hostMoves = moves ∧ t.events = s.events ∧ t.writes = s.writes ∧
    ((∀ j, s.seq = .exec j → j.phase ≠ some .payload) →
      (∀ a, Memory.read t.dev a = Memory.read s.dev a) ∧ t.devSynced = s.devSynced) ∧
    (∀ j, s.seq = .exec j → j.phase = some .payload → t.devSynced = false) ∧
    (∀ a p, s.seq = .exec (.packetPayload a p) → s.devSynced = true → a.toNat + p.length ≤ 1008 →
      ∀ x, Memory.read t.dev x =
        if a.toNat ≤ x ∧ x < a.toNat + p.length then none else Memory.read s.dev x) ∧
    (∀ u a data, s.seq = .exec (.rangePayload u a data) → s.devSynced = true → s.RangeAt a data →
      ∀ x, Memory.read t.dev x =
        if a.toNat + s.off.toNat ≤ x ∧ x < a.toNat + s.off.toNat + min 255 (data.length - s.off.toNat) then none
        else Memory.read s.dev x)) ∧
  (State.reset.seq = .idle ∧ State.reset.statusWord = 0x00#8 ∧ State.reset.result = 0#8 ∧
    State.reset.errorValue = none ∧ State.reset.frame = [])

/-- 60_exceptions R116, 10_state R31: RESET before or during either write of a packet (WRITE_PACKET's, or a wire packet)
abandons it; a write in flight is logged as failed with the drawn prefix, and an accepted header stays in TX. What it leaves
of DEV, and that DEV is followed no more once the header has been started, is R118's inference carried to RESET (log 11). -/
def Obligations.ResetCutsAPacket : Prop :=
  ∀ (s : State) (i : Instr) (a : Half) (p : List Byte), (i = .writePacket a p ∨ i = .wirePacket a p) →
    1 ≤ p.length → p.length ≤ 255 → a.toNat + p.length ≤ 1008 →
    (s.eventAt 0 = .resetBefore → ∃ t, exec i s = .next t ∧
      t.seq = .idle ∧ t.statusWord = 0x00#8 ∧ t.result = 0#8 ∧ t.tx = s.tx ∧
      (∀ x, Memory.read t.dev x = Memory.read s.dev x) ∧ t.devSynced = s.devSynced) ∧
    (∀ e n, s.eventAt 0 = .resetDuring e n → ∃ t, exec i s = .next t ∧
      t.seq = .idle ∧ t.statusWord = 0x00#8 ∧ t.result = 0#8 ∧
      t.tx = s.tx ++ [sentFail (packetHeader a.toNat p.length) e n] ∧ t.devSynced = false) ∧
    (s.eventAt 0 = .ok → s.eventAt 1 = .resetBefore → ∃ t, exec i s = .next t ∧
      t.seq = .idle ∧ t.statusWord = 0x00#8 ∧ t.result = 0#8 ∧
      t.tx = s.tx ++ [sentOk (packetHeader a.toNat p.length)] ∧ t.devSynced = false) ∧
    (∀ e n, s.eventAt 0 = .ok → s.eventAt 1 = .resetDuring e n → ∃ t, exec i s = .next t ∧
      t.seq = .idle ∧ t.statusWord = 0x00#8 ∧ t.result = 0#8 ∧
      t.tx = s.tx ++ [sentOk (packetHeader a.toNat p.length), sentFail p e n] ∧ t.devSynced = false)

/-- 60_exceptions R116, 10_state R31: RESET in packet `k` of a range, be it SEND_RANGE's, FILL's, SEND_FRAME's, a tick's or a
turn of RUN's: the command, and with it the run, is abandoned there, whatever it would have done next. TX keeps the
packets before it and what was written of packet `k`. What a followed device holds then is R118's inference carried to
RESET (log 11). -/
def Obligations.ResetCutsARange : Prop :=
  ∀ (s : State) (i : Instr) (a : Half) (data : List Byte) (k : Nat), sends i s a data →
    k < (data.length + 254) / 255 → s.allOk (2 * k) →
    (s.eventAt (2 * k) = .resetBefore → ∃ t, exec i s = .next t ∧
      t.seq = .idle ∧ t.statusWord = 0x00#8 ∧ t.result = 0#8 ∧ t.tx = s.tx ++ firstPackets a.toNat data k ∧
      t.devSynced = s.devSynced ∧ (s.devSynced = true → ∀ x, Memory.read t.dev x =
        if a.toNat ≤ x ∧ x < a.toNat + 255 * k then data[x - a.toNat]? else Memory.read s.dev x)) ∧
    (∀ e n last, (s.eventAt (2 * k) = .resetDuring e n ∧
          last = [sentFail (packetHeader (a.toNat + 255 * k) (chunkAt data k).length) e n] ∨
        s.eventAt (2 * k) = .ok ∧ s.eventAt (2 * k + 1) = .resetBefore ∧
          last = [sentOk (packetHeader (a.toNat + 255 * k) (chunkAt data k).length)] ∨
        s.eventAt (2 * k) = .ok ∧ s.eventAt (2 * k + 1) = .resetDuring e n ∧
          last = [sentOk (packetHeader (a.toNat + 255 * k) (chunkAt data k).length), sentFail (chunkAt data k) e n]) →
      ∃ t, exec i s = .next t ∧ t.seq = .idle ∧ t.statusWord = 0x00#8 ∧ t.result = 0#8 ∧
        t.tx = s.tx ++ firstPackets a.toNat data k ++ last ∧ t.devSynced = false ∧
        (s.devSynced = true → ∀ x, Memory.read t.dev x =
          if a.toNat ≤ x ∧ x < a.toNat + 255 * k then data[x - a.toNat]?
          else if a.toNat + 255 * k ≤ x ∧ x < a.toNat + 255 * k + (chunkAt data k).length then none
          else Memory.read s.dev x))

/-- 10_state R25: where the bits of STATUS stand; BUSY is `SEQ = EXEC`, at whatever position. -/
def Obligations.StatusLayout : Prop :=
  ∀ s : State, (s.statusWord.getLsbD 0 = true ↔ ∃ j, s.seq = .exec j) ∧ s.statusWord.getLsbD 1 = s.status.terr ∧
    s.statusWord.getLsbD 2 = decide (s.seq = .halt) ∧ s.statusWord.getLsbD 3 = s.status.canvasValid ∧
    s.statusWord.getLsbD 4 = s.status.frameValid ∧ s.statusWord.getLsbD 5 = s.status.animValid ∧
    s.statusWord.getLsbD 6 = false ∧ s.statusWord.getLsbD 7 = false

/-! ### The work of a command, step by step -/

/-- 41_encoder R74, 10_state R24, R25: ENCODE's steps. Its start clears FRAME_VALID and puts the loop at J = 0, I = 0, K = 0;
a K step shifts one pixel into ACC; after the eighth the byte is stored and the loop goes to the next I, or the next J; after
the last byte FRAME_VALID is set and RESULT is 0, and the command completes or the tick goes on to its SEND_FRAME (30_encoding
R66; how 10_state R23 is read with it, log 20). Where one step ends and the next begins is the model's reading (log 1). -/
def Obligations.EncodeWork : Prop :=
  (∀ s : State, s.seq = .exec (.issued .encode) → s.undisturbed → step s = .next
    { s with
      seq := .exec (.encoding .encode), status := { s.status with frameValid := false }
      work := { s.work with j := 0#6, i := 0#4, k := 0#4, acc := 0#8 } }) ∧
  (∀ (s : State) (t : Ticker), s.seq = .exec (.encodeNext t) → s.undisturbed → step s = .next
    { s with
      seq := .exec (.encoding (.ticker t)), status := { s.status with frameValid := false }
      work := { s.work with j := 0#6, i := 0#4, k := 0#4, acc := 0#8 } }) ∧
  (∀ (s : State) (u : EncodeUser), s.seq = .exec (.encoding u) → s.undisturbed →
    (s.work.k.toNat < 8 → ∃ acc : Byte, acc.getLsbD 0 =
        Canvas.pixel s.canvas (9 * s.work.i.toNat + s.work.k.toNat) (2 * s.work.j.toNat + 1) ∧
      (∀ m < 7, acc.getLsbD (m + 1) = s.work.acc.getLsbD m) ∧
      step s = .next { s with work := { s.work with acc := acc, k := s.work.k + 1#4 } }) ∧
    (s.work.k.toNat = 8 → ∃ f : Memory,
      (∀ x, Memory.read f x =
        if x = 16 * s.work.j.toNat + s.work.i.toNat then some s.work.acc else Memory.read s.frame x) ∧
      (s.work.i.toNat < 15 → step s = .next
        { s with frame := f, work := { s.work with i := s.work.i + 1#4, k := 0#4, acc := 0#8 } }) ∧
      (s.work.i.toNat = 15 → s.work.j.toNat < 62 → step s = .next
        { s with frame := f, work := { s.work with j := s.work.j + 1#6, i := 0#4, k := 0#4, acc := 0#8 } }) ∧
      (s.work.i.toNat = 15 → s.work.j.toNat = 62 → ∃ t, step s = .next t ∧ t.frame = f ∧ t.canvas = s.canvas ∧
        t.status = { s.status with frameValid := true } ∧ t.tx = s.tx ∧
        (u = .encode → t.seq = .idle ∧ t.result = 0#8) ∧
        (∀ k, u = .ticker k → t.seq = .exec (.sendNext k) ∧ t.result = 0#8))))

/-- 42_transport R83, R88, R90; 10_state R19, R24; 60_exceptions R110, R116: the transport's steps, one `ChanWrite` each: a
header, then the payload of that header's length; OFF advances past an accepted payload, stays at the chunk whose packet
failed, and is TOTAL at the end; every packet of a range ends in RESULT 0 (R83, R88). That OFF stays through WRITE_PACKET, the
accepted and the failed one, is the model's choice (log 22); that each write is a step of its own is its reading (log 1), and
so are RESET at a write (log 2) and how 10_state R23 is read with the RESULT of a part of a command (log 20). -/
def Obligations.TransportWork : Prop :=
  (∀ (s : State) (a : Half) (p : List Byte), s.seq = .exec (.packetHeader a p) → s.undisturbed →
    ∃ t, step s = .next t ∧ t.writes = s.writes + 1 ∧
      (s.eventAt 0 = .ok → t.seq = .exec (.packetPayload a p) ∧ t.result = s.result ∧ t.off = s.off ∧
        t.tx = s.tx ++ [sentOk (packetHeader a.toNat p.length)]) ∧
      (∀ e n, s.eventAt 0 = .fail e n → t.seq = .idle ∧ t.result = 1#8 ∧ t.errorValue = some e ∧ t.off = s.off ∧
        t.tx = s.tx ++ [sentFail (packetHeader a.toNat p.length) e n]) ∧
      (isResetEvent (s.eventAt 0) = true → t.seq = .idle ∧ t.statusWord = 0x00#8)) ∧
  (∀ (s : State) (a : Half) (p : List Byte), s.seq = .exec (.packetPayload a p) → s.undisturbed →
    ∃ t, step s = .next t ∧ t.writes = s.writes + 1 ∧
      (s.eventAt 0 = .ok → t.seq = .idle ∧ t.result = 0#8 ∧ t.off = s.off ∧ t.tx = s.tx ++ [sentOk p]) ∧
      (∀ e n, s.eventAt 0 = .fail e n → t.seq = .idle ∧ t.result = 1#8 ∧ t.errorValue = some e ∧ t.off = s.off ∧
        t.tx = s.tx ++ [sentFail p e n]) ∧
      (isResetEvent (s.eventAt 0) = true → t.seq = .idle ∧ t.statusWord = 0x00#8)) ∧
  (∀ (s : State) (a : Half) (data : List Byte), s.seq = .exec (.issued (.sendRange a data)) → s.undisturbed →
    ∃ t, step s = .next t ∧ t.seq = .exec (.rangeHeader .sendRange a data) ∧ t.off = 0#16 ∧
      t.work.total = BitVec.ofNat 16 data.length ∧ t.tx = s.tx ∧ t.result = s.result) ∧
  (∀ (s : State) (u : RangeUser) (a : Half) (data : List Byte), s.seq = .exec (.rangeHeader u a data) → s.undisturbed →
    s.RangeAt a data → ∃ t, step s = .next t ∧
      (s.off.toNat < data.length → t.writes = s.writes + 1 ∧
        (s.eventAt 0 = .ok → t.seq = .exec (.rangePayload u a data) ∧ t.result = s.result ∧ t.off = s.off ∧
          t.tx = s.tx ++ [sentOk (packetHeader (a.toNat + s.off.toNat) (min 255 (data.length - s.off.toNat)))]) ∧
        (∀ e n, s.eventAt 0 = .fail e n → t.seq = .idle ∧ t.result = 1#8 ∧ t.errorValue = some e ∧ t.off = s.off ∧
          t.tx = s.tx ++
            [sentFail (packetHeader (a.toNat + s.off.toNat) (min 255 (data.length - s.off.toNat))) e n]) ∧
        (isResetEvent (s.eventAt 0) = true → t.seq = .idle ∧ t.statusWord = 0x00#8)) ∧
      (s.off.toNat = data.length → t.tx = s.tx ∧ t.off = s.off ∧ t.writes = s.writes ∧
        (∀ k, u = .ticker k → t.seq = .exec (.advance k) ∧ t.result = 0#8) ∧
        ((∀ k, u ≠ .ticker k) → t.seq = .idle ∧ t.result = 0#8))) ∧
  (∀ (s : State) (u : RangeUser) (a : Half) (data : List Byte), s.seq = .exec (.rangePayload u a data) → s.undisturbed →
    s.RangeAt a data → s.off.toNat < data.length → ∃ t, step s = .next t ∧ t.writes = s.writes + 1 ∧
      (s.eventAt 0 = .ok → t.seq = .exec (.rangeHeader u a data) ∧ t.result = 0#8 ∧
        t.off.toNat = s.off.toNat + min 255 (data.length - s.off.toNat) ∧
        t.tx = s.tx ++ [sentOk ((data.drop s.off.toNat).take 255)]) ∧
      (∀ e n, s.eventAt 0 = .fail e n → t.seq = .idle ∧ t.result = 1#8 ∧ t.errorValue = some e ∧ t.off = s.off ∧
        t.tx = s.tx ++ [sentFail ((data.drop s.off.toNat).take 255) e n]) ∧
      (isResetEvent (s.eventAt 0) = true → t.seq = .idle ∧ t.statusWord = 0x00#8))

/-- 43_animation R100, R101, R104; 10_state R24: the steps of a tick that are its own: step 1 draws, step 2's SEND_FRAME starts
after its ENCODE, step 3 advances the position, step 4 reverses the velocity and ends the tick (RUN then goes on with step
1 of the next); and the step number goes 1, 2, 3, 4 in order, from 4 back to 1 for RUN alone. The division into steps is the
model's reading (log 1); the commands of step 1 end in RESULT 0 (30_encoding R66; log 20). -/
def Obligations.TickWork : Prop :=
  (∀ (s : State) (k : Ticker), (s.seq = .exec (.issued .tick) ∧ k = .tick ∨ s.seq = .exec (.issued .run) ∧ k = .run) →
    s.undisturbed → ∃ t, step s = .next t ∧ t.seq = .exec (.encodeNext k) ∧ t.status = { s.status with canvasValid := true } ∧
      t.frame = s.frame ∧ t.anim = s.anim ∧ t.tx = s.tx ∧ t.result = 0#8 ∧
      ∀ x y : Nat, x < 144 → y < 126 → (Canvas.pixel t.canvas x y = true ↔
        ((x : Int) - s.anim.cx.toInt) ^ 2 + ((y : Int) - s.anim.cy.toInt) ^ 2 < 12 ^ 2)) ∧
  (∀ (s : State) (k : Ticker) (data : List Byte), s.seq = .exec (.sendNext k) → s.undisturbed → data.length = 1008 →
    (∀ n < 1008, data[n]? = Memory.read s.frame n) → ∃ t, step s = .next t ∧
      t.seq = .exec (.rangeHeader (.ticker k) 0#16 data) ∧ t.off = 0#16 ∧ t.work.total = 1008#16 ∧ t.tx = s.tx ∧
      t.anim = s.anim ∧ t.status = s.status ∧ t.result = s.result) ∧
  (∀ (s : State) (k : Ticker), s.seq = .exec (.advance k) → s.undisturbed → ∃ t, step s = .next t ∧
    t = { s with seq := .exec (.reverse k), anim := t.anim } ∧ t.anim.dx = s.anim.dx ∧ t.anim.dy = s.anim.dy ∧
    (-32768 ≤ s.anim.cx.toInt + s.anim.dx.value → s.anim.cx.toInt + s.anim.dx.value ≤ 32767 →
      t.anim.cx.toInt = s.anim.cx.toInt + s.anim.dx.value) ∧
    (-32768 ≤ s.anim.cy.toInt + s.anim.dy.value → s.anim.cy.toInt + s.anim.dy.value ≤ 32767 →
      t.anim.cy.toInt = s.anim.cy.toInt + s.anim.dy.value)) ∧
  (∀ (s : State) (k : Ticker), s.seq = .exec (.reverse k) → s.undisturbed → ∃ t, step s = .next t ∧
    t.anim.cx = s.anim.cx ∧ t.anim.cy = s.anim.cy ∧
    t.anim.dx = (if 132 ≤ s.anim.cx.toInt then .neg else if s.anim.cx.toInt ≤ 12 then .pos else s.anim.dx) ∧
    t.anim.dy = (if 114 ≤ s.anim.cy.toInt then .neg else if s.anim.cy.toInt ≤ 12 then .pos else s.anim.dy) ∧
    t.result = 0#8 ∧ t.status = s.status ∧ t.tx = s.tx ∧ t.off = s.off ∧
    (k = .tick → t.seq = .idle) ∧ (k = .run → t.seq = .exec (.issued .run))) ∧
  (∀ (s t : State) (j j' : Job) (m n : Nat), s.seq = .exec j → s.undisturbed → step s = .next t → t.seq = .exec j' →
    j.tickStep = some m → j'.tickStep = some n → m ≤ n ∧ n ≤ m + 1 ∨ m = 4 ∧ n = 1 ∧ j' = .issued .run)

/-! ### Canvas -/

/-- 40_canvas R68: every pixel false, CANVAS_VALID, RESULT 0, from any state; and its example, the encoded blank canvas. -/
def Obligations.CanvasNewBlanks : Prop :=
  ∀ s : State, ∃ t, exec .canvasNew s = .next t ∧
    (∀ x y, x < 144 → y < 126 → Canvas.pixel t.canvas x y = false) ∧
    t.status = { s.status with canvasValid := true } ∧ t.result = 0#8 ∧ t.seq = .idle ∧
    ∃ u, exec .encode t = .next u ∧ ∀ k < 1008, Memory.read u.frame k = some 0x00#8

/-- 40_canvas R69: one pixel written; the preconditions; its example. -/
def Obligations.SetPixelWrites : Prop :=
  (∀ (s : State) (x y : Half) (v : Bool), s.status.canvasValid = true → x.toNat < 144 → y.toNat < 126 →
    ∃ t, exec (.setPixel x y v) s = .next t ∧ Canvas.pixel t.canvas x.toNat y.toNat = v ∧
      (∀ x' y', x' < 144 → y' < 126 → (x', y') ≠ (x.toNat, y.toNat) →
        Canvas.pixel t.canvas x' y' = Canvas.pixel s.canvas x' y') ∧
      t.status = s.status ∧ t.result = 0#8 ∧ t.seq = .idle) ∧
  (∀ (s : State) (x y : Half) (v : Bool), s.status.canvasValid = false →
    exec (.setPixel x y v) s = .refused .canvasNotValid) ∧
  (∀ (s : State) (x y : Half) (v : Bool), s.status.canvasValid = true → (144 ≤ x.toNat ∨ 126 ≤ y.toNat) →
    exec (.setPixel x y v) s = .refused .outsideGrid) ∧
  (∀ s : State, ∃ t u w, exec .canvasNew s = .next t ∧ exec (.setPixel 3#16 1#16 true) t = .next u ∧
    exec .encode u = .next w ∧ Memory.read w.frame 0 = some 0x10#8 ∧
    ∀ k, 0 < k → k < 1008 → Memory.read w.frame k = some 0x00#8)

/-- 40_canvas R70, R71: the disk, by exact integers; no pixel is cleared; the precondition; the example of 9 pixels. -/
def Obligations.DrawCircleSetsTheDisk : Prop :=
  (∀ (s : State) (cx cy d : Half), s.status.canvasValid = true → ∃ t, exec (.drawCircle cx cy d) s = .next t ∧
    (∀ x y : Nat, x < 144 → y < 126 → (Canvas.pixel t.canvas x y = true ↔ Canvas.pixel s.canvas x y = true ∨
      ((x : Int) - cx.toInt) ^ 2 + ((y : Int) - cy.toInt) ^ 2 < d.toInt ^ 2)) ∧
    t.status = s.status ∧ t.result = 0#8 ∧ t.seq = .idle) ∧
  (∀ (s : State) (cx cy d : Half), s.status.canvasValid = false →
    exec (.drawCircle cx cy d) s = .refused .canvasNotValid) ∧
  (∀ s : State, ∃ t u, exec .canvasNew s = .next t ∧ exec (.drawCircle 4#16 1#16 2#16) t = .next u ∧
    ∀ x y, x < 144 → y < 126 → (Canvas.pixel u.canvas x y = true ↔ 3 ≤ x ∧ x ≤ 5 ∧ y ≤ 2))

/-- 40_canvas R72, in part the spec's own inference ("[derived: from rule R70]"): the iff law and that no pixel is cleared; an identical call adds nothing; the sign of `d` is immaterial;
`d = 0` sets no pixel; `d = 1` the centre alone; a centre outside the grid. -/
def Obligations.DrawCircleLaws : Prop :=
  (∀ (s t : State) (cx cy d : Half), exec (.drawCircle cx cy d) s = .next t →
    (∀ x y : Nat, x < 144 → y < 126 → (Canvas.pixel t.canvas x y = true ↔ Canvas.pixel s.canvas x y = true ∨
      ((x : Int) - cx.toInt) ^ 2 + ((y : Int) - cy.toInt) ^ 2 < d.toInt ^ 2))) ∧
  (∀ (s t u : State) (cx cy d : Half), exec (.drawCircle cx cy d) s = .next t → exec (.drawCircle cx cy d) t = .next u →
    ∀ x y, x < 144 → y < 126 → Canvas.pixel u.canvas x y = Canvas.pixel t.canvas x y) ∧
  (∀ (s t u : State) (cx cy d : Half), exec (.drawCircle cx cy d) s = .next t →
    exec (.drawCircle cx cy (-d)) s = .next u →
    ∀ x y, x < 144 → y < 126 → Canvas.pixel u.canvas x y = Canvas.pixel t.canvas x y) ∧
  (∀ (s t : State) (cx cy : Half), exec (.drawCircle cx cy 0#16) s = .next t →
    ∀ x y, x < 144 → y < 126 → Canvas.pixel t.canvas x y = Canvas.pixel s.canvas x y) ∧
  (∀ (s t : State) (cx cy : Half), exec (.drawCircle cx cy 1#16) s = .next t →
    ∀ x y : Nat, x < 144 → y < 126 → (Canvas.pixel t.canvas x y = true ↔
      Canvas.pixel s.canvas x y = true ∨ ((x : Int) = cx.toInt ∧ (y : Int) = cy.toInt))) ∧
  (∀ s : State, ∃ t u, exec .canvasNew s = .next t ∧ exec (.drawCircle (-1#16) (-1#16) 3#16) t = .next u ∧
    ∀ x y, x < 144 → y < 126 → (Canvas.pixel u.canvas x y = true ↔ x ≤ 1 ∧ y ≤ 1))

/-- 40_canvas R67, 43_animation R99: CANVAS_NEW, SET_PIXEL, DRAW_CIRCLE and ANIM_INIT end with RESULT 0, do not touch the
channel, and leave everything but what they write, RESULT and SEQ. That the working registers and OFF stay is the model's
choice (logs 6 and 22), and so is that the register under ERRINFO stays, which has no value with RESULT 0 (log 5). -/
def Obligations.CanvasAndAnimInitFrame : Prop :=
  ∀ (i : Instr) (s t : State), (i = .canvasNew ∨ (∃ x y v, i = .setPixel x y v) ∨ (∃ cx cy d, i = .drawCircle cx cy d) ∨
      i = .animInit) → exec i s = .next t →
    t.result = 0#8 ∧ t.seq = .idle ∧
    (i = .animInit → (∀ x y, Canvas.pixel t.canvas x y = Canvas.pixel s.canvas x y) ∧
      t.status.canvasValid = s.status.canvasValid) ∧
    (i ≠ .animInit → t.anim = s.anim ∧ t.status.animValid = s.status.animValid) ∧
    (∀ k, Memory.read t.frame k = Memory.read s.frame k) ∧ (∀ a, Memory.read t.dev a = Memory.read s.dev a) ∧
    t.devSynced = s.devSynced ∧ t.work = s.work ∧ t.off = s.off ∧ t.errinfo = s.errinfo ∧
    t.status.terr = s.status.terr ∧ t.status.frameValid = s.status.frameValid ∧ t.tx = s.tx ∧ t.hostMoves = s.hostMoves ∧ t.events = s.events ∧
    t.writes = s.writes ∧ t.draws = s.draws

/-! ### Encoder -/

/-- 41_encoder R74, R75; 20_memory R35, R37, R38: every byte of FRAME, bit by bit; FRAME_VALID; CANVAS not
written; the precondition. -/
def Obligations.EncodePacksPixels : Prop :=
  (∀ s : State, s.status.canvasValid = true → ∃ t, exec .encode s = .next t ∧
    (∀ j i k, j < 63 → i < 16 → k < 8 → ∃ b, Memory.read t.frame (16 * j + i) = some b ∧
      b.getLsbD (7 - k) = Canvas.pixel s.canvas (9 * i + k) (2 * j + 1)) ∧
    (∀ k, 1008 ≤ k → Memory.read t.frame k = none) ∧
    (∀ x y, Canvas.pixel t.canvas x y = Canvas.pixel s.canvas x y) ∧
    t.status = { s.status with frameValid := true } ∧ t.result = 0#8 ∧ t.seq = .idle) ∧
  (∀ s : State, s.status.canvasValid = false → exec .encode s = .refused .canvasNotValid)

/-- 20_memory R40, the spec's own inference ("[derived: from rules R34, R35, R37]"): a represented pixel is bit `7 - (x mod 9)` of its byte, and every bit of every frame byte is the bit of
exactly one represented pixel. -/
def Obligations.RepresentedPixelHasItsBit : Prop :=
  (∀ (s t : State) (x y : Nat), exec .encode s = .next t → represented x y →
    ∃ b, Memory.read t.frame (16 * ((y - 1) / 2) + x / 9) = some b ∧
      b.getLsbD (7 - x % 9) = Canvas.pixel s.canvas x y) ∧
  (∀ k m : Nat, k < 1008 → m < 8 →
    ∃! p : Nat × Nat, represented p.1 p.2 ∧ 16 * ((p.2 - 1) / 2) + p.1 / 9 = k ∧ 7 - p.1 % 9 = m)

/-- 41_encoder R76: pixels in even rows and ninth columns never change the frame. -/
def Obligations.EncodeIgnoresTheRest : Prop :=
  ∀ s s' t t' : State, (∀ x y, represented x y → Canvas.pixel s.canvas x y = Canvas.pixel s'.canvas x y) →
    exec .encode s = .next t → exec .encode s' = .next t' →
    ∀ k, Memory.read t.frame k = Memory.read t'.frame k

/-- 41_encoder R77: FRAME is a function of CANVAS alone; CANVAS and CANVAS_VALID stay; a second ENCODE gives the same
FRAME. -/
def Obligations.EncodeIsPure : Prop :=
  (∀ s s' t t' : State, s.canvas = s'.canvas → exec .encode s = .next t → exec .encode s' = .next t' →
    ∀ k, Memory.read t.frame k = Memory.read t'.frame k) ∧
  (∀ s : State, s.status.canvasValid = true → ∃ t u, exec .encode s = .next t ∧ exec .encode t = .next u ∧
    (∀ x y, Canvas.pixel t.canvas x y = Canvas.pixel s.canvas x y) ∧ t.status.canvasValid = true ∧
    ∀ k, Memory.read u.frame k = Memory.read t.frame k)

/-- 41_encoder R74: ENCODE leaves everything but FRAME, FRAME_VALID, J, I, K, ACC, RESULT and SEQ. That the working
registers it does not use and OFF stay is the model's choice (logs 6 and 22), and so is that the register under ERRINFO
stays, which has no value with RESULT 0 (log 5). -/
def Obligations.EncodeFrame : Prop :=
  ∀ s t : State, exec .encode s = .next t →
    (∀ x y, Canvas.pixel t.canvas x y = Canvas.pixel s.canvas x y) ∧
    (∀ a, Memory.read t.dev a = Memory.read s.dev a) ∧ t.devSynced = s.devSynced ∧ t.anim = s.anim ∧
    t.work.addr = s.work.addr ∧ t.work.len = s.work.len ∧ t.work.total = s.work.total ∧ t.work.hdr = s.work.hdr ∧
    t.work.fillv = s.work.fillv ∧ t.off = s.off ∧ t.errinfo = s.errinfo ∧ t.status.terr = s.status.terr ∧
    t.status.canvasValid = s.status.canvasValid ∧ t.status.animValid = s.status.animValid ∧ t.tx = s.tx ∧
    t.hostMoves = s.hostMoves ∧ t.events = s.events ∧ t.writes = s.writes

/-! ### Transport -/

/-- 42_transport R83, 30_encoding R52: both writes accepted. That the register under ERRINFO stays, with RESULT 0, is the
model's choice (log 5). -/
def Obligations.WritePacketSends : Prop :=
  ∀ (s : State) (a : Half) (p : List Byte), 1 ≤ p.length → p.length ≤ 255 → a.toNat + p.length ≤ 1008 → s.allOk 2 →
    ∃ t, exec (.writePacket a p) s = .next t ∧
      t.tx = s.tx ++ [sentOk [0x00#8, 0x20#8, a.extractLsb' 8 8, a.extractLsb' 0 8, BitVec.ofNat 8 p.length], sentOk p] ∧
      t.result = 0#8 ∧ t.seq = .idle ∧ t.status = s.status ∧ t.errinfo = s.errinfo ∧ t.devSynced = s.devSynced ∧
      (s.devSynced = true → ∀ x, Memory.read t.dev x =
        if a.toNat ≤ x ∧ x < a.toNat + p.length then p[x - a.toNat]? else Memory.read s.dev x) ∧
      t.events = s.events.drop 2 ∧ t.writes = s.writes + 2

/-- 42_transport R84 (b), 60_exceptions R110, and R118, the spec's own inference ("[derived: from rule R110 and
`20_memory.md` rule R44]"; log 11): a failed header write, or a failed payload write, ends the packet. That a wire packet
raises as WRITE_PACKET does is log 12. -/
def Obligations.WritePacketFails : Prop :=
  ∀ (s : State) (i : Instr) (a : Half) (p : List Byte) (e : ErrInfo) (n : Nat),
    (i = .writePacket a p ∨ i = .wirePacket a p) → 1 ≤ p.length → p.length ≤ 255 → a.toNat + p.length ≤ 1008 →
    (s.eventAt 0 = .fail e n → ∃ t, exec i s = .next t ∧
      t.tx = s.tx ++ [sentFail (packetHeader a.toNat p.length) e n] ∧ t.result = 1#8 ∧ t.errorValue = some e ∧
      t.status = { s.status with terr := true } ∧ t.seq = .idle ∧ t.devSynced = false ∧
      (s.devSynced = true → ∀ x, Memory.read t.dev x =
        if a.toNat ≤ x ∧ x < a.toNat + p.length then none else Memory.read s.dev x)) ∧
    (s.eventAt 0 = .ok → s.eventAt 1 = .fail e n → ∃ t, exec i s = .next t ∧
      t.tx = s.tx ++ [sentOk (packetHeader a.toNat p.length), sentFail p e n] ∧ t.result = 1#8 ∧
      t.errorValue = some e ∧ t.status = { s.status with terr := true } ∧ t.seq = .idle ∧ t.devSynced = false ∧
      (s.devSynced = true → ∀ x, Memory.read t.dev x =
        if a.toNat ≤ x ∧ x < a.toNat + p.length then none else Memory.read s.dev x))

/-- 42_transport R84 (a), 60_exceptions R109, R111, R113: a payload over 255 bytes, whatever the address, raises
ContractViolation before anything is written; the block then halts, and only RESET leaves HALT. -/
def Obligations.TooLongPayloadHalts : Prop :=
  ∀ (s : State) (a : Half) (p : List Byte), 255 < p.length →
    ∃ t, exec (.writePacket a p) s = .next t ∧ t.result = 2#8 ∧ t.seq = .halt ∧
      t.statusWord.getLsbD 2 = true ∧ t.statusWord.getLsbD 0 = false ∧ t.faulted = true ∧ t.tx = s.tx ∧
      t.writes = s.writes ∧
      ((∀ moves, t.hostMoves ≠ .reset :: moves) → step t = .next { t with hostMoves := t.hostMoves.tail }) ∧
      (∀ moves, t.hostMoves = .reset :: moves → ∃ u, step t = .next u ∧ u.seq = .idle)

/-- 42_transport R82, R85, R86: the refused packets; and R85's other reading, in which a packet outside the frame memory is
sent unchecked. -/
def Obligations.WritePacketRefused : Prop :=
  (∀ (s : State) (a : Half), exec (.writePacket a []) s = .refused .emptyPayload) ∧
  (∀ (s : State) (a : Half) (p : List Byte), 1 ≤ p.length → p.length ≤ 255 → 1008 < a.toNat + p.length →
    exec (.writePacket a p) s = .refused .outOfRange) ∧
  (∀ (s : State) (a : Half) (p : List Byte), exec (.writePacket a p) s = writePacketUnder .refuse a p s) ∧
  (∀ (s : State) (a : Half) (p : List Byte), 1 ≤ p.length → p.length ≤ 255 → s.allOk 2 →
    ∃ t, writePacketUnder .emit a p s = .next t ∧ t.tx = s.tx ++ packetEntries a.toNat p ∧ t.result = 0#8)

/-- 30_encoding R52, R56, R57, R64; 10_state R30: one wire packet, accepted; and the packets the block never emits are
refused (log 12). That RESULT, SEQ and STATUS stay is log 12, that the register under ERRINFO stays log 5. -/
def Obligations.WirePacketIsEmitted : Prop :=
  (∀ (s : State) (a : Half) (p : List Byte), 1 ≤ p.length → p.length ≤ 255 → a.toNat + p.length ≤ 1008 → s.allOk 2 →
    ∃ t, exec (.wirePacket a p) s = .next t ∧ t.tx = s.tx ++ packetEntries a.toNat p ∧ t.result = s.result ∧
      t.errinfo = s.errinfo ∧ t.seq = s.seq ∧ t.status = s.status ∧ t.devSynced = s.devSynced ∧
      (s.devSynced = true → ∀ x, Memory.read t.dev x =
        if a.toNat ≤ x ∧ x < a.toNat + p.length then p[x - a.toNat]? else Memory.read s.dev x)) ∧
  (∀ (s : State) (a : Half), exec (.wirePacket a []) s = .refused .emptyPayload) ∧
  (∀ (s : State) (a : Half) (p : List Byte), 255 < p.length → exec (.wirePacket a p) s = .refused .packetTooLong) ∧
  (∀ (s : State) (a : Half) (p : List Byte), 1 ≤ p.length → p.length ≤ 255 → 1008 < a.toNat + p.length →
    exec (.wirePacket a p) s = .refused .outOfRange)

/-- 42_transport R81, R83, R84: what WRITE_PACKET and WIRE_PACKET leave alone, failed or not, where no RESET comes; and a
payload of more than 255 bytes, which stores nothing, leaves all of DEV and STATUS's storage. That the working registers
they do not use and OFF stay is the model's choice (logs 6 and 22), and so is that the register under ERRINFO stays while
RESULT is not 1 (log 5); that a followed device keeps the bytes outside a packet that failed is R118's inference (log 11). -/
def Obligations.PacketFrame : Prop :=
  ∀ (i : Instr) (s t : State) (a : Half) (p : List Byte), (i = .writePacket a p ∨ i = .wirePacket a p) →
    s.resetFree 2 → exec i s = .next t →
    (∀ x y, Canvas.pixel t.canvas x y = Canvas.pixel s.canvas x y) ∧
    (∀ k, Memory.read t.frame k = Memory.read s.frame k) ∧
    (s.devSynced = true → ∀ x, (x < a.toNat ∨ a.toNat + p.length ≤ x) → Memory.read t.dev x = Memory.read s.dev x) ∧
    t.anim = s.anim ∧ t.off = s.off ∧ t.work.total = s.work.total ∧ t.work.j = s.work.j ∧ t.work.i = s.work.i ∧
    t.work.k = s.work.k ∧ t.work.acc = s.work.acc ∧ t.work.fillv = s.work.fillv ∧
    t.status.canvasValid = s.status.canvasValid ∧ t.status.frameValid = s.status.frameValid ∧
    t.status.animValid = s.status.animValid ∧ (t.result ≠ 1#8 → t.status.terr = s.status.terr ∧ t.errinfo = s.errinfo) ∧
    t.hostMoves = s.hostMoves ∧
    (255 < p.length → (∀ x, Memory.read t.dev x = Memory.read s.dev x) ∧ t.devSynced = s.devSynced ∧
      t.status = s.status ∧ t.work = s.work ∧ t.tx = s.tx)

/-- 42_transport R87, R88, R89, R91: every write accepted; `n = 0` sends nothing. SEND_RANGE is its reading under
RANGE_POLICY `refuse`; under `emit` a range whose addresses and length are 16-bit fields is sent too (log 16). That the
register under ERRINFO stays, with RESULT 0, is the model's choice (log 5). -/
def Obligations.SendRangeSends : Prop :=
  (∀ (s : State) (a : Half) (data : List Byte), a.toNat + data.length ≤ 1008 →
    s.allOk (2 * ((data.length + 254) / 255)) →
    ∃ t, exec (.sendRange a data) s = .next t ∧ t.tx = s.tx ++ rangeEntries a.toNat data ∧
      t.off = BitVec.ofNat 16 data.length ∧ t.result = 0#8 ∧ t.seq = .idle ∧ t.status = s.status ∧
      t.errinfo = s.errinfo ∧ t.devSynced = s.devSynced ∧
      (s.devSynced = true → ∀ x, Memory.read t.dev x =
        if a.toNat ≤ x ∧ x < a.toNat + data.length then data[x - a.toNat]? else Memory.read s.dev x)) ∧
  (∀ (s : State) (a : Half) (data : List Byte), exec (.sendRange a data) s = sendRangeUnder .refuse a data s) ∧
  (∀ (s : State) (a : Half) (data : List Byte), a.toNat + data.length ≤ 65536 → data.length < 65536 →
    s.allOk (2 * ((data.length + 254) / 255)) →
    ∃ t, sendRangeUnder .emit a data s = .next t ∧ t.tx = s.tx ++ rangeEntries a.toNat data ∧
      t.off = BitVec.ofNat 16 data.length ∧ t.result = 0#8 ∧ t.seq = .idle)

/-- 42_transport R89, the spec's own inference ("[derived: from rule R88]"): what a successful range puts on the channel: `P = ceil(n / 255)` packets at `start + 255 * m`, every
one but the last of 255 bytes, `2 * P` transactions, `n + 5 * P` bytes, and together the data. -/
def Obligations.ChunkLaw : Prop :=
  ∀ (s : State) (a : Half) (data : List Byte) (P : Nat), 1 ≤ data.length → P = (data.length + 254) / 255 →
    a.toNat + data.length ≤ 1008 → s.allOk (2 * P) →
    ∃ t new, exec (.sendRange a data) s = .next t ∧ t.tx = s.tx ++ new ∧ new.length = 2 * P ∧
      bytesHanded new = data.length + 5 * P ∧
      (∀ m < P, new[2 * m]? = some (sentOk (packetHeader (a.toNat + 255 * m) (chunkAt data m).length)) ∧
        new[2 * m + 1]? = some (sentOk (chunkAt data m))) ∧
      (∀ m, m + 1 < P → (chunkAt data m).length = 255) ∧
      (chunkAt data (P - 1)).length = data.length - 255 * (P - 1) ∧
      (List.range P).flatMap (chunkAt data) = data

/-- 42_transport R90, 10_state R19, 60_exceptions R110: the write that fails in packet `k` ends the range; OFF holds
`255 * k`. -/
def Obligations.SendRangeStopsAtFailure : Prop :=
  ∀ (s : State) (a : Half) (data : List Byte) (k : Nat) (e : ErrInfo) (n : Nat), a.toNat + data.length ≤ 1008 →
    k < (data.length + 254) / 255 → s.allOk (2 * k) →
    (s.eventAt (2 * k) = .fail e n → ∃ t, exec (.sendRange a data) s = .next t ∧
      t.tx = s.tx ++ firstPackets a.toNat data k ++
        [sentFail (packetHeader (a.toNat + 255 * k) (chunkAt data k).length) e n] ∧
      t.off = BitVec.ofNat 16 (255 * k) ∧ t.result = 1#8 ∧ t.errorValue = some e ∧
      t.status = { s.status with terr := true } ∧ t.seq = .idle) ∧
    (s.eventAt (2 * k) = .ok → s.eventAt (2 * k + 1) = .fail e n → ∃ t, exec (.sendRange a data) s = .next t ∧
      t.tx = s.tx ++ firstPackets a.toNat data k ++
        [sentOk (packetHeader (a.toNat + 255 * k) (chunkAt data k).length), sentFail (chunkAt data k) e n] ∧
      t.off = BitVec.ofNat 16 (255 * k) ∧ t.result = 1#8 ∧ t.errorValue = some e ∧
      t.status = { s.status with terr := true } ∧ t.seq = .idle)

/-- 60_exceptions R118, the spec's own inference ("[derived: from rule R110 and `20_memory.md` rule R44]"; log 11): what a
followed device holds after the range that failed in packet `k`, at its header or at its payload; and that from then on
each step, and each command, that puts anything on the channel, be it an accepted header alone, leaves every byte of the
device unspecified, and it is followed no more. -/
def Obligations.FailedRangeOnTheDevice : Prop :=
  (∀ (s : State) (a : Half) (data : List Byte) (k : Nat) (e : ErrInfo) (n : Nat), a.toNat + data.length ≤ 1008 →
    k < (data.length + 254) / 255 → s.allOk (2 * k) → s.devSynced = true →
    (s.eventAt (2 * k) = .fail e n ∨ s.eventAt (2 * k) = .ok ∧ s.eventAt (2 * k + 1) = .fail e n) →
    ∃ t, exec (.sendRange a data) s = .next t ∧ t.devSynced = false ∧ ∀ x, Memory.read t.dev x =
      if a.toNat ≤ x ∧ x < a.toNat + 255 * k then data[x - a.toNat]?
      else if a.toNat + 255 * k ≤ x ∧ x < a.toNat + 255 * k + (chunkAt data k).length then none
      else Memory.read s.dev x) ∧
  (∀ s t : State, s.devSynced = false → step s = .next t →
    t.devSynced = false ∧ (t.tx ≠ s.tx → ∀ x, Memory.read t.dev x = none)) ∧
  (∀ (i : Instr) (s t : State), s.devSynced = false → exec i s = .next t →
    t.devSynced = false ∧ (t.tx ≠ s.tx → ∀ x, Memory.read t.dev x = none))

/-- 42_transport R87, R91: the one check before any packet: a range outside the frame memory is refused; any other, the
empty one too, goes on whatever the channel does, and never ends in ContractViolation; an empty range in range issues no
packet. -/
def Obligations.SendRangeChecksItsRange : Prop :=
  (∀ (s : State) (a : Half) (data : List Byte),
    (1008 < a.toNat + data.length → exec (.sendRange a data) s = .refused .outOfRange) ∧
    (a.toNat + data.length ≤ 1008 → ∃ t, exec (.sendRange a data) s = .next t ∧ t.result ≠ 2#8 ∧ t.seq = .idle)) ∧
  (∀ (s : State) (a : Half), a.toNat ≤ 1008 → ∃ t, exec (.sendRange a []) s = .next t ∧ t.tx = s.tx ∧
    t.result = 0#8 ∧ t.off = 0#16 ∧ t.events = s.events ∧ t.writes = s.writes)

/-- 42_transport R81, R88, R93, R95: what SEND_RANGE, FILL and SEND_FRAME leave alone, failed or not, where no RESET comes. That
the working registers they do not use stay is the model's choice (log 6), and so is that the register under ERRINFO stays
while RESULT is not 1 (log 5); that a followed device keeps the bytes outside a range that failed is R118's inference
(log 11). -/
def Obligations.RangeFrame : Prop :=
  ∀ (i : Instr) (s t : State) (a : Half) (n : Nat),
    ((∃ data, i = .sendRange a data ∧ n = data.length) ∨ (i = .sendFrame ∨ ∃ v, i = .fill v) ∧ a = 0#16 ∧ n = 1008) →
    s.resetFree (2 * ((n + 254) / 255)) → exec i s = .next t →
    (∀ x y, Canvas.pixel t.canvas x y = Canvas.pixel s.canvas x y) ∧
    (∀ k, Memory.read t.frame k = Memory.read s.frame k) ∧
    (s.devSynced = true → ∀ x, (x < a.toNat ∨ a.toNat + n ≤ x) → Memory.read t.dev x = Memory.read s.dev x) ∧
    t.anim = s.anim ∧ t.work.j = s.work.j ∧ t.work.i = s.work.i ∧ t.work.k = s.work.k ∧ t.work.acc = s.work.acc ∧
    ((∀ v, i ≠ .fill v) → t.work.fillv = s.work.fillv) ∧ t.status.canvasValid = s.status.canvasValid ∧
    t.status.frameValid = s.status.frameValid ∧ t.status.animValid = s.status.animValid ∧
    (t.result ≠ 1#8 → t.status.terr = s.status.terr ∧ t.errinfo = s.errinfo) ∧ t.hostMoves = s.hostMoves

/-- 42_transport R93, 30_encoding R66: FILL is the SEND_RANGE of 1008 copies from FRAME_BASE, whatever the channel does, in
everything but the working registers; with every write accepted, its four packets (95_test_vectors V34). -/
def Obligations.FillSends : Prop :=
  (∀ (s : State) (v : Byte), ∃ t u, exec (.fill v) s = .next t ∧
    exec (.sendRange 0#16 (List.replicate 1008 v)) s = .next u ∧ { t with work := s.work } = { u with work := s.work }) ∧
  (∀ (s : State) (v : Byte), s.allOk 8 → ∃ t, exec (.fill v) s = .next t ∧
    t.tx = s.tx ++
      [sentOk [0x00#8, 0x20#8, 0x00#8, 0x00#8, 0xFF#8], sentOk (List.replicate 255 v),
       sentOk [0x00#8, 0x20#8, 0x00#8, 0xFF#8, 0xFF#8], sentOk (List.replicate 255 v),
       sentOk [0x00#8, 0x20#8, 0x01#8, 0xFE#8, 0xFF#8], sentOk (List.replicate 255 v),
       sentOk [0x00#8, 0x20#8, 0x02#8, 0xFD#8, 0xF3#8], sentOk (List.replicate 243 v)] ∧
    t.off = 1008#16 ∧ t.result = 0#8 ∧ t.seq = .idle ∧ t.status = s.status ∧
    (s.devSynced = true → ∀ x, Memory.read t.dev x = if x < 1008 then some v else Memory.read s.dev x))

/-- 42_transport R95, 30_encoding R66: SEND_FRAME is the SEND_RANGE of FRAME's bytes from FRAME_BASE, whatever the channel
does; with every write accepted, frame byte `k` goes to device address `k`, and FRAME stays; the precondition. -/
def Obligations.SendFrameSends : Prop :=
  (∀ (s : State) (data : List Byte), s.status.frameValid = true → data.length = 1008 →
    (∀ k < 1008, data[k]? = Memory.read s.frame k) → exec .sendFrame s = exec (.sendRange 0#16 data) s) ∧
  (∀ s : State, s.status.frameValid = true → (∀ k < 1008, (Memory.read s.frame k).isSome = true) → s.allOk 8 →
    ∃ t data, exec .sendFrame s = .next t ∧ data.length = 1008 ∧ (∀ k < 1008, data[k]? = Memory.read s.frame k) ∧
      t.tx = s.tx ++ rangeEntries 0 data ∧ t.off = 1008#16 ∧ t.result = 0#8 ∧ t.seq = .idle ∧ t.status = s.status ∧
      (∀ k, Memory.read t.frame k = Memory.read s.frame k) ∧
      (s.devSynced = true → ∀ k < 1008, Memory.read t.dev k = Memory.read s.frame k)) ∧
  (∀ s : State, s.status.frameValid = false → exec .sendFrame s = .refused .frameNotValid)

/-! ### Animation -/

/-- 43_animation R99: from any state. What it leaves alone is in `CanvasAndAnimInitFrame`. -/
def Obligations.AnimInitInstalls : Prop :=
  ∀ s : State, ∃ t, exec .animInit s = .next t ∧ t.anim.cx.toInt = 72 ∧ t.anim.cy.toInt = 63 ∧ t.anim.dx = .pos ∧
    t.anim.dy = .pos ∧ t.status = { s.status with animValid := true } ∧ t.result = 0#8 ∧ t.seq = .idle

/-- 43_animation R100: the picture, its frame, the eight writes and the advance, where every write is accepted. -/
def Obligations.TickSendsItsDisk : Prop :=
  ∀ s : State, s.status.animValid = true → s.allOk 8 → ∃ t data, exec .tick s = .next t ∧
    (∀ x y : Nat, x < 144 → y < 126 → (Canvas.pixel t.canvas x y = true ↔
      ((x : Int) - s.anim.cx.toInt) ^ 2 + ((y : Int) - s.anim.cy.toInt) ^ 2 < 12 ^ 2)) ∧
    (∀ j i k, j < 63 → i < 16 → k < 8 → ∃ b, Memory.read t.frame (16 * j + i) = some b ∧
      b.getLsbD (7 - k) = Canvas.pixel t.canvas (9 * i + k) (2 * j + 1)) ∧
    data.length = 1008 ∧ (∀ k < 1008, data[k]? = Memory.read t.frame k) ∧ t.tx = s.tx ++ rangeEntries 0 data ∧
    (s.devSynced = true → ∀ k < 1008, Memory.read t.dev k = Memory.read t.frame k) ∧
    t.anim = s.anim.advance ∧ t.off = 1008#16 ∧ t.result = 0#8 ∧ t.seq = .idle ∧
    t.status = { s.status with canvasValid := true, frameValid := true }

/-- 43_animation R100, 20_memory R40: end to end, a device that has followed the packets shows the disk of the tick in
every represented pixel. -/
def Obligations.TickShowsTheDiskOnTheDevice : Prop :=
  ∀ s : State, s.status.animValid = true → s.devSynced = true → s.allOk 8 → ∃ t, exec .tick s = .next t ∧
    ∀ x y : Nat, represented x y → ∃ b, Memory.read t.dev (16 * ((y - 1) / 2) + x / 9) = some b ∧
      (b.getLsbD (7 - x % 9) = true ↔
        ((x : Int) - s.anim.cx.toInt) ^ 2 + ((y : Int) - s.anim.cy.toInt) ^ 2 < 12 ^ 2)

/-- 43_animation R100 step 3, R101: each axis advances by its velocity, where the sum fits s16, and the reversal tests
the advanced position, the upper test first, on each axis alone. -/
def Obligations.AdvanceAndReverse : Prop :=
  (∀ a : Anim, a.advance.dx = (if 132 ≤ a.advance.cx.toInt then .neg else if a.advance.cx.toInt ≤ 12 then .pos else a.dx) ∧
    a.advance.dy = (if 114 ≤ a.advance.cy.toInt then .neg else if a.advance.cy.toInt ≤ 12 then .pos else a.dy)) ∧
  (∀ a : Anim, -32768 ≤ a.cx.toInt + a.dx.value → a.cx.toInt + a.dx.value ≤ 32767 →
    a.advance.cx.toInt = a.cx.toInt + a.dx.value) ∧
  (∀ a : Anim, -32768 ≤ a.cy.toInt + a.dy.value → a.cy.toInt + a.dy.value ≤ 32767 →
    a.advance.cy.toInt = a.cy.toInt + a.dy.value)

/-- 43_animation R102, 60_exceptions R110: a tick whose `n`-th write fails: ANIM is not advanced, CANVAS and FRAME hold
the picture and its encoding, OFF the failed chunk's offset. -/
def Obligations.FailedTickDoesNotAdvance : Prop :=
  ∀ (s : State) (n : Nat) (e : ErrInfo) (d : Nat), s.status.animValid = true → n < 8 → s.allOk n →
    s.eventAt n = .fail e d → ∃ t, exec .tick s = .next t ∧ t.anim = s.anim ∧ t.result = 1#8 ∧
      t.errorValue = some e ∧ t.seq = .idle ∧ t.off = BitVec.ofNat 16 (255 * (n / 2)) ∧
      t.tx.length = s.tx.length + n + 1 ∧
      t.status = { s.status with terr := true, canvasValid := true, frameValid := true } ∧
      (∀ x y : Nat, x < 144 → y < 126 → (Canvas.pixel t.canvas x y = true ↔
        ((x : Int) - s.anim.cx.toInt) ^ 2 + ((y : Int) - s.anim.cy.toInt) ^ 2 < 12 ^ 2)) ∧
      (∀ j i k, j < 63 → i < 16 → k < 8 → ∃ b, Memory.read t.frame (16 * j + i) = some b ∧
        b.getLsbD (7 - k) = Canvas.pixel t.canvas (9 * i + k) (2 * j + 1))

/-- 10_state R27: RESET leaves the three valid bits 0, the command that writes a group in full sets its bit, and a command
that would read CANVAS, FRAME or ANIM while its valid bit is 0 is refused. -/
def Obligations.ValidBitsGuardReads : Prop :=
  ∀ s : State,
    (∀ moves, s.hostMoves = .reset :: moves → ∃ t, step s = .next t ∧ t.status.canvasValid = false ∧
      t.status.frameValid = false ∧ t.status.animValid = false) ∧
    (∃ t, exec .canvasNew s = .next t ∧ t.status.canvasValid = true) ∧
    (s.status.canvasValid = true → ∃ t, exec .encode s = .next t ∧ t.status.frameValid = true ∧
      ∀ k < 1008, (Memory.read t.frame k).isSome = true) ∧
    (∃ t, exec .animInit s = .next t ∧ t.status.animValid = true) ∧
    (s.status.canvasValid = false → (∀ x y v, exec (.setPixel x y v) s = .refused .canvasNotValid) ∧
      (∀ cx cy d, exec (.drawCircle cx cy d) s = .refused .canvasNotValid) ∧
      exec .encode s = .refused .canvasNotValid) ∧
    (s.status.frameValid = false → exec .sendFrame s = .refused .frameNotValid) ∧
    (s.status.animValid = false → exec .tick s = .refused .animNotValid ∧ exec .run s = .refused .animNotValid)

/-- 43_animation R100: what TICK and a turn of RUN leave alone, failed or not, where no RESET comes. That FILLV stays is the
model's choice (log 6), and so is that the register under ERRINFO stays while RESULT is not 1 (log 5). -/
def Obligations.TickFrame : Prop :=
  ∀ (i : Instr) (s t : State), (i = .tick ∨ i = .run) → s.resetFree 8 → exec i s = .next t →
    (s.devSynced = true → ∀ x, 1008 ≤ x → Memory.read t.dev x = Memory.read s.dev x) ∧
    t.work.fillv = s.work.fillv ∧ t.status.animValid = s.status.animValid ∧
    (t.result ≠ 1#8 → t.status.terr = s.status.terr ∧ t.errinfo = s.errinfo) ∧ t.hostMoves = s.hostMoves

/-- 30_encoding R66, 43_animation R100: TICK is CANVAS_NEW, DRAW_CIRCLE, ENCODE, SEND_FRAME and, where that ended OK, the
advance, whatever the channel does short of RESET, in everything but the working registers. -/
def Obligations.TickIsItsExpansion : Prop :=
  ∀ s : State, s.status.animValid = true → s.resetFree 8 → ∃ t u v w x, exec .tick s = .next t ∧
    exec .canvasNew s = .next u ∧ exec (.drawCircle s.anim.cx s.anim.cy 12#16) u = .next v ∧
    exec .encode v = .next w ∧ exec .sendFrame w = .next x ∧
    { t with work := s.work } =
      { x with work := s.work, anim := if x.result = 0#8 then s.anim.advance else s.anim }

/-- 43_animation R104, R106, 60_exceptions R110: a turn of RUN is a TICK; RUN goes on exactly when the tick ended OK, so it
never ends with RESULT 0 (log 20); and a turn whose `n`-th write fails ends the run. -/
def Obligations.RunTurn : Prop :=
  (∀ s : State, s.status.animValid = true → s.resetFree 8 → ∃ t, exec .tick s = .next t ∧
    (t.result = 0#8 → exec .run s = .next { t with seq := .exec (.issued .run) }) ∧
    (t.result ≠ 0#8 → t.result = 1#8 ∧ t.seq = .idle ∧ exec .run s = .next t)) ∧
  (∀ (s : State) (n : Nat) (e : ErrInfo) (d : Nat), s.status.animValid = true → n < 8 → s.allOk n →
    s.eventAt n = .fail e d → ∃ t, exec .run s = .next t ∧ t.runFailed ∧ t.errorValue = some e ∧
      t.statusWord.getLsbD 0 = false ∧ t.statusWord.getLsbD 1 = true ∧ t.anim = s.anim ∧
      t.tx.length = s.tx.length + n + 1)

/-- 43_animation R104, R100: a turn of RUN whose writes are all accepted, and the machine after it. That SEQ is EXEC with
RESULT 0 between two turns is DEDUCED (log 20). -/
def Obligations.RunTurnCompletes : Prop :=
  ∀ s : State, s.status.animValid = true → s.allOk 8 → ∃ t, exec .run s = .next t ∧ t.seq = .exec (.issued .run) ∧
    t.statusWord.getLsbD 0 = true ∧ t.result = 0#8 ∧ t.anim = s.anim.advance ∧ t.off = 1008#16 ∧
    t.tx.length = s.tx.length + 8

/-- 43_animation R103, the spec's own inference ("[derived: from rules R99, R100, R101]"): ANIM_INIT installs the initial ANIM, a tick whose writes are all accepted advances it, and where it
stands at the start of tick `t`: two triangular waves of periods 240 and 204, the whole state again after 4080 ticks. -/
def Obligations.TrajectoryIsTriangular : Prop :=
  (∀ s : State, ∃ t, exec .animInit s = .next t ∧ t.anim = Anim.initial ∧ t.status.animValid = true) ∧
  (∀ s : State, s.status.animValid = true → s.allOk 8 → ∃ t, exec .tick s = .next t ∧ t.anim = s.anim.advance ∧
    t.status.animValid = true) ∧
  (∀ t : Nat, (Anim.advance^[t] Anim.initial).cx.toInt = 132 - |(((t + 60) % 240 : Nat) : Int) - 120| ∧
    (Anim.advance^[t] Anim.initial).dx = (if (t + 60) % 240 < 120 then .pos else .neg) ∧
    (Anim.advance^[t] Anim.initial).cy.toInt = 114 - |(((t + 51) % 204 : Nat) : Int) - 102| ∧
    (Anim.advance^[t] Anim.initial).dy = (if (t + 51) % 204 < 102 then .pos else .neg)) ∧
  (∀ t : Nat, Anim.advance^[t + 4080] Anim.initial = Anim.advance^[t] Anim.initial) ∧
  Anim.advance^[60] Anim.initial = { cx := 132#16, cy := 105#16, dx := .neg, dy := .neg } ∧
  Anim.advance^[153] Anim.initial = { cx := 39#16, cy := 12#16, dx := .neg, dy := .pos }

/-! ### The whole machine -/

/-- The canonical form of CANVAS, FRAME and DEV is kept by every step, wherever in a command it is. -/
def Obligations.StepKeepsMemoryInv : Prop :=
  ∀ s t : State, s.MemoryInv → s.ControlInv → step s = .next t → t.MemoryInv

/-- 10_state R24, R25, R27; 60_exceptions R110 to R112; 41_encoder R74; 42_transport R88: RESULT's codes, HALT, TERR, the valid
frame and the position within the executing command stay coherent, and a step from such a state never faults. -/
def Obligations.StepKeepsControlInv : Prop :=
  (∀ s t : State, s.ControlInv → step s = .next t → t.ControlInv) ∧
  (∀ (s : State) (f : Fault), s.ControlInv → step s ≠ .fault f)

/-- 43_animation R101, R103: the position never leaves `[12, 132] x [12, 114]`. -/
def Obligations.StepKeepsAnimInv : Prop :=
  ∀ s t : State, s.AnimInv → step s = .next t → t.AnimInv

/-- The invariants hold after reset. -/
def Obligations.ResetMeetsInvariants : Prop := State.reset.MemoryInv ∧ State.reset.ControlInv ∧ State.reset.AnimInv

/-- 10_state R29; 20_memory R45, R47; 30_encoding R64, the spec's own inference ("[derived: from rules R53, R54, R56 and
`42_transport.md` rule R85]"); 42_transport R96: a step adds to TX nothing, or one entry: a header the block may emit, at
the position where a header is next, or, where a payload is next, a payload of the length that the last entry, an accepted
header, says. And what a whole command adds is a sequence of packets the block may emit, which a failed write ends; it ends
in an accepted header with no payload only where RESET comes. -/
def Obligations.StepEmitsOnlyPackets : Prop :=
  (∀ s t : State, s.ControlInv → step s = .next t → t.tx = s.tx ∨ ∃ (e : TxEntry) (j : Job), t.tx = s.tx ++ [e] ∧ e.wf ∧
    s.seq = .exec j ∧
    ((j.phase = some .header ∧ isHeader e.bytes = true) ∨
      (j.phase = some .payload ∧ ∃ h, s.tx.getLast? = some h ∧ h.outcome = .ok ∧ isHeader h.bytes = true ∧
        e.bytes.length = (h.bytes.getD 4 0#8).toNat))) ∧
  (∀ (i : Instr) (s t : State), exec i s = .next t → ∃ new, t.tx = s.tx ++ new ∧ isPacketTrace true new = true ∧
    (s.resetFree (mostWrites i) → isPacketTrace false new = true) ∧ ∀ e ∈ new, e.wf)

/-- 10_state R25: TERR is sticky: a step that clears it is RESET, the host's next move or an event among the writes of that
step; and a command that clears it met RESET in its writes. -/
def Obligations.OnlyResetClearsTerr : Prop :=
  (∀ s t : State, s.status.terr = true → step s = .next t → t.status.terr = true ∨
    (∃ moves, s.hostMoves = .reset :: moves) ∨ ∃ k < t.writes - s.writes, isResetEvent (s.eventAt k) = true) ∧
  (∀ (i : Instr) (s t : State), s.status.terr = true → exec i s = .next t → t.status.terr = true ∨
    ∃ k < mostWrites i, isResetEvent (s.eventAt k) = true)

/-- 60_exceptions R109: ContractViolation is raised by WRITE_PACKET alone, when it has more than 255 bytes, and records
nothing beyond the code. -/
def Obligations.OnlyLongPacketsHalt : Prop :=
  (∀ (i : Instr) (s t : State), s.seq ≠ .halt → exec i s = .next t → t.seq = .halt →
    ∃ a p, i = .writePacket a p ∧ 255 < p.length) ∧
  (∀ (s : State) (a : Half) (p : List Byte), 255 < p.length → ∃ t, exec (.writePacket a p) s = .next t ∧
    t.seq = .halt ∧ t.result = 2#8 ∧ t.errorValue = none)

/-- 10_state R14 to R16: who writes CANVAS, FRAME and ANIM, where no RESET comes. -/
def Obligations.WhoWritesWhat : Prop :=
  ∀ (i : Instr) (s t : State), s.resetFree (mostWrites i) → exec i s = .next t →
    (t.canvas ≠ s.canvas → i = .canvasNew ∨ (∃ x y v, i = .setPixel x y v) ∨ (∃ cx cy d, i = .drawCircle cx cy d) ∨
      i = .tick ∨ i = .run) ∧
    (t.frame ≠ s.frame → i = .encode ∨ i = .tick ∨ i = .run) ∧
    (t.anim ≠ s.anim → i = .animInit ∨ i = .tick ∨ i = .run)

/-- 42_transport R96, 40_canvas R67: only a transport command touches the channel. -/
def Obligations.OnlyTransportUsesTheChannel : Prop :=
  ∀ (i : Instr) (s t : State), mostWrites i = 0 → exec i s = .next t →
    t.tx = s.tx ∧ t.events = s.events ∧ t.writes = s.writes ∧ (∀ x, Memory.read t.dev x = Memory.read s.dev x)
end

