-- ==== Sys2Proof/Laws/Memory.lean ====
section
/-! SUPPORT. Laws of the byte memories: what a read gives after each operation, and that each keeps the canonical
form. -/

namespace Sys2Proof.Machine

@[simp] theorem Memory.read_nil (a : Nat) : Memory.read [] a = none := rfl

theorem Memory.read_cons (c : Host.Cell) (m : Memory) (a : Nat) :
    Memory.read (c :: m) a = if a = c.1 then some c.2 else Memory.read m a := rfl

/-- A read after a write gives the byte written at its address and the old byte elsewhere. -/
theorem Memory.read_write (m : Memory) (a : Nat) (b : Byte) (x : Nat) :
    Memory.read (Memory.write m a b) x = if x = a then some b else Memory.read m x := by
  induction m with
  | nil => simp [Memory.write, Memory.read_cons]
  | cons c m ih =>
    simp only [Memory.write]
    by_cases h1 : a < c.1
    · simp only [h1, if_true, Memory.read_cons]
    · by_cases h2 : a = c.1
      · simp only [h2, if_false, if_true, lt_irrefl, Memory.read_cons]
        split_ifs <;> rfl
      · simp only [h1, h2, if_false, Memory.read_cons, ih]
        split_ifs <;> first | rfl | (exfalso; omega)

/-- A read after writing bytes from `a` gives the byte at its place, and the old byte outside. -/
theorem Memory.read_writeRange (bs : List Byte) (m : Memory) (a x : Nat) :
    Memory.read (Memory.writeRange m a bs) x =
      if a ≤ x ∧ x < a + bs.length then bs[x - a]? else Memory.read m x := by
  induction bs generalizing m a with
  | nil =>
    have h : ¬ (a ≤ x ∧ x < a + ([] : List Byte).length) := by simp
    rw [if_neg h, Memory.writeRange]
  | cons b bs ih =>
    simp only [Memory.writeRange, ih, Memory.read_write, List.length_cons]
    by_cases hx : x = a
    · simp [hx]
    · by_cases hr : a + 1 ≤ x ∧ x < a + 1 + bs.length
      · have h' : a ≤ x ∧ x < a + (bs.length + 1) := by omega
        have hs : x - a = (x - (a + 1)) + 1 := by omega
        rw [if_pos hr, if_pos h', hs, List.getElem?_cons_succ]
      · have h' : ¬ (a ≤ x ∧ x < a + (bs.length + 1)) := by omega
        rw [if_neg hr, if_neg h', if_neg hx]

/-- A read after forgetting `n` bytes from `a`. -/
theorem Memory.read_forget (m : Memory) (a n x : Nat) :
    Memory.read (Memory.forget m a n) x = if a ≤ x ∧ x < a + n then none else Memory.read m x := by
  induction m with
  | nil => simp [Memory.forget]
  | cons c m ih =>
    unfold Memory.forget at ih ⊢
    rw [List.filter_cons]
    by_cases hc : a ≤ c.1 ∧ c.1 < a + n
    · rw [if_neg (by simpa using hc), ih, Memory.read_cons]
      by_cases hx : x = c.1
      · rw [if_pos (hx ▸ hc), if_pos (hx ▸ hc)]
      · rw [if_neg hx]
    · rw [if_pos (decide_eq_true hc), Memory.read_cons, Memory.read_cons, ih]
      by_cases hx : x = c.1
      · rw [if_pos hx, if_neg (hx ▸ hc), if_pos hx]
      · rw [if_neg hx, if_neg hx]

theorem Memory.read_map_range' (f : Nat → Byte) (n s k : Nat) :
    Memory.read ((List.range' s n).map fun k => (k, f k)) k = if s ≤ k ∧ k < s + n then some (f k) else none := by
  induction n generalizing s with
  | zero =>
    have h : ¬ (s ≤ k ∧ k < s + 0) := by omega
    rw [if_neg h]; rfl
  | succ n ih =>
    rw [List.range'_succ, List.map_cons, Memory.read_cons, ih]
    by_cases hk : k = s
    · have h : s ≤ k ∧ k < s + (n + 1) := by omega
      simp [hk]
    · by_cases h : s + 1 ≤ k ∧ k < s + 1 + n
      · have h' : s ≤ k ∧ k < s + (n + 1) := by omega
        simp [hk, h, h']
      · have h' : ¬ (s ≤ k ∧ k < s + (n + 1)) := by omega
        simp only [hk, if_false, h, h']

/-- A read of the memory that holds `f`. -/
theorem Memory.read_tabulate (n : Nat) (f : Nat → Byte) (k : Nat) :
    Memory.read (Memory.tabulate n f) k = if k < n then some (f k) else none := by
  unfold Memory.tabulate
  rw [List.range_eq_range', Memory.read_map_range']
  simp

/-- `readRange` gives bytes exactly when every address of the range is listed. -/
theorem Memory.readRange_eq_some (m : Memory) (n a : Nat) (bs : List Byte) :
    Memory.readRange m a n = some bs ↔ bs.length = n ∧ ∀ k < n, Memory.read m (a + k) = bs[k]? := by
  induction n generalizing a bs with
  | zero =>
    simp only [Memory.readRange, Option.some.injEq, Nat.not_lt_zero, false_imp_iff, implies_true, and_true,
      List.length_eq_zero_iff]
    exact eq_comm
  | succ n ih =>
    rw [Memory.readRange]
    constructor
    · intro h
      split at h
      · rename_i b bs' hb hbs
        obtain rfl : b :: bs' = bs := by simpa using h
        obtain ⟨hl, hr⟩ := (ih _ _).1 hbs
        refine ⟨by simp [hl], fun k hk => ?_⟩
        cases k with
        | zero => simpa using hb
        | succ k => simpa [Nat.add_assoc, Nat.add_comm 1 k] using hr k (by omega)
      · cases h
    · rintro ⟨hl, hr⟩
      cases bs with
      | nil => simp at hl
      | cons b bs' =>
        have h0 : Memory.read m a = some b := by simpa using hr 0 (by omega)
        have h1 : Memory.readRange m (a + 1) n = some bs' := by
          refine (ih _ _).2 ⟨by simpa using hl, fun k hk => ?_⟩
          simpa [Nat.add_assoc, Nat.add_comm 1 k] using hr (k + 1) (by omega)
        rw [h0, h1]

/-! ### The canonical form -/

theorem Memory.mem_write {m : Memory} {a : Nat} {b : Byte} {c : Host.Cell} (h : c ∈ Memory.write m a b) :
    c = (a, b) ∨ c ∈ m := by
  induction m with
  | nil => simpa [Memory.write] using h
  | cons d m ih =>
    simp only [Memory.write] at h
    split_ifs at h with h1 h2
    · simpa using h
    · rcases List.mem_cons.1 h with rfl | h
      · exact .inl rfl
      · exact .inr (List.mem_cons_of_mem _ h)
    · rcases List.mem_cons.1 h with rfl | h
      · exact .inr List.mem_cons_self
      · exact (ih h).imp id (List.mem_cons_of_mem _)

/-- Writing inside the bound keeps the canonical form. -/
theorem Memory.wf_write {bound : Nat} {m : Memory} (h : Memory.wf bound m) {a : Nat} (ha : a < bound) (b : Byte) :
    Memory.wf bound (Memory.write m a b) := by
  refine ⟨?_, fun c hc => ?_⟩
  · have hp := h.1
    clear h
    induction m with
    | nil => simp [Memory.write]
    | cons d m ih =>
      obtain ⟨hd, hm⟩ := List.pairwise_cons.1 hp
      simp only [Memory.write]
      split_ifs with h1 h2
      · refine List.pairwise_cons.2 ⟨fun c hc => ?_, hp⟩
        rcases List.mem_cons.1 hc with rfl | hc
        · exact h1
        · exact h1.trans (hd _ hc)
      · exact List.pairwise_cons.2 ⟨fun c hc => h2 ▸ hd c hc, hm⟩
      · refine List.pairwise_cons.2 ⟨fun c hc => ?_, ih hm⟩
        rcases Memory.mem_write hc with rfl | hc
        · exact lt_of_le_of_ne (not_lt.1 h1) (Ne.symm h2)
        · exact hd c hc
  · rcases Memory.mem_write hc with rfl | hc
    · exact ha
    · exact h.2 c hc

/-- Writing a range inside the bound keeps the canonical form. -/
theorem Memory.wf_writeRange {bound : Nat} {m : Memory} (h : Memory.wf bound m) {a : Nat} {bs : List Byte}
    (ha : a + bs.length ≤ bound) : Memory.wf bound (Memory.writeRange m a bs) := by
  induction bs generalizing m a with
  | nil => exact h
  | cons b bs ih =>
    simp only [List.length_cons] at ha
    exact ih (Memory.wf_write h (by omega) b) (by omega)

/-- Forgetting keeps the canonical form. -/
theorem Memory.wf_forget {bound : Nat} {m : Memory} (h : Memory.wf bound m) (a n : Nat) :
    Memory.wf bound (Memory.forget m a n) :=
  ⟨h.1.filter _, fun c hc => h.2 c (List.mem_filter.1 hc).1⟩

/-- A tabulated memory has the canonical form. -/
theorem Memory.wf_tabulate (n : Nat) (f : Nat → Byte) : Memory.wf n (Memory.tabulate n f) := by
  refine ⟨?_, fun c hc => ?_⟩
  · exact List.pairwise_map.2 List.pairwise_lt_range
  · obtain ⟨k, hk, rfl⟩ := List.mem_map.1 hc
    exact List.mem_range.1 hk

theorem Memory.wf_nil (bound : Nat) : Memory.wf bound [] := ⟨List.Pairwise.nil, by simp⟩

/-- Memories in canonical form that read the same everywhere are the same data. -/
theorem Memory.eq_of_read {m m' : Memory} (h : m.Pairwise fun c d => c.1 < d.1) (h' : m'.Pairwise fun c d => c.1 < d.1)
    (hr : ∀ a, Memory.read m a = Memory.read m' a) : m = m' := by
  have below : ∀ {n : Memory} {a : Nat}, (∀ c ∈ n, a < c.1) → Memory.read n a = none := by
    intro n a hn
    induction n with
    | nil => rfl
    | cons c n ih =>
      rw [Memory.read_cons, if_neg (Nat.ne_of_lt (hn c (by simp))), ih fun d hd => hn d (by simp [hd])]
  induction m generalizing m' with
  | nil =>
    cases m' with
    | nil => rfl
    | cons c m' => have := hr c.1; simp [Memory.read_cons] at this
  | cons c m ih =>
    obtain ⟨hc, hm⟩ := List.pairwise_cons.1 h
    cases m' with
    | nil => have := hr c.1; simp [Memory.read_cons] at this
    | cons d m' =>
      obtain ⟨hd, hm'⟩ := List.pairwise_cons.1 h'
      have hcd : c.1 = d.1 := by
        have h1 := hr c.1
        have h2 := hr d.1
        rw [Memory.read_cons, if_pos rfl, Memory.read_cons] at h1
        rw [Memory.read_cons, Memory.read_cons, if_pos rfl] at h2
        by_contra hne
        rw [if_neg hne] at h1
        rw [if_neg (Ne.symm hne)] at h2
        rcases Nat.lt_or_gt_of_ne hne with hlt | hlt
        · rw [below fun e he => hlt.trans (hd e he)] at h1
          cases h1
        · rw [below fun e he => hlt.trans (hc e he)] at h2
          cases h2
      have hv : c.2 = d.2 := by
        have h1 := hr c.1
        rw [Memory.read_cons, if_pos rfl, Memory.read_cons, if_pos hcd] at h1
        exact Option.some.inj h1
      have he : c = d := Prod.ext hcd hv
      subst he
      congr 1
      refine ih hm hm' fun a => ?_
      by_cases ha : a = c.1
      · rw [ha, below hc, below hd]
      · have h1 := hr a
        rwa [Memory.read_cons, if_neg ha, Memory.read_cons, if_neg ha] at h1

end Sys2Proof.Machine
end

