-- ==== Sys2Proof/Laws/Canvas.lean ====
section
/-! SUPPORT. Laws of the canvas: what each operation does to a pixel, that each keeps the canonical form, and the
packed byte bit by bit. -/

namespace Sys2Proof.Machine

theorem Canvas.mem_insert (c : Canvas) (k x : Nat) : x ∈ Canvas.insert c k ↔ x = k ∨ x ∈ c := by
  induction c with
  | nil => simp [Canvas.insert]
  | cons h c ih =>
    simp only [Canvas.insert]
    split_ifs with h1 h2
    · simp
    · subst h2; simp
    · simp only [List.mem_cons, ih]
      tauto

/-- Different grid columns and rows have different indices. -/
theorem pixelIndex_inj {x y x' y' : Nat} (hx : x < Config.width) (hx' : x' < Config.width) :
    pixelIndex x y = pixelIndex x' y' ↔ x = x' ∧ y = y' := by
  unfold pixelIndex
  simp only [Config.width] at *
  omega

theorem pixelIndex_lt {x y : Nat} (hx : x < Config.width) (hy : y < Config.height) :
    pixelIndex x y < Config.width * Config.height := by
  unfold pixelIndex
  simp only [Config.width, Config.height] at *
  omega

/-- A pixel after a pixel write (40_canvas R69). -/
theorem Canvas.pixel_write (c : Canvas) (x y : Nat) (p : Bool) (x' y' : Nat) :
    (c.write x y p).pixel x' y' = if pixelIndex x' y' = pixelIndex x y then p else c.pixel x' y' := by
  cases p
  · by_cases h : pixelIndex x' y' = pixelIndex x y
    · simp [Canvas.write, Canvas.pixel, h]
    · simp [Canvas.write, Canvas.pixel, h]
  · by_cases h : pixelIndex x' y' = pixelIndex x y
    · simp [Canvas.write, Canvas.pixel, h, Canvas.mem_insert]
    · simp [Canvas.write, Canvas.pixel, h, Canvas.mem_insert]

theorem Canvas.mem_draw (c : Canvas) (test : Nat → Nat → Bool) (k : Nat) :
    k ∈ c.draw test ↔
      k < Config.width * Config.height ∧ (c.contains k || test (k % Config.width) (k / Config.width)) = true := by
  unfold Canvas.draw
  rw [List.mem_filter, List.mem_range]

/-- A grid pixel after a drawing: true before, or passing the test (40_canvas R72). -/
theorem Canvas.pixel_draw (c : Canvas) (test : Nat → Nat → Bool) {x y : Nat} (hx : x < Config.width)
    (hy : y < Config.height) : (c.draw test).pixel x y = (c.pixel x y || test x y) := by
  have hm : pixelIndex x y % Config.width = x := by
    unfold pixelIndex; simp only [Config.width] at *; omega
  have hd : pixelIndex x y / Config.width = y := by
    unfold pixelIndex; simp only [Config.width] at *; omega
  unfold Canvas.pixel
  refine Bool.eq_iff_iff.2 (List.contains_iff_mem.trans ((Canvas.mem_draw c test _).trans ?_))
  rw [hm, hd]
  exact and_iff_right (pixelIndex_lt hx hy)

theorem Canvas.wf_insert {c : Canvas} (h : Canvas.wf c) {k : Nat} (hk : k < Config.width * Config.height) :
    Canvas.wf (Canvas.insert c k) := by
  refine ⟨?_, fun x hx => ?_⟩
  · have hp := h.1
    clear h
    induction c with
    | nil => simp [Canvas.insert]
    | cons d c ih =>
      obtain ⟨hd, hc⟩ := List.pairwise_cons.1 hp
      simp only [Canvas.insert]
      split_ifs with h1 h2
      · refine List.pairwise_cons.2 ⟨fun x hx => ?_, hp⟩
        rcases List.mem_cons.1 hx with rfl | hx
        · exact h1
        · exact h1.trans (hd _ hx)
      · exact hp
      · refine List.pairwise_cons.2 ⟨fun x hx => ?_, ih hc⟩
        rcases (Canvas.mem_insert _ _ _).1 hx with rfl | hx
        · exact lt_of_le_of_ne (not_lt.1 h1) (Ne.symm h2)
        · exact hd x hx
  · rcases (Canvas.mem_insert _ _ _).1 hx with rfl | hx
    · exact hk
    · exact h.2 x hx

/-- A pixel write inside the grid keeps the canonical form. -/
theorem Canvas.wf_write {c : Canvas} (h : Canvas.wf c) {x y : Nat} (hx : x < Config.width) (hy : y < Config.height)
    (p : Bool) : Canvas.wf (c.write x y p) := by
  cases p
  · exact ⟨h.1.filter _, fun k hk => h.2 k (List.mem_filter.1 hk).1⟩
  · exact Canvas.wf_insert h (pixelIndex_lt hx hy)

/-- A drawing has the canonical form whatever it was drawn on. -/
theorem Canvas.wf_draw (c : Canvas) (test : Nat → Nat → Bool) : Canvas.wf (c.draw test) := by
  refine ⟨?_, fun k hk => ((Canvas.mem_draw c test k).1 hk).1⟩
  unfold Canvas.draw
  exact List.pairwise_lt_range.filter _

theorem Canvas.wf_nil : Canvas.wf [] := ⟨List.Pairwise.nil, by simp⟩

@[simp] theorem Canvas.pixel_nil (x y : Nat) : Canvas.pixel [] x y = false := rfl

/-- Bit `m` after one packing step: the new pixel enters bit 0 (41_encoder R74). -/
theorem shiftIn_getLsbD (acc : Byte) (p : Bool) (m : Nat) (hm : m < 8) :
    (shiftIn acc p).getLsbD m = if m = 0 then p else acc.getLsbD (m - 1) := by
  revert acc p
  interval_cases m <;> decide

/-- The closed form of a packed byte: pixel `k` lands in bit `7 - k` (41_encoder R75). -/
theorem Canvas.packedByte_getLsbD (c : Canvas) (j i k : Nat) (hk : k < 8) :
    (c.packedByte j i).getLsbD (7 - k) = c.pixel (9 * i + k) (2 * j + 1) := by
  have hr : List.range 8 = [0, 1, 2, 3, 4, 5, 6, 7] := by decide
  unfold Canvas.packedByte
  rw [hr]
  simp only [List.foldl_cons, List.foldl_nil]
  interval_cases k <;> simp (disch := decide) only [shiftIn_getLsbD] <;> norm_num

/-- A byte of the encoded frame (41_encoder R74, 20_memory R35). -/
theorem Canvas.read_encoded (c : Canvas) (k : Nat) :
    Memory.read c.encoded k =
      if k < Config.frameSize then some (c.packedByte (k / Config.groups) (k % Config.groups)) else none := by
  unfold Canvas.encoded
  exact Memory.read_tabulate _ _ _

theorem Canvas.wf_encoded (c : Canvas) : Memory.wf Config.frameSize c.encoded := by
  unfold Canvas.encoded
  exact Memory.wf_tabulate _ _

/-- `MemRead(0, FRAME_SIZE)` of an encoded frame always succeeds. -/
theorem Canvas.readRange_encoded (c : Canvas) :
    Memory.readRange c.encoded 0 Config.frameSize = some ((List.range Config.frameSize).map fun k =>
      c.packedByte (k / Config.groups) (k % Config.groups)) := by
  refine (Memory.readRange_eq_some _ _ _ _).2 ⟨by simp, fun k hk => ?_⟩
  rw [Nat.zero_add, Canvas.read_encoded, if_pos hk, List.getElem?_map, List.getElem?_range hk, Option.map_some]

end Sys2Proof.Machine
end

