-- ==== Sys2Proof/Laws/Decode.lean ====
section
/-! SUPPORT. Laws of the encodings: the bytes of a 16-bit field, the data fields, and the opcodes that name no command. -/

namespace Sys2Proof

/-- The two bytes of a field make the field again (30_encoding R60). -/
theorem joinBytes_hiByte_loByte (a : Half) : joinBytes (hiByte a) (loByte a) = a := by
  unfold joinBytes hiByte loByte
  apply BitVec.eq_of_getLsbD_eq
  intro i hi
  rw [BitVec.getLsbD_append]
  split
  · simp [*]
  · have h1 : i - 8 < 8 := by omega
    simp [h1]
    congr 1
    omega

theorem hiByte_joinBytes (a b : Byte) : hiByte (joinBytes a b) = a := by
  unfold joinBytes hiByte
  apply BitVec.eq_of_getLsbD_eq
  intro i hi
  rw [BitVec.getLsbD_extractLsb', BitVec.getLsbD_append]
  simp [hi]

theorem loByte_joinBytes (a b : Byte) : loByte (joinBytes a b) = b := by
  unfold joinBytes loByte
  apply BitVec.eq_of_getLsbD_eq
  intro i hi
  rw [BitVec.getLsbD_extractLsb', BitVec.getLsbD_append]
  simp [hi]

theorem takeBytes_append (p rest : List Byte) : takeBytes p.length (p ++ rest) = some (p, rest) := by
  simp [takeBytes]

theorem takeBytes_eq_some {n : Nat} {bs p r : List Byte} (h : takeBytes n bs = some (p, r)) :
    p.length = n ∧ bs = p ++ r := by
  unfold takeBytes at h
  split at h
  · simp only [Option.some.injEq, Prod.mk.injEq] at h
    obtain ⟨rfl, rfl⟩ := h
    simp
    omega
  · cases h

/-- The data fields of a term whose `n` fits decode to the term (30_encoding R59). -/
theorem decodeAddressed_append (mk : Half → List Byte → Instr) (a : Half) {p : List Byte} (h : p.length < 2 ^ 16)
    (rest : List Byte) :
    decodeAddressed mk (halfBytes a ++ halfBytes (BitVec.ofNat 16 p.length) ++ p ++ rest) = .ok (mk a p, rest) := by
  have hp : (BitVec.ofNat 16 p.length).toNat = p.length := by rw [BitVec.toNat_ofNat, Nat.mod_eq_of_lt h]
  simp [halfBytes, decodeAddressed, joinBytes_hiByte_loByte, hp, takeBytes_append]

/-- What the data fields decoded from are the fields of the term. -/
theorem decodeAddressed_inv {mk : Half → List Byte → Instr} {bs rest : List Byte} {i : Instr}
    (h : decodeAddressed mk bs = .ok (i, rest)) :
    ∃ a p, i = mk a p ∧ p.length < 2 ^ 16 ∧ bs = halfBytes a ++ halfBytes (BitVec.ofNat 16 p.length) ++ p ++ rest := by
  unfold decodeAddressed at h
  split at h
  · rename_i a0 a1 n0 n1 r
    split at h
    · rename_i d r' ht
      obtain ⟨hl, rfl⟩ := takeBytes_eq_some ht
      simp only [Except.ok.injEq, Prod.mk.injEq] at h
      obtain ⟨rfl, rfl⟩ := h
      refine ⟨_, _, rfl, hl ▸ BitVec.isLt _, ?_⟩
      rw [hl, BitVec.ofNat_toNat, BitVec.setWidth_eq]
      simp [halfBytes, hiByte_joinBytes, loByte_joinBytes]
    · cases h
  · cases h

/-- An opcode byte that names no command decodes to the reserved term, whatever follows it (30_encoding R63). -/
theorem decodeDescriptor_reserved {op : Byte} (h : op.toNat = 0 ∨ 0x0C ≤ op.toNat) (bs : List Byte) :
    decodeDescriptor (op :: bs) = .ok (.reserved op) := by
  have hd : decodeOperands op bs = .ok (.reserved op, bs) := by
    unfold decodeOperands
    have := op.isLt
    split <;> first | (exfalso; omega) | rfl
  simp [decodeDescriptor, decode, hd]

/-- A descriptor is never read as a wire packet (30_encoding R59). -/
theorem decodeOperands_ne_wirePacket {op : Byte} {bs rest : List Byte} {a : Half} {p : List Byte} :
    decodeOperands op bs ≠ .ok (.wirePacket a p, rest) := by
  intro h
  unfold decodeOperands at h
  split at h
  all_goals first
    | cases h
    | (split at h <;> first | cases h | (split at h <;> cases h))
    | (obtain ⟨_, _, he, -, -⟩ := decodeAddressed_inv h; cases he)

/-- What a descriptor decodes to is a command, or the reserved term (30_encoding R59, R63). -/
theorem isCommand_of_decodeDescriptor {d : List Byte} {i : Instr} (h : decodeDescriptor d = .ok i) :
    i.isCommand = true ∨ ∃ op, i = .reserved op := by
  cases i with
  | reserved op => exact .inr ⟨op, rfl⟩
  | wirePacket a p =>
    exfalso
    unfold decodeDescriptor at h
    split at h
    · cases h
    · rename_i hd
      cases h
      cases d with
      | nil => cases hd
      | cons op bs => exact decodeOperands_ne_wirePacket hd
    · cases h
    · cases h
  | _ => exact .inl rfl

end Sys2Proof
end

