-- ==== Sys2Proof/Laws/State.lean ====
section
/-! SUPPORT. One lemma per field of State per named update: what the update leaves and what it writes. -/

namespace Sys2Proof.Machine

/-! ### `succeed` -/

@[simp] theorem State.succeed_canvas (s : State) : s.succeed.canvas = s.canvas := rfl
@[simp] theorem State.succeed_frame (s : State) : s.succeed.frame = s.frame := rfl
@[simp] theorem State.succeed_anim (s : State) : s.succeed.anim = s.anim := rfl
@[simp] theorem State.succeed_work (s : State) : s.succeed.work = s.work := rfl
@[simp] theorem State.succeed_off (s : State) : s.succeed.off = s.off := rfl
@[simp] theorem State.succeed_result (s : State) : s.succeed.result = resultOk := rfl
@[simp] theorem State.succeed_errinfo (s : State) : s.succeed.errinfo = s.errinfo := rfl
@[simp] theorem State.succeed_seq (s : State) : s.succeed.seq = s.seq := rfl
@[simp] theorem State.succeed_status (s : State) : s.succeed.status = s.status := rfl
@[simp] theorem State.succeed_tx (s : State) : s.succeed.tx = s.tx := rfl
@[simp] theorem State.succeed_dev (s : State) : s.succeed.dev = s.dev := rfl
@[simp] theorem State.succeed_devSynced (s : State) : s.succeed.devSynced = s.devSynced := rfl
@[simp] theorem State.succeed_hostMoves (s : State) : s.succeed.hostMoves = s.hostMoves := rfl
@[simp] theorem State.succeed_events (s : State) : s.succeed.events = s.events := rfl
@[simp] theorem State.succeed_writes (s : State) : s.succeed.writes = s.writes := rfl
@[simp] theorem State.succeed_draws (s : State) : s.succeed.draws = s.draws := rfl

/-! ### `complete` -/

@[simp] theorem State.complete_canvas (s : State) : s.complete.canvas = s.canvas := rfl
@[simp] theorem State.complete_frame (s : State) : s.complete.frame = s.frame := rfl
@[simp] theorem State.complete_anim (s : State) : s.complete.anim = s.anim := rfl
@[simp] theorem State.complete_work (s : State) : s.complete.work = s.work := rfl
@[simp] theorem State.complete_off (s : State) : s.complete.off = s.off := rfl
@[simp] theorem State.complete_result (s : State) : s.complete.result = resultOk := rfl
@[simp] theorem State.complete_errinfo (s : State) : s.complete.errinfo = s.errinfo := rfl
@[simp] theorem State.complete_seq (s : State) : s.complete.seq = .idle := rfl
@[simp] theorem State.complete_status (s : State) : s.complete.status = s.status := rfl
@[simp] theorem State.complete_tx (s : State) : s.complete.tx = s.tx := rfl
@[simp] theorem State.complete_dev (s : State) : s.complete.dev = s.dev := rfl
@[simp] theorem State.complete_devSynced (s : State) : s.complete.devSynced = s.devSynced := rfl
@[simp] theorem State.complete_hostMoves (s : State) : s.complete.hostMoves = s.hostMoves := rfl
@[simp] theorem State.complete_events (s : State) : s.complete.events = s.events := rfl
@[simp] theorem State.complete_writes (s : State) : s.complete.writes = s.writes := rfl
@[simp] theorem State.complete_draws (s : State) : s.complete.draws = s.draws := rfl

/-! ### `keepRunning` -/

@[simp] theorem State.keepRunning_canvas (s : State) : s.keepRunning.canvas = s.canvas := rfl
@[simp] theorem State.keepRunning_frame (s : State) : s.keepRunning.frame = s.frame := rfl
@[simp] theorem State.keepRunning_anim (s : State) : s.keepRunning.anim = s.anim := rfl
@[simp] theorem State.keepRunning_work (s : State) : s.keepRunning.work = s.work := rfl
@[simp] theorem State.keepRunning_off (s : State) : s.keepRunning.off = s.off := rfl
@[simp] theorem State.keepRunning_result (s : State) : s.keepRunning.result = resultOk := rfl
@[simp] theorem State.keepRunning_errinfo (s : State) : s.keepRunning.errinfo = s.errinfo := rfl
@[simp] theorem State.keepRunning_seq (s : State) : s.keepRunning.seq = .exec (.issued .run) := rfl
@[simp] theorem State.keepRunning_status (s : State) : s.keepRunning.status = s.status := rfl
@[simp] theorem State.keepRunning_tx (s : State) : s.keepRunning.tx = s.tx := rfl
@[simp] theorem State.keepRunning_dev (s : State) : s.keepRunning.dev = s.dev := rfl
@[simp] theorem State.keepRunning_devSynced (s : State) : s.keepRunning.devSynced = s.devSynced := rfl
@[simp] theorem State.keepRunning_hostMoves (s : State) : s.keepRunning.hostMoves = s.hostMoves := rfl
@[simp] theorem State.keepRunning_events (s : State) : s.keepRunning.events = s.events := rfl
@[simp] theorem State.keepRunning_writes (s : State) : s.keepRunning.writes = s.writes := rfl
@[simp] theorem State.keepRunning_draws (s : State) : s.keepRunning.draws = s.draws := rfl

/-! ### `setCanvasValid` -/

@[simp] theorem State.setCanvasValid_canvas (s : State) : s.setCanvasValid.canvas = s.canvas := rfl
@[simp] theorem State.setCanvasValid_frame (s : State) : s.setCanvasValid.frame = s.frame := rfl
@[simp] theorem State.setCanvasValid_anim (s : State) : s.setCanvasValid.anim = s.anim := rfl
@[simp] theorem State.setCanvasValid_work (s : State) : s.setCanvasValid.work = s.work := rfl
@[simp] theorem State.setCanvasValid_off (s : State) : s.setCanvasValid.off = s.off := rfl
@[simp] theorem State.setCanvasValid_result (s : State) : s.setCanvasValid.result = s.result := rfl
@[simp] theorem State.setCanvasValid_errinfo (s : State) : s.setCanvasValid.errinfo = s.errinfo := rfl
@[simp] theorem State.setCanvasValid_seq (s : State) : s.setCanvasValid.seq = s.seq := rfl
@[simp] theorem State.setCanvasValid_status (s : State) : s.setCanvasValid.status =
    { s.status with canvasValid := true } := rfl
@[simp] theorem State.setCanvasValid_tx (s : State) : s.setCanvasValid.tx = s.tx := rfl
@[simp] theorem State.setCanvasValid_dev (s : State) : s.setCanvasValid.dev = s.dev := rfl
@[simp] theorem State.setCanvasValid_devSynced (s : State) : s.setCanvasValid.devSynced = s.devSynced := rfl
@[simp] theorem State.setCanvasValid_hostMoves (s : State) : s.setCanvasValid.hostMoves = s.hostMoves := rfl
@[simp] theorem State.setCanvasValid_events (s : State) : s.setCanvasValid.events = s.events := rfl
@[simp] theorem State.setCanvasValid_writes (s : State) : s.setCanvasValid.writes = s.writes := rfl
@[simp] theorem State.setCanvasValid_draws (s : State) : s.setCanvasValid.draws = s.draws := rfl

/-! ### `setFrameValid` -/

@[simp] theorem State.setFrameValid_canvas (s : State) : s.setFrameValid.canvas = s.canvas := rfl
@[simp] theorem State.setFrameValid_frame (s : State) : s.setFrameValid.frame = s.frame := rfl
@[simp] theorem State.setFrameValid_anim (s : State) : s.setFrameValid.anim = s.anim := rfl
@[simp] theorem State.setFrameValid_work (s : State) : s.setFrameValid.work = s.work := rfl
@[simp] theorem State.setFrameValid_off (s : State) : s.setFrameValid.off = s.off := rfl
@[simp] theorem State.setFrameValid_result (s : State) : s.setFrameValid.result = s.result := rfl
@[simp] theorem State.setFrameValid_errinfo (s : State) : s.setFrameValid.errinfo = s.errinfo := rfl
@[simp] theorem State.setFrameValid_seq (s : State) : s.setFrameValid.seq = s.seq := rfl
@[simp] theorem State.setFrameValid_status (s : State) : s.setFrameValid.status =
    { s.status with frameValid := true } := rfl
@[simp] theorem State.setFrameValid_tx (s : State) : s.setFrameValid.tx = s.tx := rfl
@[simp] theorem State.setFrameValid_dev (s : State) : s.setFrameValid.dev = s.dev := rfl
@[simp] theorem State.setFrameValid_devSynced (s : State) : s.setFrameValid.devSynced = s.devSynced := rfl
@[simp] theorem State.setFrameValid_hostMoves (s : State) : s.setFrameValid.hostMoves = s.hostMoves := rfl
@[simp] theorem State.setFrameValid_events (s : State) : s.setFrameValid.events = s.events := rfl
@[simp] theorem State.setFrameValid_writes (s : State) : s.setFrameValid.writes = s.writes := rfl
@[simp] theorem State.setFrameValid_draws (s : State) : s.setFrameValid.draws = s.draws := rfl

/-! ### `setAnimValid` -/

@[simp] theorem State.setAnimValid_canvas (s : State) : s.setAnimValid.canvas = s.canvas := rfl
@[simp] theorem State.setAnimValid_frame (s : State) : s.setAnimValid.frame = s.frame := rfl
@[simp] theorem State.setAnimValid_anim (s : State) : s.setAnimValid.anim = s.anim := rfl
@[simp] theorem State.setAnimValid_work (s : State) : s.setAnimValid.work = s.work := rfl
@[simp] theorem State.setAnimValid_off (s : State) : s.setAnimValid.off = s.off := rfl
@[simp] theorem State.setAnimValid_result (s : State) : s.setAnimValid.result = s.result := rfl
@[simp] theorem State.setAnimValid_errinfo (s : State) : s.setAnimValid.errinfo = s.errinfo := rfl
@[simp] theorem State.setAnimValid_seq (s : State) : s.setAnimValid.seq = s.seq := rfl
@[simp] theorem State.setAnimValid_status (s : State) : s.setAnimValid.status =
    { s.status with animValid := true } := rfl
@[simp] theorem State.setAnimValid_tx (s : State) : s.setAnimValid.tx = s.tx := rfl
@[simp] theorem State.setAnimValid_dev (s : State) : s.setAnimValid.dev = s.dev := rfl
@[simp] theorem State.setAnimValid_devSynced (s : State) : s.setAnimValid.devSynced = s.devSynced := rfl
@[simp] theorem State.setAnimValid_hostMoves (s : State) : s.setAnimValid.hostMoves = s.hostMoves := rfl
@[simp] theorem State.setAnimValid_events (s : State) : s.setAnimValid.events = s.events := rfl
@[simp] theorem State.setAnimValid_writes (s : State) : s.setAnimValid.writes = s.writes := rfl
@[simp] theorem State.setAnimValid_draws (s : State) : s.setAnimValid.draws = s.draws := rfl

/-! ### `releasePacket` -/

@[simp] theorem State.releasePacket_canvas (s : State) : s.releasePacket.canvas = s.canvas := rfl
@[simp] theorem State.releasePacket_frame (s : State) : s.releasePacket.frame = s.frame := rfl
@[simp] theorem State.releasePacket_anim (s : State) : s.releasePacket.anim = s.anim := rfl
@[simp] theorem State.releasePacket_work (s : State) : s.releasePacket.work =
    { s.work with addr := Config.freeAddr s.draws, len := Config.freeLen s.draws, hdr := Config.freeHdr s.draws } := rfl
@[simp] theorem State.releasePacket_off (s : State) : s.releasePacket.off = s.off := rfl
@[simp] theorem State.releasePacket_result (s : State) : s.releasePacket.result = s.result := rfl
@[simp] theorem State.releasePacket_errinfo (s : State) : s.releasePacket.errinfo = s.errinfo := rfl
@[simp] theorem State.releasePacket_seq (s : State) : s.releasePacket.seq = s.seq := rfl
@[simp] theorem State.releasePacket_status (s : State) : s.releasePacket.status = s.status := rfl
@[simp] theorem State.releasePacket_tx (s : State) : s.releasePacket.tx = s.tx := rfl
@[simp] theorem State.releasePacket_dev (s : State) : s.releasePacket.dev = s.dev := rfl
@[simp] theorem State.releasePacket_devSynced (s : State) : s.releasePacket.devSynced = s.devSynced := rfl
@[simp] theorem State.releasePacket_hostMoves (s : State) : s.releasePacket.hostMoves = s.hostMoves := rfl
@[simp] theorem State.releasePacket_events (s : State) : s.releasePacket.events = s.events := rfl
@[simp] theorem State.releasePacket_writes (s : State) : s.releasePacket.writes = s.writes := rfl
@[simp] theorem State.releasePacket_draws (s : State) : s.releasePacket.draws = s.draws + 1 := rfl

/-! ### `releaseRange` -/

@[simp] theorem State.releaseRange_canvas (s : State) : s.releaseRange.canvas = s.canvas := rfl
@[simp] theorem State.releaseRange_frame (s : State) : s.releaseRange.frame = s.frame := rfl
@[simp] theorem State.releaseRange_anim (s : State) : s.releaseRange.anim = s.anim := rfl
@[simp] theorem State.releaseRange_work (s : State) : s.releaseRange.work =
    { s.releasePacket.work with total := Config.freeTotal s.draws } := rfl
@[simp] theorem State.releaseRange_off (s : State) : s.releaseRange.off = s.off := rfl
@[simp] theorem State.releaseRange_result (s : State) : s.releaseRange.result = s.result := rfl
@[simp] theorem State.releaseRange_errinfo (s : State) : s.releaseRange.errinfo = s.errinfo := rfl
@[simp] theorem State.releaseRange_seq (s : State) : s.releaseRange.seq = s.seq := rfl
@[simp] theorem State.releaseRange_status (s : State) : s.releaseRange.status = s.status := rfl
@[simp] theorem State.releaseRange_tx (s : State) : s.releaseRange.tx = s.tx := rfl
@[simp] theorem State.releaseRange_dev (s : State) : s.releaseRange.dev = s.dev := rfl
@[simp] theorem State.releaseRange_devSynced (s : State) : s.releaseRange.devSynced = s.devSynced := rfl
@[simp] theorem State.releaseRange_hostMoves (s : State) : s.releaseRange.hostMoves = s.hostMoves := rfl
@[simp] theorem State.releaseRange_events (s : State) : s.releaseRange.events = s.events := rfl
@[simp] theorem State.releaseRange_writes (s : State) : s.releaseRange.writes = s.writes := rfl
@[simp] theorem State.releaseRange_draws (s : State) : s.releaseRange.draws = s.draws + 1 := rfl

/-! ### `releaseFill` -/

@[simp] theorem State.releaseFill_canvas (s : State) : s.releaseFill.canvas = s.canvas := rfl
@[simp] theorem State.releaseFill_frame (s : State) : s.releaseFill.frame = s.frame := rfl
@[simp] theorem State.releaseFill_anim (s : State) : s.releaseFill.anim = s.anim := rfl
@[simp] theorem State.releaseFill_work (s : State) : s.releaseFill.work =
    { s.releaseRange.work with fillv := Config.freeFillv s.draws } := rfl
@[simp] theorem State.releaseFill_off (s : State) : s.releaseFill.off = s.off := rfl
@[simp] theorem State.releaseFill_result (s : State) : s.releaseFill.result = s.result := rfl
@[simp] theorem State.releaseFill_errinfo (s : State) : s.releaseFill.errinfo = s.errinfo := rfl
@[simp] theorem State.releaseFill_seq (s : State) : s.releaseFill.seq = s.seq := rfl
@[simp] theorem State.releaseFill_status (s : State) : s.releaseFill.status = s.status := rfl
@[simp] theorem State.releaseFill_tx (s : State) : s.releaseFill.tx = s.tx := rfl
@[simp] theorem State.releaseFill_dev (s : State) : s.releaseFill.dev = s.dev := rfl
@[simp] theorem State.releaseFill_devSynced (s : State) : s.releaseFill.devSynced = s.devSynced := rfl
@[simp] theorem State.releaseFill_hostMoves (s : State) : s.releaseFill.hostMoves = s.hostMoves := rfl
@[simp] theorem State.releaseFill_events (s : State) : s.releaseFill.events = s.events := rfl
@[simp] theorem State.releaseFill_writes (s : State) : s.releaseFill.writes = s.writes := rfl
@[simp] theorem State.releaseFill_draws (s : State) : s.releaseFill.draws = s.draws + 1 := rfl

/-! ### `releaseEncoder` -/

@[simp] theorem State.releaseEncoder_canvas (s : State) : s.releaseEncoder.canvas = s.canvas := rfl
@[simp] theorem State.releaseEncoder_frame (s : State) : s.releaseEncoder.frame = s.frame := rfl
@[simp] theorem State.releaseEncoder_anim (s : State) : s.releaseEncoder.anim = s.anim := rfl
@[simp] theorem State.releaseEncoder_work (s : State) : s.releaseEncoder.work =
    { s.work with j := Config.freeJ s.draws, i := Config.freeI s.draws, k := Config.freeK s.draws, acc := Config.freeAcc s.draws } := rfl
@[simp] theorem State.releaseEncoder_off (s : State) : s.releaseEncoder.off = s.off := rfl
@[simp] theorem State.releaseEncoder_result (s : State) : s.releaseEncoder.result = s.result := rfl
@[simp] theorem State.releaseEncoder_errinfo (s : State) : s.releaseEncoder.errinfo = s.errinfo := rfl
@[simp] theorem State.releaseEncoder_seq (s : State) : s.releaseEncoder.seq = s.seq := rfl
@[simp] theorem State.releaseEncoder_status (s : State) : s.releaseEncoder.status = s.status := rfl
@[simp] theorem State.releaseEncoder_tx (s : State) : s.releaseEncoder.tx = s.tx := rfl
@[simp] theorem State.releaseEncoder_dev (s : State) : s.releaseEncoder.dev = s.dev := rfl
@[simp] theorem State.releaseEncoder_devSynced (s : State) : s.releaseEncoder.devSynced = s.devSynced := rfl
@[simp] theorem State.releaseEncoder_hostMoves (s : State) : s.releaseEncoder.hostMoves = s.hostMoves := rfl
@[simp] theorem State.releaseEncoder_events (s : State) : s.releaseEncoder.events = s.events := rfl
@[simp] theorem State.releaseEncoder_writes (s : State) : s.releaseEncoder.writes = s.writes := rfl
@[simp] theorem State.releaseEncoder_draws (s : State) : s.releaseEncoder.draws = s.draws + 1 := rfl

/-! ### `releaseTick` -/

@[simp] theorem State.releaseTick_canvas (s : State) : s.releaseTick.canvas = s.canvas := rfl
@[simp] theorem State.releaseTick_frame (s : State) : s.releaseTick.frame = s.frame := rfl
@[simp] theorem State.releaseTick_anim (s : State) : s.releaseTick.anim = s.anim := rfl
@[simp] theorem State.releaseTick_work (s : State) : s.releaseTick.work = s.releaseEncoder.releaseRange.work := rfl
@[simp] theorem State.releaseTick_off (s : State) : s.releaseTick.off = s.off := rfl
@[simp] theorem State.releaseTick_result (s : State) : s.releaseTick.result = s.result := rfl
@[simp] theorem State.releaseTick_errinfo (s : State) : s.releaseTick.errinfo = s.errinfo := rfl
@[simp] theorem State.releaseTick_seq (s : State) : s.releaseTick.seq = s.seq := rfl
@[simp] theorem State.releaseTick_status (s : State) : s.releaseTick.status = s.status := rfl
@[simp] theorem State.releaseTick_tx (s : State) : s.releaseTick.tx = s.tx := rfl
@[simp] theorem State.releaseTick_dev (s : State) : s.releaseTick.dev = s.dev := rfl
@[simp] theorem State.releaseTick_devSynced (s : State) : s.releaseTick.devSynced = s.devSynced := rfl
@[simp] theorem State.releaseTick_hostMoves (s : State) : s.releaseTick.hostMoves = s.hostMoves := rfl
@[simp] theorem State.releaseTick_events (s : State) : s.releaseTick.events = s.events := rfl
@[simp] theorem State.releaseTick_writes (s : State) : s.releaseTick.writes = s.writes := rfl
@[simp] theorem State.releaseTick_draws (s : State) : s.releaseTick.draws = s.draws + 2 := rfl

/-! ### `raiseTransportError` -/

@[simp] theorem State.raiseTransportError_canvas (s : State) (e : ErrInfo) : (s.raiseTransportError e).canvas =
    s.canvas := rfl
@[simp] theorem State.raiseTransportError_frame (s : State) (e : ErrInfo) : (s.raiseTransportError e).frame =
    s.frame := rfl
@[simp] theorem State.raiseTransportError_anim (s : State) (e : ErrInfo) : (s.raiseTransportError e).anim =
    s.anim := rfl
@[simp] theorem State.raiseTransportError_work (s : State) (e : ErrInfo) : (s.raiseTransportError e).work =
    s.work := rfl
@[simp] theorem State.raiseTransportError_off (s : State) (e : ErrInfo) : (s.raiseTransportError e).off = s.off := rfl
@[simp] theorem State.raiseTransportError_result (s : State) (e : ErrInfo) : (s.raiseTransportError e).result =
    resultTransportError := rfl
@[simp] theorem State.raiseTransportError_errinfo (s : State) (e : ErrInfo) : (s.raiseTransportError e).errinfo =
    e := rfl
@[simp] theorem State.raiseTransportError_seq (s : State) (e : ErrInfo) : (s.raiseTransportError e).seq = .idle := rfl
@[simp] theorem State.raiseTransportError_status (s : State) (e : ErrInfo) : (s.raiseTransportError e).status =
    { s.status with terr := true } := rfl
@[simp] theorem State.raiseTransportError_tx (s : State) (e : ErrInfo) : (s.raiseTransportError e).tx = s.tx := rfl
@[simp] theorem State.raiseTransportError_dev (s : State) (e : ErrInfo) : (s.raiseTransportError e).dev = s.dev := rfl
@[simp] theorem State.raiseTransportError_devSynced (s : State) (e : ErrInfo) : (s.raiseTransportError e).devSynced =
    s.devSynced := rfl
@[simp] theorem State.raiseTransportError_hostMoves (s : State) (e : ErrInfo) : (s.raiseTransportError e).hostMoves =
    s.hostMoves := rfl
@[simp] theorem State.raiseTransportError_events (s : State) (e : ErrInfo) : (s.raiseTransportError e).events =
    s.events := rfl
@[simp] theorem State.raiseTransportError_writes (s : State) (e : ErrInfo) : (s.raiseTransportError e).writes =
    s.writes := rfl
@[simp] theorem State.raiseTransportError_draws (s : State) (e : ErrInfo) : (s.raiseTransportError e).draws =
    s.draws := rfl

/-! ### `raiseContractViolation` -/

@[simp] theorem State.raiseContractViolation_canvas (s : State) : s.raiseContractViolation.canvas = s.canvas := rfl
@[simp] theorem State.raiseContractViolation_frame (s : State) : s.raiseContractViolation.frame = s.frame := rfl
@[simp] theorem State.raiseContractViolation_anim (s : State) : s.raiseContractViolation.anim = s.anim := rfl
@[simp] theorem State.raiseContractViolation_work (s : State) : s.raiseContractViolation.work = s.work := rfl
@[simp] theorem State.raiseContractViolation_off (s : State) : s.raiseContractViolation.off = s.off := rfl
@[simp] theorem State.raiseContractViolation_result (s : State) : s.raiseContractViolation.result =
    resultContractViolation := rfl
@[simp] theorem State.raiseContractViolation_errinfo (s : State) : s.raiseContractViolation.errinfo = s.errinfo := rfl
@[simp] theorem State.raiseContractViolation_seq (s : State) : s.raiseContractViolation.seq = .halt := rfl
@[simp] theorem State.raiseContractViolation_status (s : State) : s.raiseContractViolation.status = s.status := rfl
@[simp] theorem State.raiseContractViolation_tx (s : State) : s.raiseContractViolation.tx = s.tx := rfl
@[simp] theorem State.raiseContractViolation_dev (s : State) : s.raiseContractViolation.dev = s.dev := rfl
@[simp] theorem State.raiseContractViolation_devSynced (s : State) : s.raiseContractViolation.devSynced =
    s.devSynced := rfl
@[simp] theorem State.raiseContractViolation_hostMoves (s : State) : s.raiseContractViolation.hostMoves =
    s.hostMoves := rfl
@[simp] theorem State.raiseContractViolation_events (s : State) : s.raiseContractViolation.events = s.events := rfl
@[simp] theorem State.raiseContractViolation_writes (s : State) : s.raiseContractViolation.writes = s.writes := rfl
@[simp] theorem State.raiseContractViolation_draws (s : State) : s.raiseContractViolation.draws = s.draws := rfl

/-! ### `assertReset` -/

@[simp] theorem State.assertReset_canvas (s : State) : s.assertReset.canvas = [] := rfl
@[simp] theorem State.assertReset_frame (s : State) : s.assertReset.frame = [] := rfl
@[simp] theorem State.assertReset_anim (s : State) : s.assertReset.anim = State.reset.anim := rfl
@[simp] theorem State.assertReset_work (s : State) : s.assertReset.work = Working.reset := rfl
@[simp] theorem State.assertReset_off (s : State) : s.assertReset.off = 0#16 := rfl
@[simp] theorem State.assertReset_result (s : State) : s.assertReset.result = 0#8 := rfl
@[simp] theorem State.assertReset_errinfo (s : State) : s.assertReset.errinfo = 0 := rfl
@[simp] theorem State.assertReset_seq (s : State) : s.assertReset.seq = .idle := rfl
@[simp] theorem State.assertReset_status (s : State) : s.assertReset.status = State.reset.status := rfl
@[simp] theorem State.assertReset_tx (s : State) : s.assertReset.tx = s.tx := rfl
@[simp] theorem State.assertReset_dev (s : State) : s.assertReset.dev = s.dev := rfl
@[simp] theorem State.assertReset_devSynced (s : State) : s.assertReset.devSynced = s.devSynced := rfl
@[simp] theorem State.assertReset_hostMoves (s : State) : s.assertReset.hostMoves = s.hostMoves := rfl
@[simp] theorem State.assertReset_events (s : State) : s.assertReset.events = s.events := rfl
@[simp] theorem State.assertReset_writes (s : State) : s.assertReset.writes = s.writes := rfl
@[simp] theorem State.assertReset_draws (s : State) : s.assertReset.draws = s.draws := rfl

/-! ### `takeEvent` -/

@[simp] theorem State.takeEvent_canvas (s : State) : s.takeEvent.canvas = s.canvas := rfl
@[simp] theorem State.takeEvent_frame (s : State) : s.takeEvent.frame = s.frame := rfl
@[simp] theorem State.takeEvent_anim (s : State) : s.takeEvent.anim = s.anim := rfl
@[simp] theorem State.takeEvent_work (s : State) : s.takeEvent.work = s.work := rfl
@[simp] theorem State.takeEvent_off (s : State) : s.takeEvent.off = s.off := rfl
@[simp] theorem State.takeEvent_result (s : State) : s.takeEvent.result = s.result := rfl
@[simp] theorem State.takeEvent_errinfo (s : State) : s.takeEvent.errinfo = s.errinfo := rfl
@[simp] theorem State.takeEvent_seq (s : State) : s.takeEvent.seq = s.seq := rfl
@[simp] theorem State.takeEvent_status (s : State) : s.takeEvent.status = s.status := rfl
@[simp] theorem State.takeEvent_tx (s : State) : s.takeEvent.tx = s.tx := rfl
@[simp] theorem State.takeEvent_dev (s : State) : s.takeEvent.dev = s.dev := rfl
@[simp] theorem State.takeEvent_devSynced (s : State) : s.takeEvent.devSynced = s.devSynced := rfl
@[simp] theorem State.takeEvent_hostMoves (s : State) : s.takeEvent.hostMoves = s.hostMoves := rfl
@[simp] theorem State.takeEvent_events (s : State) : s.takeEvent.events = s.events.tail := rfl
@[simp] theorem State.takeEvent_writes (s : State) : s.takeEvent.writes = s.writes + 1 := rfl
@[simp] theorem State.takeEvent_draws (s : State) : s.takeEvent.draws = s.draws := rfl

/-! ### `logWrite` -/

@[simp] theorem State.logWrite_canvas (s : State) (b : List Byte) (o : WriteOutcome) (n : Nat) : (s.logWrite b o n).canvas =
    s.canvas := rfl
@[simp] theorem State.logWrite_frame (s : State) (b : List Byte) (o : WriteOutcome) (n : Nat) : (s.logWrite b o n).frame =
    s.frame := rfl
@[simp] theorem State.logWrite_anim (s : State) (b : List Byte) (o : WriteOutcome) (n : Nat) : (s.logWrite b o n).anim =
    s.anim := rfl
@[simp] theorem State.logWrite_work (s : State) (b : List Byte) (o : WriteOutcome) (n : Nat) : (s.logWrite b o n).work =
    s.work := rfl
@[simp] theorem State.logWrite_off (s : State) (b : List Byte) (o : WriteOutcome) (n : Nat) : (s.logWrite b o n).off =
    s.off := rfl
@[simp] theorem State.logWrite_result (s : State) (b : List Byte) (o : WriteOutcome) (n : Nat) : (s.logWrite b o n).result =
    s.result := rfl
@[simp] theorem State.logWrite_errinfo (s : State) (b : List Byte) (o : WriteOutcome) (n : Nat) : (s.logWrite b o n).errinfo =
    s.errinfo := rfl
@[simp] theorem State.logWrite_seq (s : State) (b : List Byte) (o : WriteOutcome) (n : Nat) : (s.logWrite b o n).seq =
    s.seq := rfl
@[simp] theorem State.logWrite_status (s : State) (b : List Byte) (o : WriteOutcome) (n : Nat) : (s.logWrite b o n).status =
    s.status := rfl
@[simp] theorem State.logWrite_tx (s : State) (b : List Byte) (o : WriteOutcome) (n : Nat) : (s.logWrite b o n).tx =
    s.tx ++ [{ bytes := b, outcome := o, delivered := n }] := rfl
@[simp] theorem State.logWrite_dev (s : State) (b : List Byte) (o : WriteOutcome) (n : Nat) : (s.logWrite b o n).dev =
    s.dev := rfl
@[simp] theorem State.logWrite_devSynced (s : State) (b : List Byte) (o : WriteOutcome) (n : Nat) : (s.logWrite b o n).devSynced =
    s.devSynced := rfl
@[simp] theorem State.logWrite_hostMoves (s : State) (b : List Byte) (o : WriteOutcome) (n : Nat) : (s.logWrite b o n).hostMoves =
    s.hostMoves := rfl
@[simp] theorem State.logWrite_events (s : State) (b : List Byte) (o : WriteOutcome) (n : Nat) : (s.logWrite b o n).events =
    s.events := rfl
@[simp] theorem State.logWrite_writes (s : State) (b : List Byte) (o : WriteOutcome) (n : Nat) : (s.logWrite b o n).writes =
    s.writes := rfl
@[simp] theorem State.logWrite_draws (s : State) (b : List Byte) (o : WriteOutcome) (n : Nat) : (s.logWrite b o n).draws =
    s.draws := rfl

/-! ### `buildHeader` -/

@[simp] theorem State.buildHeader_canvas (s : State) (a : Half) (n : Nat) : (s.buildHeader a n).canvas =
    s.canvas := rfl
@[simp] theorem State.buildHeader_frame (s : State) (a : Half) (n : Nat) : (s.buildHeader a n).frame = s.frame := rfl
@[simp] theorem State.buildHeader_anim (s : State) (a : Half) (n : Nat) : (s.buildHeader a n).anim = s.anim := rfl
@[simp] theorem State.buildHeader_work (s : State) (a : Half) (n : Nat) : (s.buildHeader a n).work =
    { s.work with addr := a, len := BitVec.ofNat 8 n, hdr := headerOf a (BitVec.ofNat 8 n) } := rfl
@[simp] theorem State.buildHeader_off (s : State) (a : Half) (n : Nat) : (s.buildHeader a n).off = s.off := rfl
@[simp] theorem State.buildHeader_result (s : State) (a : Half) (n : Nat) : (s.buildHeader a n).result =
    s.result := rfl
@[simp] theorem State.buildHeader_errinfo (s : State) (a : Half) (n : Nat) : (s.buildHeader a n).errinfo =
    s.errinfo := rfl
@[simp] theorem State.buildHeader_seq (s : State) (a : Half) (n : Nat) : (s.buildHeader a n).seq = s.seq := rfl
@[simp] theorem State.buildHeader_status (s : State) (a : Half) (n : Nat) : (s.buildHeader a n).status =
    s.status := rfl
@[simp] theorem State.buildHeader_tx (s : State) (a : Half) (n : Nat) : (s.buildHeader a n).tx = s.tx := rfl
@[simp] theorem State.buildHeader_dev (s : State) (a : Half) (n : Nat) : (s.buildHeader a n).dev = s.dev := rfl
@[simp] theorem State.buildHeader_devSynced (s : State) (a : Half) (n : Nat) : (s.buildHeader a n).devSynced =
    s.devSynced := rfl
@[simp] theorem State.buildHeader_hostMoves (s : State) (a : Half) (n : Nat) : (s.buildHeader a n).hostMoves =
    s.hostMoves := rfl
@[simp] theorem State.buildHeader_events (s : State) (a : Half) (n : Nat) : (s.buildHeader a n).events =
    s.events := rfl
@[simp] theorem State.buildHeader_writes (s : State) (a : Half) (n : Nat) : (s.buildHeader a n).writes =
    s.writes := rfl
@[simp] theorem State.buildHeader_draws (s : State) (a : Half) (n : Nat) : (s.buildHeader a n).draws = s.draws := rfl

/-! ### `blankCanvas` -/

@[simp] theorem State.blankCanvas_canvas (s : State) : s.blankCanvas.canvas = [] := rfl
@[simp] theorem State.blankCanvas_frame (s : State) : s.blankCanvas.frame = s.frame := rfl
@[simp] theorem State.blankCanvas_anim (s : State) : s.blankCanvas.anim = s.anim := rfl
@[simp] theorem State.blankCanvas_work (s : State) : s.blankCanvas.work = s.work := rfl
@[simp] theorem State.blankCanvas_off (s : State) : s.blankCanvas.off = s.off := rfl
@[simp] theorem State.blankCanvas_result (s : State) : s.blankCanvas.result = resultOk := rfl
@[simp] theorem State.blankCanvas_errinfo (s : State) : s.blankCanvas.errinfo = s.errinfo := rfl
@[simp] theorem State.blankCanvas_seq (s : State) : s.blankCanvas.seq = s.seq := rfl
@[simp] theorem State.blankCanvas_status (s : State) : s.blankCanvas.status =
    { s.status with canvasValid := true } := rfl
@[simp] theorem State.blankCanvas_tx (s : State) : s.blankCanvas.tx = s.tx := rfl
@[simp] theorem State.blankCanvas_dev (s : State) : s.blankCanvas.dev = s.dev := rfl
@[simp] theorem State.blankCanvas_devSynced (s : State) : s.blankCanvas.devSynced = s.devSynced := rfl
@[simp] theorem State.blankCanvas_hostMoves (s : State) : s.blankCanvas.hostMoves = s.hostMoves := rfl
@[simp] theorem State.blankCanvas_events (s : State) : s.blankCanvas.events = s.events := rfl
@[simp] theorem State.blankCanvas_writes (s : State) : s.blankCanvas.writes = s.writes := rfl
@[simp] theorem State.blankCanvas_draws (s : State) : s.blankCanvas.draws = s.draws := rfl

/-! ### `drawDisk` -/

@[simp] theorem State.drawDisk_canvas (s : State) (cx cy d : Int) : (s.drawDisk cx cy d).canvas =
    s.canvas.draw (inDisk cx cy d) := rfl
@[simp] theorem State.drawDisk_frame (s : State) (cx cy d : Int) : (s.drawDisk cx cy d).frame = s.frame := rfl
@[simp] theorem State.drawDisk_anim (s : State) (cx cy d : Int) : (s.drawDisk cx cy d).anim = s.anim := rfl
@[simp] theorem State.drawDisk_work (s : State) (cx cy d : Int) : (s.drawDisk cx cy d).work = s.work := rfl
@[simp] theorem State.drawDisk_off (s : State) (cx cy d : Int) : (s.drawDisk cx cy d).off = s.off := rfl
@[simp] theorem State.drawDisk_result (s : State) (cx cy d : Int) : (s.drawDisk cx cy d).result = resultOk := rfl
@[simp] theorem State.drawDisk_errinfo (s : State) (cx cy d : Int) : (s.drawDisk cx cy d).errinfo = s.errinfo := rfl
@[simp] theorem State.drawDisk_seq (s : State) (cx cy d : Int) : (s.drawDisk cx cy d).seq = s.seq := rfl
@[simp] theorem State.drawDisk_status (s : State) (cx cy d : Int) : (s.drawDisk cx cy d).status = s.status := rfl
@[simp] theorem State.drawDisk_tx (s : State) (cx cy d : Int) : (s.drawDisk cx cy d).tx = s.tx := rfl
@[simp] theorem State.drawDisk_dev (s : State) (cx cy d : Int) : (s.drawDisk cx cy d).dev = s.dev := rfl
@[simp] theorem State.drawDisk_devSynced (s : State) (cx cy d : Int) : (s.drawDisk cx cy d).devSynced =
    s.devSynced := rfl
@[simp] theorem State.drawDisk_hostMoves (s : State) (cx cy d : Int) : (s.drawDisk cx cy d).hostMoves =
    s.hostMoves := rfl
@[simp] theorem State.drawDisk_events (s : State) (cx cy d : Int) : (s.drawDisk cx cy d).events = s.events := rfl
@[simp] theorem State.drawDisk_writes (s : State) (cx cy d : Int) : (s.drawDisk cx cy d).writes = s.writes := rfl
@[simp] theorem State.drawDisk_draws (s : State) (cx cy d : Int) : (s.drawDisk cx cy d).draws = s.draws := rfl

/-! ### `encodeCanvas` -/

@[simp] theorem State.encodeCanvas_canvas (s : State) : s.encodeCanvas.canvas = s.canvas := rfl
@[simp] theorem State.encodeCanvas_frame (s : State) : s.encodeCanvas.frame = s.canvas.encoded := rfl
@[simp] theorem State.encodeCanvas_anim (s : State) : s.encodeCanvas.anim = s.anim := rfl
@[simp] theorem State.encodeCanvas_work (s : State) : s.encodeCanvas.work = s.work := rfl
@[simp] theorem State.encodeCanvas_off (s : State) : s.encodeCanvas.off = s.off := rfl
@[simp] theorem State.encodeCanvas_result (s : State) : s.encodeCanvas.result = resultOk := rfl
@[simp] theorem State.encodeCanvas_errinfo (s : State) : s.encodeCanvas.errinfo = s.errinfo := rfl
@[simp] theorem State.encodeCanvas_seq (s : State) : s.encodeCanvas.seq = s.seq := rfl
@[simp] theorem State.encodeCanvas_status (s : State) : s.encodeCanvas.status =
    { s.status with frameValid := true } := rfl
@[simp] theorem State.encodeCanvas_tx (s : State) : s.encodeCanvas.tx = s.tx := rfl
@[simp] theorem State.encodeCanvas_dev (s : State) : s.encodeCanvas.dev = s.dev := rfl
@[simp] theorem State.encodeCanvas_devSynced (s : State) : s.encodeCanvas.devSynced = s.devSynced := rfl
@[simp] theorem State.encodeCanvas_hostMoves (s : State) : s.encodeCanvas.hostMoves = s.hostMoves := rfl
@[simp] theorem State.encodeCanvas_events (s : State) : s.encodeCanvas.events = s.events := rfl
@[simp] theorem State.encodeCanvas_writes (s : State) : s.encodeCanvas.writes = s.writes := rfl
@[simp] theorem State.encodeCanvas_draws (s : State) : s.encodeCanvas.draws = s.draws := rfl

/-! ### `devDeliver` -/

@[simp] theorem State.devDeliver_canvas (s : State) (a : Nat) (p : List Byte) : (s.devDeliver a p).canvas = s.canvas := by
  unfold State.devDeliver; split <;> rfl
@[simp] theorem State.devDeliver_frame (s : State) (a : Nat) (p : List Byte) : (s.devDeliver a p).frame = s.frame := by
  unfold State.devDeliver; split <;> rfl
@[simp] theorem State.devDeliver_anim (s : State) (a : Nat) (p : List Byte) : (s.devDeliver a p).anim = s.anim := by
  unfold State.devDeliver; split <;> rfl
@[simp] theorem State.devDeliver_work (s : State) (a : Nat) (p : List Byte) : (s.devDeliver a p).work = s.work := by
  unfold State.devDeliver; split <;> rfl
@[simp] theorem State.devDeliver_off (s : State) (a : Nat) (p : List Byte) : (s.devDeliver a p).off = s.off := by
  unfold State.devDeliver; split <;> rfl
@[simp] theorem State.devDeliver_result (s : State) (a : Nat) (p : List Byte) : (s.devDeliver a p).result = s.result := by
  unfold State.devDeliver; split <;> rfl
@[simp] theorem State.devDeliver_errinfo (s : State) (a : Nat) (p : List Byte) : (s.devDeliver a p).errinfo = s.errinfo := by
  unfold State.devDeliver; split <;> rfl
@[simp] theorem State.devDeliver_seq (s : State) (a : Nat) (p : List Byte) : (s.devDeliver a p).seq = s.seq := by
  unfold State.devDeliver; split <;> rfl
@[simp] theorem State.devDeliver_status (s : State) (a : Nat) (p : List Byte) : (s.devDeliver a p).status = s.status := by
  unfold State.devDeliver; split <;> rfl
@[simp] theorem State.devDeliver_tx (s : State) (a : Nat) (p : List Byte) : (s.devDeliver a p).tx = s.tx := by
  unfold State.devDeliver; split <;> rfl
@[simp] theorem State.devDeliver_hostMoves (s : State) (a : Nat) (p : List Byte) : (s.devDeliver a p).hostMoves = s.hostMoves := by
  unfold State.devDeliver; split <;> rfl
@[simp] theorem State.devDeliver_events (s : State) (a : Nat) (p : List Byte) : (s.devDeliver a p).events = s.events := by
  unfold State.devDeliver; split <;> rfl
@[simp] theorem State.devDeliver_writes (s : State) (a : Nat) (p : List Byte) : (s.devDeliver a p).writes = s.writes := by
  unfold State.devDeliver; split <;> rfl
@[simp] theorem State.devDeliver_draws (s : State) (a : Nat) (p : List Byte) : (s.devDeliver a p).draws = s.draws := by
  unfold State.devDeliver; split <;> rfl

/-! ### `devHeader` -/

@[simp] theorem State.devHeader_canvas (s : State) : s.devHeader.canvas = s.canvas := rfl
@[simp] theorem State.devHeader_frame (s : State) : s.devHeader.frame = s.frame := rfl
@[simp] theorem State.devHeader_anim (s : State) : s.devHeader.anim = s.anim := rfl
@[simp] theorem State.devHeader_work (s : State) : s.devHeader.work = s.work := rfl
@[simp] theorem State.devHeader_off (s : State) : s.devHeader.off = s.off := rfl
@[simp] theorem State.devHeader_result (s : State) : s.devHeader.result = s.result := rfl
@[simp] theorem State.devHeader_errinfo (s : State) : s.devHeader.errinfo = s.errinfo := rfl
@[simp] theorem State.devHeader_seq (s : State) : s.devHeader.seq = s.seq := rfl
@[simp] theorem State.devHeader_status (s : State) : s.devHeader.status = s.status := rfl
@[simp] theorem State.devHeader_tx (s : State) : s.devHeader.tx = s.tx := rfl
@[simp] theorem State.devHeader_dev (s : State) : s.devHeader.dev = if s.devSynced then s.dev else [] := rfl
@[simp] theorem State.devHeader_devSynced (s : State) : s.devHeader.devSynced = s.devSynced := rfl
@[simp] theorem State.devHeader_hostMoves (s : State) : s.devHeader.hostMoves = s.hostMoves := rfl
@[simp] theorem State.devHeader_events (s : State) : s.devHeader.events = s.events := rfl
@[simp] theorem State.devHeader_writes (s : State) : s.devHeader.writes = s.writes := rfl
@[simp] theorem State.devHeader_draws (s : State) : s.devHeader.draws = s.draws := rfl

/-! ### `devCut` -/

@[simp] theorem State.devCut_canvas (s : State) (a n : Nat) : (s.devCut a n).canvas = s.canvas := by
  unfold State.devCut; split <;> rfl
@[simp] theorem State.devCut_frame (s : State) (a n : Nat) : (s.devCut a n).frame = s.frame := by
  unfold State.devCut; split <;> rfl
@[simp] theorem State.devCut_anim (s : State) (a n : Nat) : (s.devCut a n).anim = s.anim := by
  unfold State.devCut; split <;> rfl
@[simp] theorem State.devCut_work (s : State) (a n : Nat) : (s.devCut a n).work = s.work := by
  unfold State.devCut; split <;> rfl
@[simp] theorem State.devCut_off (s : State) (a n : Nat) : (s.devCut a n).off = s.off := by
  unfold State.devCut; split <;> rfl
@[simp] theorem State.devCut_result (s : State) (a n : Nat) : (s.devCut a n).result = s.result := by
  unfold State.devCut; split <;> rfl
@[simp] theorem State.devCut_errinfo (s : State) (a n : Nat) : (s.devCut a n).errinfo = s.errinfo := by
  unfold State.devCut; split <;> rfl
@[simp] theorem State.devCut_seq (s : State) (a n : Nat) : (s.devCut a n).seq = s.seq := by
  unfold State.devCut; split <;> rfl
@[simp] theorem State.devCut_status (s : State) (a n : Nat) : (s.devCut a n).status = s.status := by
  unfold State.devCut; split <;> rfl
@[simp] theorem State.devCut_tx (s : State) (a n : Nat) : (s.devCut a n).tx = s.tx := by
  unfold State.devCut; split <;> rfl
@[simp] theorem State.devCut_hostMoves (s : State) (a n : Nat) : (s.devCut a n).hostMoves = s.hostMoves := by
  unfold State.devCut; split <;> rfl
@[simp] theorem State.devCut_events (s : State) (a n : Nat) : (s.devCut a n).events = s.events := by
  unfold State.devCut; split <;> rfl
@[simp] theorem State.devCut_writes (s : State) (a n : Nat) : (s.devCut a n).writes = s.writes := by
  unfold State.devCut; split <;> rfl
@[simp] theorem State.devCut_draws (s : State) (a n : Nat) : (s.devCut a n).draws = s.draws := by
  unfold State.devCut; split <;> rfl

/-! ### `goTo` -/

@[simp] theorem State.goTo_canvas (s : State) (j : Job) : (s.goTo j).canvas = s.canvas := rfl
@[simp] theorem State.goTo_frame (s : State) (j : Job) : (s.goTo j).frame = s.frame := rfl
@[simp] theorem State.goTo_anim (s : State) (j : Job) : (s.goTo j).anim = s.anim := rfl
@[simp] theorem State.goTo_work (s : State) (j : Job) : (s.goTo j).work = s.work := rfl
@[simp] theorem State.goTo_off (s : State) (j : Job) : (s.goTo j).off = s.off := rfl
@[simp] theorem State.goTo_result (s : State) (j : Job) : (s.goTo j).result = s.result := rfl
@[simp] theorem State.goTo_errinfo (s : State) (j : Job) : (s.goTo j).errinfo = s.errinfo := rfl
@[simp] theorem State.goTo_seq (s : State) (j : Job) : (s.goTo j).seq = .exec j := rfl
@[simp] theorem State.goTo_status (s : State) (j : Job) : (s.goTo j).status = s.status := rfl
@[simp] theorem State.goTo_tx (s : State) (j : Job) : (s.goTo j).tx = s.tx := rfl
@[simp] theorem State.goTo_dev (s : State) (j : Job) : (s.goTo j).dev = s.dev := rfl
@[simp] theorem State.goTo_devSynced (s : State) (j : Job) : (s.goTo j).devSynced = s.devSynced := rfl
@[simp] theorem State.goTo_hostMoves (s : State) (j : Job) : (s.goTo j).hostMoves = s.hostMoves := rfl
@[simp] theorem State.goTo_events (s : State) (j : Job) : (s.goTo j).events = s.events := rfl
@[simp] theorem State.goTo_writes (s : State) (j : Job) : (s.goTo j).writes = s.writes := rfl
@[simp] theorem State.goTo_draws (s : State) (j : Job) : (s.goTo j).draws = s.draws := rfl

/-! ### `clearFrameValid` -/

@[simp] theorem State.clearFrameValid_canvas (s : State) : (s.clearFrameValid).canvas = s.canvas := rfl
@[simp] theorem State.clearFrameValid_frame (s : State) : (s.clearFrameValid).frame = s.frame := rfl
@[simp] theorem State.clearFrameValid_anim (s : State) : (s.clearFrameValid).anim = s.anim := rfl
@[simp] theorem State.clearFrameValid_work (s : State) : (s.clearFrameValid).work = s.work := rfl
@[simp] theorem State.clearFrameValid_off (s : State) : (s.clearFrameValid).off = s.off := rfl
@[simp] theorem State.clearFrameValid_result (s : State) : (s.clearFrameValid).result = s.result := rfl
@[simp] theorem State.clearFrameValid_errinfo (s : State) : (s.clearFrameValid).errinfo = s.errinfo := rfl
@[simp] theorem State.clearFrameValid_seq (s : State) : (s.clearFrameValid).seq = s.seq := rfl
@[simp] theorem State.clearFrameValid_status (s : State) : (s.clearFrameValid).status = { s.status with frameValid := false } := rfl
@[simp] theorem State.clearFrameValid_tx (s : State) : (s.clearFrameValid).tx = s.tx := rfl
@[simp] theorem State.clearFrameValid_dev (s : State) : (s.clearFrameValid).dev = s.dev := rfl
@[simp] theorem State.clearFrameValid_devSynced (s : State) : (s.clearFrameValid).devSynced = s.devSynced := rfl
@[simp] theorem State.clearFrameValid_hostMoves (s : State) : (s.clearFrameValid).hostMoves = s.hostMoves := rfl
@[simp] theorem State.clearFrameValid_events (s : State) : (s.clearFrameValid).events = s.events := rfl
@[simp] theorem State.clearFrameValid_writes (s : State) : (s.clearFrameValid).writes = s.writes := rfl
@[simp] theorem State.clearFrameValid_draws (s : State) : (s.clearFrameValid).draws = s.draws := rfl

/-! ### `advanceOff` -/

@[simp] theorem State.advanceOff_canvas (s : State) : (s.advanceOff).canvas = s.canvas := rfl
@[simp] theorem State.advanceOff_frame (s : State) : (s.advanceOff).frame = s.frame := rfl
@[simp] theorem State.advanceOff_anim (s : State) : (s.advanceOff).anim = s.anim := rfl
@[simp] theorem State.advanceOff_work (s : State) : (s.advanceOff).work = s.work := rfl
@[simp] theorem State.advanceOff_off (s : State) : (s.advanceOff).off = 
    BitVec.ofNat 16 (s.off.toNat + min Config.maxPayload (s.work.total.toNat - s.off.toNat)) := rfl
@[simp] theorem State.advanceOff_result (s : State) : (s.advanceOff).result = s.result := rfl
@[simp] theorem State.advanceOff_errinfo (s : State) : (s.advanceOff).errinfo = s.errinfo := rfl
@[simp] theorem State.advanceOff_seq (s : State) : (s.advanceOff).seq = s.seq := rfl
@[simp] theorem State.advanceOff_status (s : State) : (s.advanceOff).status = s.status := rfl
@[simp] theorem State.advanceOff_tx (s : State) : (s.advanceOff).tx = s.tx := rfl
@[simp] theorem State.advanceOff_dev (s : State) : (s.advanceOff).dev = s.dev := rfl
@[simp] theorem State.advanceOff_devSynced (s : State) : (s.advanceOff).devSynced = s.devSynced := rfl
@[simp] theorem State.advanceOff_hostMoves (s : State) : (s.advanceOff).hostMoves = s.hostMoves := rfl
@[simp] theorem State.advanceOff_events (s : State) : (s.advanceOff).events = s.events := rfl
@[simp] theorem State.advanceOff_writes (s : State) : (s.advanceOff).writes = s.writes := rfl
@[simp] theorem State.advanceOff_draws (s : State) : (s.advanceOff).draws = s.draws := rfl

/-- Two states with equal fields are equal. -/
theorem State.eq_of_fields {s t : State} (canvas : t.canvas = s.canvas) (frame : t.frame = s.frame) (anim : t.anim = s.anim)
    (work : t.work = s.work) (off : t.off = s.off) (result : t.result = s.result) (errinfo : t.errinfo = s.errinfo)
    (seq : t.seq = s.seq) (status : t.status = s.status) (tx : t.tx = s.tx) (dev : t.dev = s.dev)
    (devSynced : t.devSynced = s.devSynced) (hostMoves : t.hostMoves = s.hostMoves) (events : t.events = s.events)
    (writes : t.writes = s.writes) (draws : t.draws = s.draws) : t = s := by
  cases s
  cases t
  simp_all

end Sys2Proof.Machine
end

