-- ==== Sys2Proof/Laws/Transport.lean ====
section
/-! SUPPORT. Laws of the transport: the coming events, everything one packet can do, and what the range loop keeps. -/

namespace Sys2Proof.Machine

/-! ### The coming events -/

theorem State.nextEvent_eq (s : State) : s.nextEvent = s.eventAt 0 := by
  unfold State.nextEvent State.eventAt
  cases s.events <;> rfl

/-- The events after `n` of them have happened. -/
theorem State.eventAt_after {s t : State} {n : Nat} (he : t.events = s.events.drop n) (hw : t.writes = s.writes + n)
    (k : Nat) : t.eventAt k = s.eventAt (n + k) := by
  unfold State.eventAt
  rw [he, hw, List.getD_eq_getElem?_getD, List.getD_eq_getElem?_getD, List.getElem?_drop, Nat.add_assoc]

theorem State.eventAt_congr {s t : State} (he : t.events = s.events) (hw : t.writes = s.writes) (k : Nat) :
    t.eventAt k = s.eventAt k := by
  unfold State.eventAt
  rw [he, hw]

/-- The first channel write of a state. -/
theorem chanWrite_eq (b : List Byte) (s : State) : chanWrite b s =
    match s.eventAt 0 with
    | .ok => .ok (s.takeEvent.logWrite b .ok b.length)
    | .fail e n => .fail e (s.takeEvent.logWrite b (.fail e) (min n b.length))
    | .resetBefore => .resetBefore s.takeEvent
    | .resetDuring e n => .resetDuring (s.takeEvent.logWrite b (.fail e) (min n b.length)) := by
  rw [← State.nextEvent_eq]; rfl

/-! ### The header -/

theorem hiByte_eq (a : Half) : hiByte a = BitVec.ofNat 8 (a.toNat / 256) := by
  apply BitVec.eq_of_toNat_eq
  simp [hiByte, Nat.shiftRight_eq_div_pow]

theorem loByte_eq (a : Half) : loByte a = BitVec.ofNat 8 (a.toNat % 256) := by
  apply BitVec.eq_of_toNat_eq
  simp [loByte]

/-- HDR holds the five bytes of 30_encoding R52. -/
theorem headerOf_toList (a : Half) (n : Nat) : (headerOf a (BitVec.ofNat 8 n)).toList = packetHeader a.toNat n := by
  simp [headerOf, packetHeader, hiByte_eq, loByte_eq]

@[simp] theorem packetHeader_length (a n : Nat) : (packetHeader a n).length = 5 := rfl

/-! ### One packet -/

/-- The state in which the header has been accepted. -/
def afterHeader (a : Half) (p : List Byte) (s : State) : State :=
  (((s.buildHeader a p.length).takeEvent).logWrite (packetHeader a.toNat p.length) .ok 5).devHeader

theorem afterHeader_eq (a : Half) (p : List Byte) (s : State) :
    (((s.buildHeader a p.length).takeEvent).logWrite (packetHeader a.toNat p.length) .ok 5).devHeader =
      afterHeader a p s := rfl

/-- An accepted header alone leaves a followed device as it is. -/
theorem afterHeader_dev {s : State} (hs : s.devSynced = true) (a : Half) (p : List Byte) :
    (afterHeader a p s).dev = s.dev := by
  show (if s.devSynced = true then s.dev else []) = s.dev
  rw [if_pos hs]

/-- Transaction 1 of a packet, by the event it meets. -/
theorem sendHeader_eq (a : Half) (n : Nat) (s : State) : sendHeader a n s =
    match s.eventAt 0 with
    | .ok => .done ((s.buildHeader a n).takeEvent.logWrite (packetHeader a.toNat n) .ok 5).devHeader
    | .fail e d => .failed e
        (((s.buildHeader a n).takeEvent.logWrite (packetHeader a.toNat n) (.fail e) (min d 5)).devCut a.toNat n)
    | .resetBefore => .reset (s.buildHeader a n).takeEvent
    | .resetDuring e d => .reset
        (((s.buildHeader a n).takeEvent.logWrite (packetHeader a.toNat n) (.fail e) (min d 5)).devCut a.toNat n) := by
  have h0 : (s.buildHeader a n).eventAt 0 = s.eventAt 0 := State.eventAt_congr rfl rfl 0
  have hh : (s.buildHeader a n).work.hdr.toList = packetHeader a.toNat n := headerOf_toList _ _
  have c := chanWrite_eq (s.buildHeader a n).work.hdr.toList (s.buildHeader a n)
  rw [h0, hh] at c
  unfold sendHeader
  rw [hh, c]
  rcases s.eventAt 0 with _ | _ | _ | _ <;> rfl

/-- Transaction 2 of a packet, by the event it meets. -/
theorem sendPayload_eq (a : Half) (p : List Byte) (s : State) : sendPayload a p s =
    match s.eventAt 0 with
    | .ok => .done ((s.takeEvent.logWrite p .ok p.length).devDeliver a.toNat p)
    | .fail e d => .failed e ((s.takeEvent.logWrite p (.fail e) (min d p.length)).devCut a.toNat p.length)
    | .resetBefore => .reset (s.takeEvent.devCut a.toNat p.length)
    | .resetDuring e d => .reset ((s.takeEvent.logWrite p (.fail e) (min d p.length)).devCut a.toNat p.length) := by
  unfold sendPayload
  rw [chanWrite_eq]
  rcases s.eventAt 0 with _ | _ | _ | _ <;> rfl

/-- Everything one packet can do, by the two events it meets (42_transport R83, R84; 60_exceptions R116). -/
theorem emitPacket_cases (a : Half) (p : List Byte) (s : State) :
    (∃ e d, s.eventAt 0 = .fail e d ∧ emitPacket a p s = .failed e
      (((s.buildHeader a p.length).takeEvent.logWrite (packetHeader a.toNat p.length) (.fail e) (min d 5)).devCut
        a.toNat p.length)) ∨
    (s.eventAt 0 = .resetBefore ∧ emitPacket a p s = .reset (s.buildHeader a p.length).takeEvent) ∨
    (∃ e d, s.eventAt 0 = .resetDuring e d ∧ emitPacket a p s = .reset
      (((s.buildHeader a p.length).takeEvent.logWrite (packetHeader a.toNat p.length) (.fail e) (min d 5)).devCut
        a.toNat p.length)) ∨
    (∃ e d, s.eventAt 0 = .ok ∧ s.eventAt 1 = .fail e d ∧ emitPacket a p s = .failed e
      (((afterHeader a p s).takeEvent.logWrite p (.fail e) (min d p.length)).devCut a.toNat p.length)) ∨
    (s.eventAt 0 = .ok ∧ s.eventAt 1 = .resetBefore ∧ emitPacket a p s = .reset
      ((afterHeader a p s).takeEvent.devCut a.toNat p.length)) ∨
    (∃ e d, s.eventAt 0 = .ok ∧ s.eventAt 1 = .resetDuring e d ∧ emitPacket a p s = .reset
      (((afterHeader a p s).takeEvent.logWrite p (.fail e) (min d p.length)).devCut a.toNat p.length)) ∨
    (s.eventAt 0 = .ok ∧ s.eventAt 1 = .ok ∧ emitPacket a p s = .done
      (((afterHeader a p s).takeEvent.logWrite p .ok p.length).devDeliver a.toNat p)) := by
  have h1 : (afterHeader a p s).eventAt 0 = s.eventAt 1 :=
    State.eventAt_after (n := 1) (by simp [afterHeader]) (by simp [afterHeader]) 0
  have c0 := sendHeader_eq a p.length s
  have c1 := sendPayload_eq a p (afterHeader a p s)
  rw [h1] at c1
  unfold emitPacket
  rcases e0 : s.eventAt 0 with _ | ⟨e, d⟩ | _ | ⟨e, d⟩ <;> rw [e0] at c0 <;> simp only at c0 <;> rw [c0]
  · rw [afterHeader_eq]
    rcases e1 : s.eventAt 1 with _ | ⟨e, d⟩ | _ | ⟨e, d⟩ <;> rw [e1] at c1 <;> simp only at c1 <;>
      simp [Progress.andThen, c1]
  all_goals simp [Progress.andThen]

/-- What follows a packet needs to be said only of the states it can be done in. -/
theorem Progress.andThen_congr {p : Progress} {f g : State → Progress} (h : ∀ t, p = .done t → f t = g t) :
    p.andThen f = p.andThen g := by
  cases p with
  | done t => exact h t rfl
  | failed e t => rfl
  | reset t => rfl

/-- What every packet and range leaves alone, whatever the channel does. (Of a range's packets each ends in RESULT 0.) -/
structure TransportKept (s t : State) : Prop where
  canvas : t.canvas = s.canvas
  frame : t.frame = s.frame
  anim : t.anim = s.anim
  errinfo : t.errinfo = s.errinfo
  seq : t.seq = s.seq
  status : t.status = s.status
  hostMoves : t.hostMoves = s.hostMoves
  draws : t.draws = s.draws
  j : t.work.j = s.work.j
  i : t.work.i = s.work.i
  k : t.work.k = s.work.k
  acc : t.work.acc = s.work.acc
  fillv : t.work.fillv = s.work.fillv

theorem TransportKept.refl (s : State) : TransportKept s s := by constructor <;> rfl

theorem TransportKept.trans {s t u : State} (h : TransportKept s t) (g : TransportKept t u) : TransportKept s u :=
  ⟨g.1.trans h.1, g.2.trans h.2, g.3.trans h.3, g.4.trans h.4, g.5.trans h.5, g.6.trans h.6, g.7.trans h.7,
    g.8.trans h.8, g.9.trans h.9, g.10.trans h.10, g.11.trans h.11, g.12.trans h.12, g.13.trans h.13⟩

/-- The state a transport command has reached. -/
def Progress.state : Progress → State
  | .done s => s
  | .failed _ s => s
  | .reset s => s

@[simp] theorem Progress.state_done (s : State) : (Progress.done s).state = s := rfl
@[simp] theorem Progress.state_failed (e : ErrInfo) (s : State) : (Progress.failed e s).state = s := rfl
@[simp] theorem Progress.state_reset (s : State) : (Progress.reset s).state = s := rfl
@[simp] theorem Progress.done_andThen (s : State) (f : State → Progress) : (Progress.done s).andThen f = f s := rfl
@[simp] theorem Progress.failed_andThen (e : ErrInfo) (s : State) (f : State → Progress) :
    (Progress.failed e s).andThen f = .failed e s := rfl
@[simp] theorem Progress.reset_andThen (s : State) (f : State → Progress) : (Progress.reset s).andThen f = .reset s := rfl

@[simp] theorem Progress.finish_done (r : State → State) (s : State) : (Progress.done s).finish r = (r s).complete := rfl
@[simp] theorem Progress.finish_failed (r : State → State) (e : ErrInfo) (s : State) :
    (Progress.failed e s).finish r = (r s).raiseTransportError e := rfl
@[simp] theorem Progress.finish_reset (r : State → State) (s : State) : (Progress.reset s).finish r = s.assertReset := rfl
@[simp] theorem Progress.finishTurn_done (r : State → State) (s : State) :
    (Progress.done s).finishTurn r = (r s).keepRunning := rfl
@[simp] theorem Progress.finishTurn_failed (r : State → State) (e : ErrInfo) (s : State) :
    (Progress.failed e s).finishTurn r = (r s).raiseTransportError e := rfl
@[simp] theorem Progress.finishTurn_reset (r : State → State) (s : State) :
    (Progress.reset s).finishTurn r = s.assertReset := rfl

/-- A packet keeps what the transport keeps, and OFF and TOTAL. -/
theorem emitPacket_kept (a : Half) (p : List Byte) (s : State) :
    TransportKept s (emitPacket a p s).state ∧ (emitPacket a p s).state.off = s.off ∧
      (emitPacket a p s).state.work.total = s.work.total := by
  rcases emitPacket_cases a p s with ⟨e, d, -, h⟩ | ⟨-, h⟩ | ⟨e, d, -, h⟩ | ⟨e, d, -, -, h⟩ | ⟨-, -, h⟩ |
    ⟨e, d, -, -, h⟩ | ⟨-, -, h⟩ <;> rw [h] <;> refine ⟨?_, ?_, ?_⟩ <;> (try constructor) <;> simp [afterHeader]

/-- A packet by itself writes no RESULT: the command or the range it belongs to does. -/
theorem emitPacket_result (a : Half) (p : List Byte) (s : State) : (emitPacket a p s).state.result = s.result := by
  rcases emitPacket_cases a p s with ⟨e, d, -, h⟩ | ⟨-, h⟩ | ⟨e, d, -, h⟩ | ⟨e, d, -, -, h⟩ | ⟨-, -, h⟩ |
    ⟨e, d, -, -, h⟩ | ⟨-, -, h⟩ <;> rw [h] <;> simp [afterHeader]

/-- A range keeps what the transport keeps. -/
theorem sendLoop_kept (turns : Nat) (start : Half) (data : List Byte) (s : State) :
    TransportKept s (sendLoop turns start data s).state := by
  induction turns generalizing s with
  | zero => exact TransportKept.refl s
  | succ n ih =>
    rw [sendLoop]
    split
    · have hk := fun a p => (emitPacket_kept a p s).1
      generalize hg : emitPacket _ _ s = r
      replace hk : TransportKept s r.state := hg ▸ hk _ _
      cases r with
      | done t =>
        rw [Progress.done_andThen]
        refine TransportKept.trans ?_ (ih _)
        exact ⟨hk.1, hk.2, hk.3, hk.4, hk.5, hk.6, hk.7, hk.8, hk.9, hk.10, hk.11, hk.12, hk.13⟩
      | failed e t => exact hk
      | reset t => exact hk
    · exact TransportKept.refl s

/-! ### The range loop, turn by turn -/

theorem take_min_length (l : List Byte) (n : Nat) : l.take (min n l.length) = l.take n := by
  rcases Nat.le_total n l.length with h | h
  · rw [Nat.min_eq_left h]
  · rw [Nat.min_eq_right h, List.take_length, List.take_of_length_le h]

theorem chunkAt_length (data : List Byte) (m : Nat) : (chunkAt data m).length = min 255 (data.length - 255 * m) := by
  simp [chunkAt]

theorem inFrameMemory_iff (a n : Nat) : inFrameMemory a n = true ↔ a + n ≤ 1008 := by
  simp [inFrameMemory, Config.frameSize, Config.groups, Config.rows, Config.width, Config.height]

/-- A loop that has sent everything is done. -/
theorem sendLoop_done {s : State} (turns : Nat) (start : Half) (data : List Byte)
    (h : s.work.total.toNat ≤ s.off.toNat) : sendLoop turns start data s = .done s := by
  cases turns with
  | zero => rfl
  | succ n => rw [sendLoop, if_neg (by omega)]

/-- A turn with data left is the packet of the chunk at OFF, then OFF advanced by the chunk (42_transport R88, R92). -/
theorem sendLoop_turn {s : State} {start : Half} {data : List Byte} {m : Nat} (turns : Nat)
    (hr : start.toNat + data.length ≤ 1008) (ht : s.work.total.toNat = data.length) (ho : s.off.toNat = 255 * m)
    (hm : 255 * m < data.length) :
    ∃ a : Half, a.toNat = start.toNat + 255 * m ∧ sendLoop (turns + 1) start data s =
      (emitPacket a (chunkAt data m) s).andThen fun t =>
        sendLoop turns start data
          { t with result := resultOk, off := BitVec.ofNat 16 (255 * m + (chunkAt data m).length) } := by
  refine ⟨BitVec.ofNat 16 (start.toNat + 255 * m), ?_, ?_⟩
  · rw [BitVec.toNat_ofNat, Nat.mod_eq_of_lt (by omega)]
  · have hc : (data.drop (255 * m)).take (min 255 (data.length - 255 * m)) = chunkAt data m := by
      rw [← List.length_drop, take_min_length]; rfl
    rw [sendLoop, if_pos (by omega), State.chunkAddress, State.chunkBytes, ht, ho, hc]
    refine Progress.andThen_congr fun t hd => ?_
    obtain ⟨-, k1, k2⟩ := emitPacket_kept (BitVec.ofNat 16 (start.toNat + 255 * m)) (chunkAt data m) s
    rw [hd] at k1 k2
    have k1 : t.off = s.off := k1
    have k2 : t.work.total = s.work.total := k2
    rw [State.advanceOff, State.succeed_off, State.succeed_work, k1, k2, ho, ht, chunkAt_length]
    rfl

/-- What a run of accepted packets has done: packets `m` to `m + k - 1` are in TX and delivered. -/
structure SentChunks (start : Nat) (data : List Byte) (m k : Nat) (s t : State) : Prop where
  kept : TransportKept s t
  total : t.work.total = s.work.total
  off : t.off.toNat = min (255 * (m + k)) data.length
  tx : t.tx = s.tx ++ (List.range k).flatMap fun i => packetEntries (start + 255 * (m + i)) (chunkAt data (m + i))
  events : t.events = s.events.drop (2 * k)
  writes : t.writes = s.writes + 2 * k
  synced : t.devSynced = s.devSynced
  dev : s.devSynced = true → ∀ x, Memory.read t.dev x =
    if start + 255 * m ≤ x ∧ x < start + min (255 * (m + k)) data.length then data[x - start]? else Memory.read s.dev x

theorem headerEntry (a : Nat) (p : List Byte) :
    ({ bytes := packetHeader a p.length, outcome := .ok, delivered := 5 } : TxEntry) =
      sentOk (packetHeader a p.length) := rfl

/-- One accepted packet of a range. -/
theorem emitPacket_accepted {s : State} {start : Nat} {a : Half} {data : List Byte} {m : Nat}
    (ha : a.toNat = start + 255 * m) (hr : start + data.length ≤ 1008) (hm : 255 * m < data.length)
    (e0 : s.eventAt 0 = .ok) (e1 : s.eventAt 1 = .ok) :
    ∃ t, emitPacket a (chunkAt data m) s = .done t ∧ SentChunks start data m 1 s
      { t with result := resultOk, off := BitVec.ofNat 16 (255 * m + (chunkAt data m).length) } := by
  have hl := chunkAt_length data m
  have hin : inFrameMemory a.toNat (chunkAt data m).length = true := (inFrameMemory_iff _ _).2 (by omega)
  rcases emitPacket_cases a (chunkAt data m) s with ⟨e, d, h0, -⟩ | ⟨h0, -⟩ | ⟨e, d, h0, -⟩ | ⟨e, d, -, h1, -⟩ |
    ⟨-, h1, -⟩ | ⟨e, d, -, h1, -⟩ | ⟨-, -, h⟩
  · simp [e0] at h0
  · simp [e0] at h0
  · simp [e0] at h0
  · simp [e1] at h1
  · simp [e1] at h1
  · simp [e1] at h1
  · refine ⟨_, h, ?_⟩
    constructor
    · constructor <;> simp [afterHeader]
    · simp [afterHeader]
    · simp only [BitVec.toNat_ofNat]
      rw [Nat.mod_eq_of_lt (by omega)]
      omega
    · simp [afterHeader, packetEntries, sentOk, ha]
    · simp only [State.devDeliver_events, State.logWrite_events, State.takeEvent_events, afterHeader, State.devHeader_events,
        State.buildHeader_events]
      rw [← List.drop_one, ← List.drop_one, List.drop_drop]
    · simp [afterHeader]
    · by_cases hs : s.devSynced = true
      · simp [State.devDeliver, afterHeader, hin, hs]
      · simp [State.devDeliver, afterHeader, hs]
    · intro hs x
      have hd : Memory.read (((afterHeader a (chunkAt data m) s).takeEvent.logWrite (chunkAt data m) .ok
          (chunkAt data m).length).devDeliver a.toNat (chunkAt data m)).dev x =
          Memory.read (Memory.writeRange s.dev a.toNat (chunkAt data m)) x := by
        simp [State.devDeliver, afterHeader, hin, hs]
      rw [hd, Memory.read_writeRange, hl, ha]
      by_cases hx : start + 255 * m ≤ x ∧ x < start + 255 * m + min 255 (data.length - 255 * m)
      · have hx' : start + 255 * m ≤ x ∧ x < start + min (255 * (m + 1)) data.length := by omega
        rw [if_pos hx, if_pos hx', chunkAt, List.getElem?_take, if_pos (by omega), List.getElem?_drop]
        congr 1
        omega
      · have hx' : ¬ (start + 255 * m ≤ x ∧ x < start + min (255 * (m + 1)) data.length) := by omega
        rw [if_neg hx, if_neg hx']

/-- No packet sent yet. -/
theorem SentChunks.none {start : Nat} {data : List Byte} {m : Nat} {s : State} (ho : s.off.toNat = min (255 * m) data.length) :
    SentChunks start data m 0 s s := by
  refine ⟨TransportKept.refl s, rfl, ho, by simp, by simp, by simp, rfl, fun _ x => ?_⟩
  rw [if_neg (by omega)]

/-- One more packet after the first `k`. -/
theorem SentChunks.more {start : Nat} {data : List Byte} {m k : Nat} {s t u : State}
    (h : SentChunks start data m k s t) (g : SentChunks start data (m + k) 1 t u) :
    SentChunks start data m (k + 1) s u := by
  refine ⟨h.kept.trans g.kept, g.total.trans h.total, ?_, ?_, ?_, ?_, g.synced.trans h.synced, fun hs x => ?_⟩
  · rw [g.off, Nat.add_assoc]
  · rw [g.tx, h.tx]
    simp [List.range_succ, Nat.add_assoc]
  · rw [g.events, h.events, List.drop_drop]
    congr 1
  · rw [g.writes, h.writes]; omega
  · rw [g.dev (h.synced.trans hs), h.dev hs]
    split_ifs <;> first | rfl | (exfalso; omega)

/-- The first `k` turns of a range whose `2 * k` writes are accepted. -/
theorem sendLoop_turns {s : State} {start : Half} {data : List Byte} (k turns : Nat)
    (hr : start.toNat + data.length ≤ 1008) (ht : s.work.total.toNat = data.length) (ho : s.off.toNat = 0)
    (hk : k ≤ (data.length + 254) / 255) (hok : s.allOk (2 * k)) :
    ∃ t, sendLoop (turns + k) start data s = sendLoop turns start data t ∧
      SentChunks start.toNat data 0 k s t := by
  induction k generalizing turns with
  | zero => exact ⟨s, rfl, SentChunks.none (by omega)⟩
  | succ k ih =>
    obtain ⟨t, h1, h2⟩ := ih (turns + 1) (by omega) fun i hi => hok i (by omega)
    have ho' : t.off.toNat = 255 * k := by rw [h2.off]; omega
    obtain ⟨a, ha, hl⟩ := sendLoop_turn (s := t) turns hr (by rw [h2.total, ht]) ho' (by omega)
    have e0 : t.eventAt 0 = .ok := by
      rw [State.eventAt_after h2.events h2.writes]; exact hok _ (by omega)
    have e1 : t.eventAt 1 = .ok := by
      rw [State.eventAt_after h2.events h2.writes]; exact hok _ (by omega)
    obtain ⟨u, hu, hs⟩ := emitPacket_accepted ha hr (by omega) e0 e1
    refine ⟨_, ?_, h2.more (by rw [Nat.zero_add]; exact hs)⟩
    rw [show turns + (k + 1) = turns + 1 + k by omega, h1, hl, hu, Progress.done_andThen]

end Sys2Proof.Machine
end

