-- ==== Sys2Proof/Laws/Trace.lean ====
section
/-! SUPPORT. What the transport does whatever the channel answers: the trace it leaves in TX and the device bytes it
does not address. -/

namespace Sys2Proof.Machine

theorem isHeader_packetHeader {a n : Nat} (h1 : 1 ≤ n) (h2 : n ≤ 255) (hr : a + n ≤ 1008) :
    isHeader (packetHeader a n) = true := by
  have hn : (BitVec.ofNat 8 n).toNat = n := by rw [BitVec.toNat_ofNat, Nat.mod_eq_of_lt (by omega)]
  have hz : BitVec.ofNat 8 n ≠ 0#8 := fun h => by
    have := congrArg BitVec.toNat h
    rw [hn] at this
    simp at this
    omega
  simp only [isHeader, packetHeader, decide_eq_true_eq]
  refine ⟨trivial, trivial, hz, ?_⟩
  simp only [BitVec.toNat_ofNat]
  omega

theorem packetHeader_len {a n : Nat} (h2 : n ≤ 255) : ((packetHeader a n).getD 4 0#8).toNat = n := by
  have : (packetHeader a n).getD 4 0#8 = BitVec.ofNat 8 n := rfl
  rw [this, BitVec.toNat_ofNat, Nat.mod_eq_of_lt (by omega)]

theorem sentOk_wf {b : List Byte} (h1 : 1 ≤ b.length) (h2 : b.length ≤ 255) : (sentOk b).wf :=
  ⟨h1, h2, le_refl _, fun _ => rfl⟩

theorem sentFail_wf {b : List Byte} (e : ErrInfo) (n : Nat) (h1 : 1 ≤ b.length) (h2 : b.length ≤ 255) :
    (sentFail b e n).wf :=
  ⟨h1, h2, Nat.min_le_right _ _, fun h => by simp [sentFail] at h⟩

/-- Entries that TX may gain: a packet trace of well-formed entries. -/
structure GoodTrace (cut : Bool) (new : List TxEntry) : Prop where
  trace : isPacketTrace cut new = true
  wf : ∀ e ∈ new, e.wf

theorem GoodTrace.nil (cut : Bool) : GoodTrace cut [] := ⟨rfl, by simp⟩

/-- The work was cut off by RESET. -/
def Progress.wasReset : Progress → Bool
  | .done _ => false
  | .failed _ _ => false
  | .reset _ => true

/-- An accepted packet before a good trace is a good trace. -/
theorem GoodTrace.packet {a : Nat} {p : List Byte} (h1 : 1 ≤ p.length) (h2 : p.length ≤ 255) (hr : a + p.length ≤ 1008)
    {cut : Bool} {rest : List TxEntry} (h : GoodTrace cut rest) : GoodTrace cut (packetEntries a p ++ rest) := by
  refine ⟨?_, fun e he => ?_⟩
  · simp only [packetEntries, List.cons_append, List.nil_append, isPacketTrace, sentOk,
      isHeader_packetHeader h1 h2 hr, packetHeader_len h2, h.trace]
    simp
  · simp only [packetEntries, List.cons_append, List.nil_append, List.mem_cons] at he
    rcases he with rfl | rfl | he
    · exact sentOk_wf (by simp) (by simp)
    · exact sentOk_wf h1 h2
    · exact h.wf e he

/-- What one packet adds to TX: the packet when it is done, a good trace anyway. -/
theorem emitPacket_trace (a : Half) (p : List Byte) (s : State) (h1 : 1 ≤ p.length) (h2 : p.length ≤ 255)
    (hr : a.toNat + p.length ≤ 1008) :
    ∃ new, (emitPacket a p s).state.tx = s.tx ++ new ∧ GoodTrace (emitPacket a p s).wasReset new ∧
      ∀ t, emitPacket a p s = .done t → new = packetEntries a.toNat p := by
  have hh := isHeader_packetHeader h1 h2 hr
  have hl : ((packetHeader a.toNat p.length).getD 4 0#8).toNat = p.length := packetHeader_len h2
  rcases emitPacket_cases a p s with ⟨e, d, -, h⟩ | ⟨-, h⟩ | ⟨e, d, -, h⟩ | ⟨e, d, -, -, h⟩ | ⟨-, -, h⟩ |
    ⟨e, d, -, -, h⟩ | ⟨-, -, h⟩ <;> rw [h]
  · exact ⟨[sentFail (packetHeader a.toNat p.length) e d], by simp [sentFail], ⟨by simp [isPacketTrace, sentFail, hh], by
      simpa using sentFail_wf e d (by simp) (by simp)⟩, fun t ht => by cases ht⟩
  · exact ⟨[], by simp, GoodTrace.nil _, fun t ht => by cases ht⟩
  · exact ⟨[sentFail (packetHeader a.toNat p.length) e d], by simp [sentFail], ⟨by simp [isPacketTrace, sentFail, hh], by
      simpa using sentFail_wf e d (by simp) (by simp)⟩, fun t ht => by cases ht⟩
  · refine ⟨[sentOk (packetHeader a.toNat p.length), sentFail p e d], by simp [afterHeader, sentOk, sentFail],
      ⟨?_, ?_⟩, fun t ht => by cases ht⟩
    · simp only [isPacketTrace, sentOk, sentFail, hh, hl]; simp
    · simpa using ⟨sentOk_wf (b := packetHeader a.toNat p.length) (by simp) (by simp), sentFail_wf e d h1 h2⟩
  · exact ⟨[sentOk (packetHeader a.toNat p.length)], by simp [afterHeader, sentOk], ⟨by
      simp [isPacketTrace, sentOk, hh, Progress.wasReset], by
      simpa using sentOk_wf (b := packetHeader a.toNat p.length) (by simp) (by simp)⟩, fun t ht => by cases ht⟩
  · refine ⟨[sentOk (packetHeader a.toNat p.length), sentFail p e d], by simp [afterHeader, sentOk, sentFail],
      ⟨?_, ?_⟩, fun t ht => by cases ht⟩
    · simp only [isPacketTrace, sentOk, sentFail, hh, hl]; simp
    · simpa using ⟨sentOk_wf (b := packetHeader a.toNat p.length) (by simp) (by simp), sentFail_wf e d h1 h2⟩
  · refine ⟨packetEntries a.toNat p, by simp [afterHeader, packetEntries, sentOk], ?_, fun _ _ => rfl⟩
    have h := (GoodTrace.nil false).packet h1 h2 hr
    rwa [List.append_nil] at h

/-- An accepted header keeps DEV canonical. -/
theorem afterHeader_dev_wf {s : State} (a : Half) (p : List Byte) (h : Memory.wf 1008 s.dev) :
    Memory.wf 1008 (afterHeader a p s).dev := by
  show Memory.wf 1008 (if s.devSynced then s.dev else [])
  split
  · exact h
  · exact Memory.wf_nil _

/-- The device bytes outside a packet's range stay, and DEV stays canonical. -/
theorem emitPacket_dev (a : Half) (p : List Byte) (s : State) (hr : a.toNat + p.length ≤ 1008) :
    (Memory.wf 1008 s.dev → Memory.wf 1008 (emitPacket a p s).state.dev) ∧
    (s.devSynced = true →
      (∀ x, x < a.toNat ∨ a.toNat + p.length ≤ x →
        Memory.read (emitPacket a p s).state.dev x = Memory.read s.dev x) ∧
      ∀ t, emitPacket a p s = .done t → t.devSynced = true) := by
  have hin := (inFrameMemory_iff a.toNat p.length).2 hr
  rcases emitPacket_cases a p s with ⟨e, d, -, h⟩ | ⟨-, h⟩ | ⟨e, d, -, h⟩ | ⟨e, d, -, -, h⟩ | ⟨-, -, h⟩ |
    ⟨e, d, -, -, h⟩ | ⟨-, -, h⟩ <;> rw [h] <;>
    refine ⟨fun hw => ?_, fun hs => ⟨fun x hx => ?_, fun t ht => ?_⟩⟩ <;> (try cases ht)
  all_goals first
    | (simp only [Progress.state, State.devCut, State.devDeliver]
       split
       · first
           | exact Memory.wf_forget hw _ _
           | exact Memory.wf_forget (afterHeader_dev_wf a p hw) _ _
           | exact Memory.wf_writeRange (afterHeader_dev_wf a p hw) hr
       · exact Memory.wf_nil _)
    | exact hw
    | (have hn : ¬ (a.toNat ≤ x ∧ x < a.toNat + p.length) := by omega
       simp [State.devCut, State.devDeliver, afterHeader, hin, hs, Memory.read_forget, Memory.read_writeRange, hn])
    | simp
    | simp [State.devDeliver, afterHeader, hin, hs]

/-- The device is followed no more, and since then nothing went on the channel, or none of its bytes is known (60_exceptions
R118; log 11). -/
structure Lost (s t : State) : Prop where
  synced : t.devSynced = false
  dev : t.tx = s.tx ∧ t.dev = s.dev ∨ t.dev = []

theorem Lost.refl {s : State} (h : s.devSynced = false) : Lost s s := ⟨h, .inl ⟨rfl, rfl⟩⟩

theorem Lost.trans {s t u : State} (h : Lost s t) (g : Lost t u) : Lost s u := by
  refine ⟨g.synced, ?_⟩
  rcases g.dev with ⟨g1, g2⟩ | g2
  · rw [g1, g2]
    exact h.dev
  · exact .inr g2

theorem Lost.devCut {s : State} (h : s.devSynced = false) (r : State) (a n : Nat) : Lost r (s.devCut a n) := by
  rw [State.devCut, h]
  exact ⟨rfl, .inr rfl⟩

theorem Lost.devDeliver {s : State} (h : s.devSynced = false) (r : State) (a : Nat) (p : List Byte) :
    Lost r (s.devDeliver a p) := by
  rw [State.devDeliver, h]
  exact ⟨rfl, .inr rfl⟩

/-- A header keeps a device lost. -/
theorem sendHeader_lost {s : State} (h : s.devSynced = false) (a : Half) (n : Nat) : Lost s (sendHeader a n s).state := by
  rw [sendHeader_eq]
  rcases s.eventAt 0 with _ | _ | _ | _
  · exact ⟨h, .inr (by simp [h])⟩
  · exact Lost.devCut (by simpa using h) _ _ _
  · exact ⟨h, .inl ⟨rfl, rfl⟩⟩
  · exact Lost.devCut (by simpa using h) _ _ _

/-- A payload keeps a device lost. -/
theorem sendPayload_lost {s : State} (h : s.devSynced = false) (a : Half) (p : List Byte) :
    Lost s (sendPayload a p s).state := by
  rw [sendPayload_eq]
  rcases s.eventAt 0 with _ | _ | _ | _
  · exact Lost.devDeliver (by simpa using h) _ _ _
  · exact Lost.devCut (by simpa using h) _ _ _
  · exact Lost.devCut (by simpa using h) _ _ _
  · exact Lost.devCut (by simpa using h) _ _ _

/-- What comes after work that keeps a device lost, and keeps it lost, does so in all. -/
theorem Lost.andThen {s : State} {p : Progress} {f : State → Progress} (h : Lost s p.state)
    (g : ∀ t, t.devSynced = false → Lost t (f t).state) : Lost s (p.andThen f).state := by
  cases p with
  | done t => exact h.trans (g t h.synced)
  | failed e t => exact h
  | reset t => exact h

/-- A packet keeps a device lost. -/
theorem emitPacket_lost {s : State} (h : s.devSynced = false) (a : Half) (p : List Byte) :
    Lost s (emitPacket a p s).state :=
  (sendHeader_lost h a p.length).andThen fun _ ht => sendPayload_lost ht a p

/-- A range keeps a device lost. -/
theorem sendLoop_lost {s : State} (h : s.devSynced = false) (turns : Nat) (start : Half) (data : List Byte) :
    Lost s (sendLoop turns start data s).state := by
  induction turns generalizing s with
  | zero => exact Lost.refl h
  | succ n ih =>
    rw [sendLoop]
    split
    · exact (emitPacket_lost h _ _).andThen fun t ht => ⟨(ih (s := t.succeed.advanceOff) ht).synced,
        (ih (s := t.succeed.advanceOff) ht).dev⟩
    · exact Lost.refl h

/-- One turn of the loop with data left, from any OFF below TOTAL. -/
theorem sendLoop_next {s : State} {start : Half} {data : List Byte} (turns : Nat)
    (hr : start.toNat + s.work.total.toNat ≤ 1008) (hd : s.work.total.toNat ≤ data.length)
    (ho : s.off.toNat < s.work.total.toNat) :
    ∃ (a : Half) (p : List Byte), 1 ≤ p.length ∧ p.length ≤ 255 ∧ a.toNat = start.toNat + s.off.toNat ∧
      s.off.toNat + p.length ≤ s.work.total.toNat ∧
      sendLoop (turns + 1) start data s = (emitPacket a p s).andThen fun t =>
        sendLoop turns start data { t with result := resultOk, off := BitVec.ofNat 16 (s.off.toNat + p.length) } := by
  have hl : ((data.drop s.off.toNat).take (min 255 (s.work.total.toNat - s.off.toNat))).length =
      min 255 (s.work.total.toNat - s.off.toNat) := by
    rw [List.length_take, List.length_drop]; omega
  refine ⟨BitVec.ofNat 16 (start.toNat + s.off.toNat),
    (data.drop s.off.toNat).take (min 255 (s.work.total.toNat - s.off.toNat)), by omega, by omega, ?_, by omega, ?_⟩
  · rw [BitVec.toNat_ofNat, Nat.mod_eq_of_lt (by omega)]
  · rw [sendLoop, if_pos ho]
    refine Progress.andThen_congr fun t hd => ?_
    obtain ⟨-, k1, k2⟩ := emitPacket_kept (s.chunkAddress start) (s.chunkBytes data) s
    rw [hd] at k1 k2
    have k1 : t.off = s.off := k1
    have k2 : t.work.total = s.work.total := k2
    rw [State.advanceOff, State.succeed_off, State.succeed_work, k1, k2, hl]
    rfl

/-- Whatever the channel answers, a range adds a good trace to TX. -/
theorem sendLoop_trace (turns : Nat) (start : Half) (data : List Byte) (s : State)
    (hr : start.toNat + s.work.total.toNat ≤ 1008) (hd : s.work.total.toNat ≤ data.length) :
    ∃ new, (sendLoop turns start data s).state.tx = s.tx ++ new ∧
      GoodTrace (sendLoop turns start data s).wasReset new := by
  induction turns generalizing s with
  | zero => exact ⟨[], by simp [sendLoop], GoodTrace.nil _⟩
  | succ n ih =>
    by_cases ho : s.off.toNat < s.work.total.toNat
    · obtain ⟨a, p, h1, h2, ha, hp, he⟩ := sendLoop_next n hr hd ho
      obtain ⟨new, hn, hg, hdone⟩ := emitPacket_trace a p s h1 h2 (by omega)
      have hk := (emitPacket_kept a p s).2.2
      rw [he]
      generalize hq : emitPacket a p s = q at *
      cases q with
      | done t =>
        obtain ⟨new', hn', hg'⟩ := ih { t with result := resultOk, off := BitVec.ofNat 16 (s.off.toNat + p.length) }
          (by simpa using hk ▸ hr) (by simpa using hk ▸ hd)
        refine ⟨new ++ new', ?_, ?_⟩
        · rw [Progress.done_andThen, hn']
          have : t.tx = s.tx ++ new := hn
          simp [this]
        · rw [hdone t rfl, Progress.done_andThen]
          exact hg'.packet h1 h2 (by omega)
      | failed e t => exact ⟨new, hn, hg⟩
      | reset t => exact ⟨new, hn, hg⟩
    · rw [sendLoop_done _ _ _ (by omega)]
      exact ⟨[], by simp, GoodTrace.nil _⟩

/-- Whatever the channel answers, a range leaves the device bytes it does not address, and DEV canonical. -/
theorem sendLoop_dev (turns : Nat) (start : Half) (data : List Byte) (s : State)
    (hr : start.toNat + s.work.total.toNat ≤ 1008) (hd : s.work.total.toNat ≤ data.length) :
    (Memory.wf 1008 s.dev → Memory.wf 1008 (sendLoop turns start data s).state.dev) ∧
    (s.devSynced = true → ∀ x, x < start.toNat ∨ start.toNat + s.work.total.toNat ≤ x →
      Memory.read (sendLoop turns start data s).state.dev x = Memory.read s.dev x) := by
  induction turns generalizing s with
  | zero => exact ⟨id, fun _ _ _ => rfl⟩
  | succ n ih =>
    by_cases ho : s.off.toNat < s.work.total.toNat
    · obtain ⟨a, p, h1, h2, ha, hp, he⟩ := sendLoop_next n hr hd ho
      obtain ⟨hw, hx⟩ := emitPacket_dev a p s (by omega)
      have hk := (emitPacket_kept a p s).2.2
      rw [he]
      generalize hq : emitPacket a p s = q at *
      cases q with
      | done t =>
        have hkt : t.work.total = s.work.total := hk
        obtain ⟨hw', hx'⟩ := ih { t with result := resultOk, off := BitVec.ofNat 16 (s.off.toNat + p.length) }
          (by simpa [hkt] using hr) (by simpa [hkt] using hd)
        refine ⟨fun h => hw' (hw h), fun hs x hxr => ?_⟩
        obtain ⟨hout, hsync⟩ := hx hs
        rw [Progress.done_andThen, hx' (hsync t rfl) x (by simpa [hkt] using hxr)]
        exact hout x (by omega)
      | failed e t => exact ⟨hw, fun hs x hxr => (hx hs).1 x (by omega)⟩
      | reset t => exact ⟨hw, fun hs x hxr => (hx hs).1 x (by omega)⟩
    · rw [sendLoop_done _ _ _ (by omega)]
      exact ⟨id, fun _ _ _ => rfl⟩

end Sys2Proof.Machine
end

