-- ==== Sys2Proof/Laws/Range.lean ====
section
/-! SUPPORT. Laws of SEND_RANGE: accepted in full, failed at one packet, no RESET; and that its work depends only on what
the wire needs. -/

namespace Sys2Proof.Machine

theorem chunkCount_eq (n : Nat) : chunkCount n = (n + 254) / 255 := rfl

theorem sendRangeFrom_eq (start : Half) (data : List Byte) (s : State) :
    sendRangeFrom start data s = sendLoop (chunkCount data.length) start data (rangeStart data s) := rfl

theorem rangeStart_kept (data : List Byte) (s : State) : TransportKept s (rangeStart data s) := by constructor <;> rfl

theorem rangeStart_total {data : List Byte} (s : State) (h : data.length ≤ 1008) :
    (rangeStart data s).work.total.toNat = data.length := by
  show (BitVec.ofNat 16 data.length).toNat = _
  rw [BitVec.toNat_ofNat, Nat.mod_eq_of_lt (by omega)]

/-- A range whose writes are all accepted is done, and has sent every chunk. -/
theorem sendRangeFrom_accepted {s : State} {start : Half} {data : List Byte} (hr : start.toNat + data.length ≤ 1008)
    (hok : s.allOk (2 * ((data.length + 254) / 255))) :
    ∃ t, sendRangeFrom start data s = .done t ∧
      SentChunks start.toNat data 0 ((data.length + 254) / 255) (rangeStart data s) t := by
  obtain ⟨t, h1, h2⟩ := sendLoop_turns (s := rangeStart data s) ((data.length + 254) / 255) 0 hr
    (rangeStart_total s (by omega)) rfl (le_refl _) hok
  exact ⟨t, by rw [sendRangeFrom_eq, chunkCount_eq, ← Nat.zero_add ((data.length + 254) / 255), h1]; rfl, h2⟩

/-- What a range that failed at packet `k` has done, `last` being the entries of that packet. -/
structure RangeFailed (start : Nat) (data : List Byte) (k : Nat) (last : List TxEntry) (s t : State) : Prop where
  kept : TransportKept s t
  off : t.off = BitVec.ofNat 16 (255 * k)
  tx : t.tx = s.tx ++ firstPackets start data k ++ last
  synced : t.devSynced = false
  dev : s.devSynced = true → ∀ x, Memory.read t.dev x =
    if start ≤ x ∧ x < start + 255 * k then data[x - start]?
    else if start + 255 * k ≤ x ∧ x < start + 255 * k + (chunkAt data k).length then none
    else Memory.read s.dev x

theorem State.devCut_synced (s : State) (a n : Nat) : (s.devCut a n).devSynced = false := by
  unfold State.devCut
  split <;> rfl

theorem State.read_devCut {s : State} {a n : Nat} (hs : s.devSynced = true) (h : a + n ≤ 1008) (x : Nat) :
    Memory.read (s.devCut a n).dev x = if a ≤ x ∧ x < a + n then none else Memory.read s.dev x := by
  have hin := (inFrameMemory_iff a n).2 h
  simp [State.devCut, hs, hin, Memory.read_forget]

/-- A range whose first `k` packets are accepted is at packet `k`. -/
theorem sendRangeFrom_at {s : State} {start : Half} {data : List Byte} {k : Nat} (hr : start.toNat + data.length ≤ 1008)
    (hk : k < (data.length + 254) / 255) (hok : s.allOk (2 * k)) :
    ∃ (t : State) (a : Half) (rest : State → Progress), a.toNat = start.toNat + 255 * k ∧
      sendRangeFrom start data s = (emitPacket a (chunkAt data k) t).andThen rest ∧
      SentChunks start.toNat data 0 k (rangeStart data s) t ∧
      t.eventAt 0 = s.eventAt (2 * k) ∧ t.eventAt 1 = s.eventAt (2 * k + 1) := by
  obtain ⟨t, h1, h2⟩ := sendLoop_turns (s := rangeStart data s) k ((data.length + 254) / 255 - k) hr
    (rangeStart_total s (by omega)) rfl (by omega) hok
  have ho' : t.off.toNat = 255 * k := by rw [h2.off]; omega
  obtain ⟨a, ha, hl⟩ := sendLoop_turn (s := t) ((data.length + 254) / 255 - k - 1) hr
    (by rw [h2.total, rangeStart_total s (by omega)]) ho' (by omega)
  have hloop : sendRangeFrom start data s = sendLoop ((data.length + 254) / 255 - k - 1 + 1) start data t := by
    rw [show (data.length + 254) / 255 - k - 1 + 1 = (data.length + 254) / 255 - k by omega, ← h1,
      sendRangeFrom_eq, chunkCount_eq]
    congr 1
    omega
  exact ⟨t, a, _, ha, hloop.trans hl, h2, State.eventAt_after h2.events h2.writes 0,
    State.eventAt_after h2.events h2.writes 1⟩

/-- What stands once the first `k` packets are accepted. -/
theorem SentChunks.first {s t : State} {start : Nat} {data : List Byte} {k : Nat} (hk : 255 * k ≤ data.length)
    (hl : data.length ≤ 1008) (h : SentChunks start data 0 k (rangeStart data s) t) :
    TransportKept s t ∧ t.off = BitVec.ofNat 16 (255 * k) ∧ t.tx = s.tx ++ firstPackets start data k ∧
      t.devSynced = s.devSynced ∧ (s.devSynced = true → ∀ x, Memory.read t.dev x =
        if start ≤ x ∧ x < start + 255 * k then data[x - start]? else Memory.read s.dev x) := by
  refine ⟨(rangeStart_kept data s).trans h.kept, ?_, ?_, h.synced, fun hs x => ?_⟩
  · apply BitVec.eq_of_toNat_eq
    rw [h.off, BitVec.toNat_ofNat, Nat.mod_eq_of_lt (by omega)]
    omega
  · have := h.tx
    simp only [Nat.zero_add] at this
    exact this
  · rw [h.dev hs x, show min (255 * (0 + k)) data.length = 255 * k by omega]
    rfl

/-- A range whose packet `k` meets a failed write ends there (42_transport R90). -/
theorem sendRangeFrom_failed {s : State} {start : Half} {data : List Byte} {k : Nat} {e : ErrInfo} {last : List TxEntry}
    (hr : start.toNat + data.length ≤ 1008) (hk : k < (data.length + 254) / 255) (hok : s.allOk (2 * k))
    (hf : (∃ n, s.eventAt (2 * k) = .fail e n ∧
        last = [sentFail (packetHeader (start.toNat + 255 * k) (chunkAt data k).length) e n]) ∨
      (∃ n, s.eventAt (2 * k) = .ok ∧ s.eventAt (2 * k + 1) = .fail e n ∧
        last = [sentOk (packetHeader (start.toNat + 255 * k) (chunkAt data k).length), sentFail (chunkAt data k) e n])) :
    ∃ t, sendRangeFrom start data s = .failed e t ∧ RangeFailed start.toNat data k last s t := by
  obtain ⟨t, a, rest, ha, hloop, h2, e0, e1⟩ := sendRangeFrom_at hr hk hok
  obtain ⟨hkept, hoff, htx, hsync, hdev⟩ := h2.first (by omega) (by omega)
  have hlen := chunkAt_length data k
  rcases hf with ⟨n, f0, rfl⟩ | ⟨n, f0, f1, rfl⟩
  · rcases emitPacket_cases a (chunkAt data k) t with ⟨e', d, g0, h⟩ | ⟨g0, -⟩ | ⟨e', d, g0, -⟩ | ⟨e', d, g0, -, -⟩ |
      ⟨g0, -, -⟩ | ⟨e', d, g0, -, -⟩ | ⟨g0, -, -⟩ <;> rw [e0, f0] at g0 <;> cases g0
    refine ⟨_, by rw [hloop, h, Progress.failed_andThen], hkept.trans ?_, ?_, ?_, ?_, fun hs x => ?_⟩
    · constructor <;> simp
    · simpa using hoff
    · simp [htx, sentFail, ha]
    · simp [State.devCut_synced]
    · rw [State.read_devCut (by simpa [hsync] using hs) (by omega), ha]
      simp only [State.logWrite_dev, State.takeEvent_dev, State.buildHeader_dev, hdev hs]
      split_ifs <;> first | rfl | (exfalso; omega)
  · rcases emitPacket_cases a (chunkAt data k) t with ⟨e', d, g0, h⟩ | ⟨g0, -⟩ | ⟨e', d, g0, -⟩ | ⟨e', d, g0, g1, h⟩ |
      ⟨g0, g1, -⟩ | ⟨e', d, g0, g1, -⟩ | ⟨g0, g1, -⟩ <;> rw [e0, f0] at g0 <;> (try cases g0) <;>
      rw [e1, f1] at g1 <;> cases g1
    refine ⟨_, by rw [hloop, h, Progress.failed_andThen], hkept.trans ?_, ?_, ?_, ?_, fun hs x => ?_⟩
    · constructor <;> simp [afterHeader]
    · simpa [afterHeader] using hoff
    · simp [htx, sentFail, sentOk, ha, afterHeader]
    · simp [State.devCut_synced]
    · rw [State.read_devCut (by simpa [hsync, afterHeader] using hs) (by omega), ha]
      simp only [State.logWrite_dev, State.takeEvent_dev, afterHeader_dev (hsync.trans hs), hdev hs]
      split_ifs <;> first | rfl | (exfalso; omega)

/-- What a range that RESET cut at packet `k` has done, `last` being the entries of that packet, and `started` whether its
header had been started (60_exceptions R116, R118; log 11). -/
structure RangeReset (start : Nat) (data : List Byte) (k : Nat) (last : List TxEntry) (started : Bool) (s t : State) :
    Prop where
  kept : TransportKept s t
  tx : t.tx = s.tx ++ firstPackets start data k ++ last
  synced : t.devSynced = (!started && s.devSynced)
  dev : s.devSynced = true → ∀ x, Memory.read t.dev x =
    if start ≤ x ∧ x < start + 255 * k then data[x - start]?
    else if started = true ∧ start + 255 * k ≤ x ∧ x < start + 255 * k + (chunkAt data k).length then none
    else Memory.read s.dev x

/-- The ways RESET can come in packet `k`: before its header or during it, before its payload or during it. -/
def resetIn (s : State) (start : Nat) (data : List Byte) (k : Nat) (last : List TxEntry) (started : Bool) : Prop :=
  (s.eventAt (2 * k) = .resetBefore ∧ last = [] ∧ started = false) ∨
  (∃ e n, s.eventAt (2 * k) = .resetDuring e n ∧
    last = [sentFail (packetHeader (start + 255 * k) (chunkAt data k).length) e n] ∧ started = true) ∨
  (s.eventAt (2 * k) = .ok ∧ s.eventAt (2 * k + 1) = .resetBefore ∧
    last = [sentOk (packetHeader (start + 255 * k) (chunkAt data k).length)] ∧ started = true) ∨
  ∃ e n, s.eventAt (2 * k) = .ok ∧ s.eventAt (2 * k + 1) = .resetDuring e n ∧
    last = [sentOk (packetHeader (start + 255 * k) (chunkAt data k).length), sentFail (chunkAt data k) e n] ∧
    started = true

/-- A range in whose packet `k` RESET comes ends there. -/
theorem sendRangeFrom_reset {s : State} {start : Half} {data : List Byte} {k : Nat} {last : List TxEntry} {started : Bool}
    (hr : start.toNat + data.length ≤ 1008) (hk : k < (data.length + 254) / 255) (hok : s.allOk (2 * k))
    (hf : resetIn s start.toNat data k last started) :
    ∃ t, sendRangeFrom start data s = .reset t ∧ RangeReset start.toNat data k last started s t := by
  obtain ⟨t, a, rest, ha, hloop, h2, e0, e1⟩ := sendRangeFrom_at hr hk hok
  obtain ⟨hkept, -, htx, hsync, hdev⟩ := h2.first (by omega) (by omega)
  have hlen := chunkAt_length data k
  rw [resetIn, ← e0, ← e1] at hf
  rcases emitPacket_cases a (chunkAt data k) t with ⟨e', d, g0, h⟩ | ⟨g0, h⟩ | ⟨e', d, g0, h⟩ | ⟨e', d, g0, g1, h⟩ |
    ⟨g0, g1, h⟩ | ⟨e', d, g0, g1, h⟩ | ⟨g0, g1, h⟩ <;>
  rcases hf with ⟨f0, rfl, rfl⟩ | ⟨e, n, f0, rfl, rfl⟩ | ⟨f0, f1, rfl, rfl⟩ | ⟨e, n, f0, f1, rfl, rfl⟩ <;>
  rw [g0] at f0 <;> (first | (cases f0; done) | skip) <;>
  (first | (rw [g1] at f1; first | (cases f1; done) | skip) | skip) <;>
  refine ⟨_, by rw [hloop, h]; rfl, hkept.trans (by constructor <;> simp [afterHeader]), ?_, ?_, fun hs x => ?_⟩
  · simp [htx]
  · simp [hsync]
  · simp only [State.takeEvent_dev, State.buildHeader_dev, hdev hs]
    split_ifs <;> first | rfl | simp_all
  · cases f0
    simp [htx, sentFail, ha]
  · simp [State.devCut_synced]
  · rw [State.read_devCut (by simpa [hsync] using hs) (by omega), ha]
    simp only [State.logWrite_dev, State.takeEvent_dev, State.buildHeader_dev, hdev hs, true_and]
    split_ifs <;> first | rfl | (exfalso; omega)
  · simp [htx, sentOk, ha, afterHeader]
  · simp [State.devCut_synced]
  · rw [State.read_devCut (by simpa [hsync, afterHeader] using hs) (by omega), ha]
    simp only [State.takeEvent_dev, afterHeader_dev (hsync.trans hs), hdev hs, true_and]
    split_ifs <;> first | rfl | (exfalso; omega)
  · cases f1
    simp [htx, sentFail, sentOk, ha, afterHeader]
  · simp [State.devCut_synced]
  · rw [State.read_devCut (by simpa [hsync, afterHeader] using hs) (by omega), ha]
    simp only [State.logWrite_dev, State.takeEvent_dev, afterHeader_dev (hsync.trans hs), hdev hs, true_and]
    split_ifs <;> first | rfl | (exfalso; omega)

/-! ### Counting packets -/

theorem firstPackets_succ (start : Nat) (data : List Byte) (k : Nat) :
    firstPackets start data (k + 1) = firstPackets start data k ++ packetEntries (start + 255 * k) (chunkAt data k) := by
  simp [firstPackets, List.range_succ]

theorem firstPackets_length (start : Nat) (data : List Byte) (k : Nat) : (firstPackets start data k).length = 2 * k := by
  simp [firstPackets, packetEntries, List.length_flatMap]
  omega

theorem chunkAt_replicate (n m : Nat) (v : Byte) :
    chunkAt (List.replicate n v) m = List.replicate (min 255 (n - 255 * m)) v := by
  simp [chunkAt, List.drop_replicate, List.take_replicate]

/-! ### No RESET -/

/-- A packet in whose two writes no RESET comes is done or failed; done, two events have happened. -/
theorem emitPacket_resetFree {s : State} (a : Half) (p : List Byte) (h : s.resetFree 2) :
    (∃ t, emitPacket a p s = .done t ∧ t.events = s.events.drop 2 ∧ t.writes = s.writes + 2) ∨
      ∃ e t, emitPacket a p s = .failed e t := by
  have h0 := h 0 (by omega)
  have h1 := h 1 (by omega)
  rcases emitPacket_cases a p s with ⟨e, d, -, g⟩ | ⟨g0, -⟩ | ⟨e, d, g0, -⟩ | ⟨e, d, -, -, g⟩ | ⟨-, g1, -⟩ |
    ⟨e, d, -, g1, -⟩ | ⟨-, -, g⟩
  · exact .inr ⟨_, _, g⟩
  · rw [g0] at h0; cases h0
  · rw [g0] at h0; cases h0
  · exact .inr ⟨_, _, g⟩
  · rw [g1] at h1; cases h1
  · rw [g1] at h1; cases h1
  · refine .inl ⟨_, g, ?_, by simp [afterHeader]⟩
    simp only [State.devDeliver_events, State.logWrite_events, State.takeEvent_events, afterHeader, State.devHeader_events,
      State.buildHeader_events]
    rw [← List.drop_one, ← List.drop_one, List.drop_drop]

/-- A range in whose writes no RESET comes is done or failed. -/
theorem sendLoop_resetFree (turns : Nat) (start : Half) (data : List Byte) {s : State} (h : s.resetFree (2 * turns)) :
    (∃ t, sendLoop turns start data s = .done t) ∨ ∃ e t, sendLoop turns start data s = .failed e t := by
  induction turns generalizing s with
  | zero => exact .inl ⟨s, rfl⟩
  | succ n ih =>
    rw [sendLoop]
    split
    · rcases emitPacket_resetFree _ _ (s := s) (fun k hk => h k (by omega)) with ⟨t, ht, he, hw⟩ | ⟨e, t, ht⟩
      · rw [ht, Progress.done_andThen]
        refine ih fun k hk => ?_
        have := h (2 + k) (by omega)
        rw [← State.eventAt_after he hw] at this
        exact this
      · rw [ht]
        exact .inr ⟨e, t, rfl⟩
    · exact .inl ⟨s, rfl⟩

theorem sendRangeFrom_resetFree (start : Half) (data : List Byte) {s : State}
    (h : s.resetFree (2 * ((data.length + 254) / 255))) :
    (∃ t, sendRangeFrom start data s = .done t) ∨ ∃ e t, sendRangeFrom start data s = .failed e t :=
  sendLoop_resetFree _ _ _ h

/-- A range keeps what the transport keeps. -/
theorem sendRangeFrom_kept (start : Half) (data : List Byte) (s : State) :
    TransportKept s (sendRangeFrom start data s).state :=
  (rangeStart_kept data s).trans (sendLoop_kept _ _ _ _)

/-- Whatever the channel answers, a range inside the frame memory adds a good trace to TX. -/
theorem sendRangeFrom_trace {start : Half} {data : List Byte} (s : State) (hr : start.toNat + data.length ≤ 1008) :
    ∃ new, (sendRangeFrom start data s).state.tx = s.tx ++ new ∧
      GoodTrace (sendRangeFrom start data s).wasReset new :=
  sendLoop_trace _ _ _ (rangeStart data s) (by rw [rangeStart_total s (by omega)]; exact hr)
    (by rw [rangeStart_total s (by omega)])

/-- Whatever the channel answers, a range leaves the device bytes it does not address, and DEV canonical. -/
theorem sendRangeFrom_dev {start : Half} {data : List Byte} (s : State) (hr : start.toNat + data.length ≤ 1008) :
    (Memory.wf 1008 s.dev → Memory.wf 1008 (sendRangeFrom start data s).state.dev) ∧
    (s.devSynced = true → ∀ x, x < start.toNat ∨ start.toNat + data.length ≤ x →
      Memory.read (sendRangeFrom start data s).state.dev x = Memory.read s.dev x) := by
  have h := sendLoop_dev (chunkCount data.length) start data (rangeStart data s)
    (by rw [rangeStart_total s (by omega)]; exact hr) (by rw [rangeStart_total s (by omega)])
  rw [rangeStart_total s (by omega)] at h
  exact h

/-! ### What the wire needs -/

/-- Two states that the transport cannot tell apart. -/
structure SameWire (s t : State) : Prop where
  tx : t.tx = s.tx
  dev : t.dev = s.dev
  devSynced : t.devSynced = s.devSynced
  events : t.events = s.events
  writes : t.writes = s.writes
  off : t.off = s.off
  total : t.work.total = s.work.total

theorem SameWire.devCut {s t : State} (h : SameWire s t) (a n : Nat) : SameWire (s.devCut a n) (t.devCut a n) := by
  refine ⟨by simp [h.tx], ?_, ?_, by simp [h.events], by simp [h.writes], by simp [h.off], by simp [h.total]⟩
  all_goals
    unfold State.devCut
    rw [h.dev, h.devSynced]
    split <;> rfl

theorem SameWire.devHeader {s t : State} (h : SameWire s t) : SameWire s.devHeader t.devHeader := by
  constructor <;> simp [h.tx, h.dev, h.devSynced, h.events, h.writes, h.off, h.total]

theorem SameWire.devDeliver {s t : State} (h : SameWire s t) (a : Nat) (p : List Byte) :
    SameWire (s.devDeliver a p) (t.devDeliver a p) := by
  refine ⟨by simp [h.tx], ?_, ?_, by simp [h.events], by simp [h.writes], by simp [h.off], by simp [h.total]⟩
  all_goals
    unfold State.devDeliver
    rw [h.dev, h.devSynced]
    split <;> rfl

/-- Two transport commands in progress that ended alike. -/
def Progress.alike : Progress → Progress → Prop
  | .done s, .done t => SameWire s t
  | .failed e s, .failed f t => e = f ∧ SameWire s t
  | .reset s, .reset t => SameWire s t
  | .done _, .failed _ _ => False
  | .done _, .reset _ => False
  | .failed _ _, .done _ => False
  | .failed _ _, .reset _ => False
  | .reset _, .done _ => False
  | .reset _, .failed _ _ => False

/-- A packet does the same to states that the transport cannot tell apart. -/
theorem emitPacket_alike {s t : State} (h : SameWire s t) (a : Half) (p : List Byte) :
    (emitPacket a p s).alike (emitPacket a p t) := by
  have e : ∀ k, t.eventAt k = s.eventAt k := State.eventAt_congr h.events h.writes
  have base : SameWire (s.buildHeader a p.length).takeEvent (t.buildHeader a p.length).takeEvent := by
    constructor <;> simp [h.tx, h.dev, h.devSynced, h.events, h.writes, h.off, h.total]
  have log : ∀ {u v : State}, SameWire u v → ∀ b o d, SameWire (u.logWrite b o d) (v.logWrite b o d) := by
    intro u v g b o d
    constructor <;> simp [g.tx, g.dev, g.devSynced, g.events, g.writes, g.off, g.total]
  have take : ∀ {u v : State}, SameWire u v → SameWire u.takeEvent v.takeEvent := by
    intro u v g
    constructor <;> simp [g.tx, g.dev, g.devSynced, g.events, g.writes, g.off, g.total]
  have hdr : SameWire (afterHeader a p s) (afterHeader a p t) := (log base _ _ _).devHeader
  rcases emitPacket_cases a p s with ⟨e1, d1, g0, hs⟩ | ⟨g0, hs⟩ | ⟨e1, d1, g0, hs⟩ | ⟨e1, d1, g0, g1, hs⟩ |
    ⟨g0, g1, hs⟩ | ⟨e1, d1, g0, g1, hs⟩ | ⟨g0, g1, hs⟩ <;>
  rcases emitPacket_cases a p t with ⟨e2, d2, k0, ht⟩ | ⟨k0, ht⟩ | ⟨e2, d2, k0, ht⟩ | ⟨e2, d2, k0, k1, ht⟩ |
    ⟨k0, k1, ht⟩ | ⟨e2, d2, k0, k1, ht⟩ | ⟨k0, k1, ht⟩ <;>
  rw [e, g0] at k0 <;> (first | (cases k0; done) | skip) <;>
  (first | (rw [e, g1] at k1; first | (cases k1; done) | skip) | skip) <;>
  rw [hs, ht]
  · cases k0; exact ⟨rfl, (log base _ _ _).devCut _ _⟩
  · exact base
  · cases k0; exact (log base _ _ _).devCut _ _
  · cases k1; exact ⟨rfl, (log (take hdr) _ _ _).devCut _ _⟩
  · exact (take hdr).devCut _ _
  · cases k1; exact (log (take hdr) _ _ _).devCut _ _
  · exact (log (take hdr) _ _ _).devDeliver _ _

/-- A range does the same to states that the transport cannot tell apart. -/
theorem sendLoop_alike (turns : Nat) (start : Half) (data : List Byte) {s t : State} (h : SameWire s t) :
    (sendLoop turns start data s).alike (sendLoop turns start data t) := by
  induction turns generalizing s t with
  | zero => exact h
  | succ n ih =>
    rw [sendLoop, sendLoop, h.off, h.total]
    split
    · rw [show t.chunkAddress start = s.chunkAddress start by rw [State.chunkAddress, State.chunkAddress, h.off],
        show t.chunkBytes data = s.chunkBytes data by rw [State.chunkBytes, State.chunkBytes, h.off, h.total]]
      have hp := emitPacket_alike h (s.chunkAddress start) (s.chunkBytes data)
      generalize emitPacket _ _ s = q at hp ⊢
      generalize emitPacket _ _ t = r at hp ⊢
      cases q <;> cases r <;> first | exact hp.elim | exact hp | skip
      rw [Progress.done_andThen, Progress.done_andThen]
      exact ih ⟨hp.tx, hp.dev, hp.devSynced, hp.events, hp.writes, by
        rw [State.advanceOff_off, State.advanceOff_off]; simp only [State.succeed_off, State.succeed_work, hp.off, hp.total],
        hp.total⟩
    · exact h

theorem sendRangeFrom_alike (start : Half) (data : List Byte) {s t : State} (tx : t.tx = s.tx) (dev : t.dev = s.dev)
    (devSynced : t.devSynced = s.devSynced) (events : t.events = s.events) (writes : t.writes = s.writes) :
    (sendRangeFrom start data s).alike (sendRangeFrom start data t) :=
  sendLoop_alike _ _ _ ⟨tx, dev, devSynced, events, writes, rfl, rfl⟩

end Sys2Proof.Machine
end

