-- ==== Sys2Proof/Laws/Refusal.lean ====
section
/-! SUPPORT. Laws of the refusals: when each command is not refused, and that a meaning refuses what acceptance refuses. -/

namespace Sys2Proof.Machine

@[simp] theorem refuseOr_some (r : Refusal) (o : Host.Outcome State Fault Refusal) : refuseOr (some r) o = .refused r := rfl
@[simp] theorem refuseOr_none (o : Host.Outcome State Fault Refusal) : refuseOr none o = o := rfl

theorem refuseOr_eq_next {r : Option Refusal} {o : Host.Outcome State Fault Refusal} {t : State} :
    refuseOr r o = .next t ↔ r = none ∧ o = .next t := by
  cases r <;> simp

theorem canvasRefusal_eq_none {s : State} : s.canvasRefusal = none ↔ s.status.canvasValid = true := by
  simp [State.canvasRefusal]

theorem frameRefusal_eq_none {s : State} : s.frameRefusal = none ↔ s.status.frameValid = true := by
  simp [State.frameRefusal]

theorem inGrid_iff (x y : Nat) : inGrid x y = true ↔ x < 144 ∧ y < 126 := by
  simp [inGrid, Config.width, Config.height]

theorem pixelRefusal_eq_none {s : State} {x y : Half} :
    s.pixelRefusal x y = none ↔ s.status.canvasValid = true ∧ x.toNat < 144 ∧ y.toNat < 126 := by
  rw [← inGrid_iff, State.pixelRefusal]
  cases s.status.canvasValid <;> cases inGrid x.toNat y.toNat <;> simp

theorem boundariesApart_eq : boundariesApart = true := by decide

theorem tickRefusal_eq_none {s : State} : s.tickRefusal = none ↔ s.status.animValid = true := by
  rw [State.tickRefusal, boundariesApart_eq]
  cases s.status.animValid <;> simp

theorem packetAllowed_refuse (a n : Nat) : packetAllowed .refuse a n = true ↔ a + n ≤ 1008 := by
  rw [← inFrameMemory_iff]
  simp [packetAllowed]

theorem rangeAllowed_refuse (a n : Nat) : rangeAllowed .refuse a n = true ↔ a + n ≤ 1008 := by
  rw [← inFrameMemory_iff]
  simp [rangeAllowed]

theorem packetRefusal_eq_none {a : Half} {n : Nat} :
    packetRefusal Config.rangePolicy a n = none ↔ 1 ≤ n ∧ a.toNat + n ≤ 1008 := by
  rw [← packetAllowed_refuse, packetRefusal, show Config.rangePolicy = .refuse from rfl, Nat.one_le_iff_ne_zero]
  by_cases h : n = 0
  · simp [h]
  · cases packetAllowed .refuse a.toNat n <;> simp [h]

theorem rangeRefusal_eq_none {a : Half} {n : Nat} : rangeRefusal Config.rangePolicy a n = none ↔ a.toNat + n ≤ 1008 := by
  rw [← rangeAllowed_refuse, rangeRefusal, show Config.rangePolicy = .refuse from rfl]
  cases rangeAllowed .refuse a.toNat n <;> simp

theorem wirePacketRefusal_eq_none {a : Half} {n : Nat} :
    wirePacketRefusal a n = none ↔ 1 ≤ n ∧ n ≤ 255 ∧ a.toNat + n ≤ 1008 := by
  rw [wirePacketRefusal]
  by_cases h : n > 255
  · rw [if_pos h]
    constructor
    · intro hc; cases hc
    · intro hc; omega
  · rw [if_neg h, packetRefusal_eq_none]
    omega

/-- Acceptance refuses exactly what the meaning refuses. -/
theorem exec_refused_iff (i : Instr) (s : State) (r : Refusal) : exec i s = .refused r ↔ refusalOf i s = some r := by
  have key : ∀ (q : Option Refusal) (o : Host.Outcome State Fault Refusal), (∀ r, o ≠ .refused r) →
      (refuseOr q o = .refused r ↔ q = some r) := by
    intro q o ho
    cases q with
    | none => simp [ho r]
    | some q => simp
  have elim : ∀ (p : Option Progress) (f : Progress → State) (r : Refusal),
      (p.elim (.fault .frameByteNoValue) fun q => .next (f q) : Host.Outcome State Fault Refusal) ≠ .refused r := by
    intro p f r
    cases p <;> simp
  cases i with
  | canvasNew => simp [exec, execCanvasNew, refusalOf]
  | setPixel x y v => exact key _ _ (by simp)
  | drawCircle cx cy d => exact key _ _ (by simp)
  | encode => exact key _ _ (by simp)
  | writePacket a p =>
    simp only [exec, execWritePacket, writePacketUnder, refusalOf]
    split
    · simp
    · exact key _ _ (by simp)
  | sendRange a data => exact key _ _ (by simp)
  | fill v => simp [exec, execFill, refusalOf]
  | sendFrame => exact key _ _ (elim _ _)
  | animInit => simp [exec, execAnimInit, refusalOf]
  | tick => exact key _ _ (elim _ _)
  | run => exact key _ _ (elim _ _)
  | wirePacket a p => exact key _ _ (by simp)
  | reserved op => simp [exec, execReserved, refusalOf]

/-- A command that goes on is not refused. -/
theorem refusalOf_eq_none {i : Instr} {s t : State} (h : exec i s = .next t) : refusalOf i s = none := by
  rcases hr : refusalOf i s with _ | r
  · rfl
  · rw [(exec_refused_iff i s r).2 hr] at h
    cases h

end Sys2Proof.Machine
end

