-- ==== Sys2Proof/Laws/Exec.lean ====
section
/-! SUPPORT. One law per meaning: what it answers where it goes on, and what a next state of it can be. -/

namespace Sys2Proof.Machine

/-! ### Canvas and encoder -/

theorem exec_setPixel {s : State} {x y : Half} (v : Bool) (h : s.status.canvasValid = true) (hx : x.toNat < 144)
    (hy : y.toNat < 126) :
    exec (.setPixel x y v) s = .next { s with canvas := s.canvas.write x.toNat y.toNat v }.complete := by
  simp only [exec, execSetPixel, pixelRefusal_eq_none.2 ⟨h, hx, hy⟩, refuseOr_none]

theorem exec_setPixel_inv {s t : State} {x y : Half} {v : Bool} (h : exec (.setPixel x y v) s = .next t) :
    s.status.canvasValid = true ∧ x.toNat < 144 ∧ y.toNat < 126 ∧
      t = { s with canvas := s.canvas.write x.toNat y.toNat v }.complete := by
  obtain ⟨hr, ho⟩ := refuseOr_eq_next.1 h
  obtain ⟨h1, h2, h3⟩ := pixelRefusal_eq_none.1 hr
  cases ho
  exact ⟨h1, h2, h3, rfl⟩

theorem exec_drawCircle {s : State} (cx cy d : Half) (h : s.status.canvasValid = true) :
    exec (.drawCircle cx cy d) s = .next (s.drawDisk (signedOf cx) (signedOf cy) (signedOf d)).complete := by
  simp only [exec, execDrawCircle, canvasRefusal_eq_none.2 h, refuseOr_none]

theorem exec_drawCircle_inv {s t : State} {cx cy d : Half} (h : exec (.drawCircle cx cy d) s = .next t) :
    s.status.canvasValid = true ∧ t = (s.drawDisk (signedOf cx) (signedOf cy) (signedOf d)).complete := by
  obtain ⟨hr, ho⟩ := refuseOr_eq_next.1 h
  cases ho
  exact ⟨canvasRefusal_eq_none.1 hr, rfl⟩

theorem inDisk_iff (cx cy d : Int) (x y : Nat) :
    inDisk cx cy d x y = true ↔ ((x : Int) - cx) ^ 2 + ((y : Int) - cy) ^ 2 < d ^ 2 := by
  simp [inDisk, pow_two]

/-- A grid pixel after a disk: true before, or inside the open disk (40_canvas R72). -/
theorem State.drawDisk_pixel (s : State) (cx cy d : Int) {x y : Nat} (hx : x < 144) (hy : y < 126) :
    (s.drawDisk cx cy d).canvas.pixel x y = true ↔
      s.canvas.pixel x y = true ∨ ((x : Int) - cx) ^ 2 + ((y : Int) - cy) ^ 2 < d ^ 2 := by
  rw [State.drawDisk_canvas, Canvas.pixel_draw _ _ hx hy, Bool.or_eq_true, inDisk_iff]

theorem exec_encode {s : State} (h : s.status.canvasValid = true) :
    exec .encode s = .next s.encodeCanvas.releaseEncoder.complete := by
  simp only [exec, execEncode, canvasRefusal_eq_none.2 h, refuseOr_none]

theorem exec_encode_inv {s t : State} (h : exec .encode s = .next t) :
    s.status.canvasValid = true ∧ t = s.encodeCanvas.releaseEncoder.complete := by
  obtain ⟨hr, ho⟩ := refuseOr_eq_next.1 h
  cases ho
  exact ⟨canvasRefusal_eq_none.1 hr, rfl⟩

theorem frameSize_eq : Config.frameSize = 1008 := rfl

/-- A byte of the frame after the packing (41_encoder R74). -/
theorem State.encodeCanvas_read (s : State) (k : Nat) :
    Memory.read s.encodeCanvas.frame k = if k < 1008 then some (s.canvas.packedByte (k / 16) (k % 16)) else none :=
  Canvas.read_encoded _ _

/-- The frame of a canvas, bit by bit (41_encoder R75). -/
theorem State.encodeCanvas_bit (s : State) {j i k : Nat} (hj : j < 63) (hi : i < 16) (hk : k < 8) :
    ∃ b, Memory.read s.encodeCanvas.frame (16 * j + i) = some b ∧
      b.getLsbD (7 - k) = s.canvas.pixel (9 * i + k) (2 * j + 1) := by
  refine ⟨_, ?_, Canvas.packedByte_getLsbD _ _ _ _ hk⟩
  rw [State.encodeCanvas_read, if_pos (by omega)]
  congr 2 <;> omega

/-! ### Transport -/

/-- WRITE_PACKET with a legal payload in range is its packet. -/
theorem exec_writePacket {a : Half} {p : List Byte} (s : State) (h1 : 1 ≤ p.length) (h2 : p.length ≤ 255)
    (hr : a.toNat + p.length ≤ 1008) :
    exec (.writePacket a p) s = .next ((emitPacket a p s).finish State.releasePacket) := by
  simp only [exec, execWritePacket, writePacketUnder]
  rw [if_neg (by show ¬ p.length > 255; omega), packetRefusal_eq_none.2 ⟨h1, hr⟩, refuseOr_none]

/-- WRITE_PACKET with more than 255 bytes raises ContractViolation, whatever the address (42_transport R84). -/
theorem exec_writePacket_long {p : List Byte} (a : Half) (s : State) (h : 255 < p.length) :
    exec (.writePacket a p) s = .next s.raiseContractViolation := by
  simp only [exec, execWritePacket, writePacketUnder]
  rw [if_pos (show p.length > 255 from h)]

/-- What a next state of WRITE_PACKET can be. -/
theorem exec_writePacket_inv {a : Half} {p : List Byte} {s t : State} (h : exec (.writePacket a p) s = .next t) :
    (255 < p.length ∧ t = s.raiseContractViolation) ∨
      (1 ≤ p.length ∧ p.length ≤ 255 ∧ a.toNat + p.length ≤ 1008 ∧
        t = (emitPacket a p s).finish State.releasePacket) := by
  by_cases h1 : 255 < p.length
  · rw [exec_writePacket_long a s h1] at h
    cases h
    exact .inl ⟨h1, rfl⟩
  · simp only [exec, execWritePacket, writePacketUnder] at h
    rw [if_neg (show ¬ p.length > 255 from h1)] at h
    obtain ⟨hr, ho⟩ := refuseOr_eq_next.1 h
    obtain ⟨h2, h3⟩ := packetRefusal_eq_none.1 hr
    cases ho
    exact .inr ⟨h2, by omega, h3, rfl⟩

/-- A wire packet that the block may emit is emitted. -/
theorem exec_wirePacket {a : Half} {p : List Byte} (s : State) (h1 : 1 ≤ p.length) (h2 : p.length ≤ 255)
    (hr : a.toNat + p.length ≤ 1008) : exec (.wirePacket a p) s = .next (endOfPacket (emitPacket a p s)) := by
  simp only [exec, execWirePacket, wirePacketRefusal_eq_none.2 ⟨h1, h2, hr⟩, refuseOr_none]

/-- What a next state of a wire packet can be. -/
theorem exec_wirePacket_inv {a : Half} {p : List Byte} {s t : State} (h : exec (.wirePacket a p) s = .next t) :
    1 ≤ p.length ∧ p.length ≤ 255 ∧ a.toNat + p.length ≤ 1008 ∧ t = endOfPacket (emitPacket a p s) := by
  obtain ⟨hr, ho⟩ := refuseOr_eq_next.1 h
  obtain ⟨h1, h2, h3⟩ := wirePacketRefusal_eq_none.1 hr
  cases ho
  exact ⟨h1, h2, h3, rfl⟩

/-- SEND_RANGE in range is its chunks. -/
theorem exec_sendRange {a : Half} {data : List Byte} (s : State) (hr : a.toNat + data.length ≤ 1008) :
    exec (.sendRange a data) s = .next ((sendRangeFrom a data s).finish State.releaseRange) := by
  simp only [exec, execSendRange, sendRangeUnder, rangeRefusal_eq_none.2 hr, refuseOr_none]

/-- What a next state of SEND_RANGE can be. -/
theorem exec_sendRange_inv {a : Half} {data : List Byte} {s t : State} (h : exec (.sendRange a data) s = .next t) :
    a.toNat + data.length ≤ 1008 ∧ t = (sendRangeFrom a data s).finish State.releaseRange := by
  obtain ⟨hr, ho⟩ := refuseOr_eq_next.1 h
  cases ho
  exact ⟨rangeRefusal_eq_none.1 hr, rfl⟩

/-- FILL is a range of 1008 copies. -/
theorem exec_fill (v : Byte) (s : State) : exec (.fill v) s =
    .next ((sendRangeFrom 0#16 (List.replicate 1008 v) (fillStart v s)).finish State.releaseFill) := rfl

/-- SEND_FRAME of a frame with every byte is its range. -/
theorem exec_sendFrame {s : State} {data : List Byte} (h : s.status.frameValid = true) (hl : data.length = 1008)
    (hd : ∀ k < 1008, data[k]? = Memory.read s.frame k) :
    exec .sendFrame s = .next ((sendRangeFrom 0#16 data s).finish State.releaseRange) := by
  have hr : s.frame.readRange 0 Config.frameSize = some data :=
    (Memory.readRange_eq_some _ _ _ _).2 ⟨hl, fun k hk => by rw [Nat.zero_add, hd k hk]⟩
  simp only [exec, execSendFrame, sendFrameFrom, frameRefusal_eq_none.2 h, refuseOr_none, hr]
  rfl

/-- What a next state of SEND_FRAME can be. -/
theorem exec_sendFrame_inv {s t : State} (h : exec .sendFrame s = .next t) :
    s.status.frameValid = true ∧ ∃ data : List Byte, data.length = 1008 ∧
      (∀ k < 1008, data[k]? = Memory.read s.frame k) ∧ t = (sendRangeFrom 0#16 data s).finish State.releaseRange := by
  obtain ⟨hv, ho⟩ := refuseOr_eq_next.1 h
  unfold sendFrameFrom at ho
  rcases hr : s.frame.readRange 0 Config.frameSize with _ | data
  · rw [hr] at ho; cases ho
  · rw [hr] at ho
    cases ho
    obtain ⟨hl, hd⟩ := (Memory.readRange_eq_some _ _ _ _).1 hr
    exact ⟨frameRefusal_eq_none.1 hv, data, hl, fun k hk => by rw [← hd k hk, Nat.zero_add], rfl⟩

/-! ### Animation -/

/-- The 1008 bytes of an encoded canvas. -/
def Canvas.encodedBytes (c : Canvas) : List Byte :=
  (List.range Config.frameSize).map fun k => c.packedByte (k / Config.groups) (k % Config.groups)

@[simp] theorem Canvas.encodedBytes_length (c : Canvas) : c.encodedBytes.length = 1008 := by
  rw [Canvas.encodedBytes, List.length_map, List.length_range, frameSize_eq]

theorem State.encodedBytes_eq (s : State) {k : Nat} (hk : k < 1008) :
    s.canvas.encodedBytes[k]? = Memory.read s.encodeCanvas.frame k := by
  rw [State.encodeCanvas_read, if_pos hk, Canvas.encodedBytes, List.getElem?_map, frameSize_eq, List.getElem?_range hk,
    Option.map_some]
  rfl

theorem State.tickDrawn_pixel (s : State) {x y : Nat} (hx : x < 144) (hy : y < 126) :
    s.tickDrawn.canvas.pixel x y = true ↔
      ((x : Int) - s.anim.cx.toInt) ^ 2 + ((y : Int) - s.anim.cy.toInt) ^ 2 < 12 ^ 2 := by
  unfold State.tickDrawn
  rw [State.drawDisk_pixel _ _ _ _ hx hy]
  simp only [State.blankCanvas_canvas, Canvas.pixel_nil, Bool.false_eq_true, false_or]
  rfl

/-- The send of a tick, and the advance after it. -/
def State.tickWork (s : State) : Progress :=
  (sendRangeFrom 0#16 s.tickDrawn.canvas.encodedBytes s.tickDrawn.encodeCanvas).andThen fun u =>
    .done { u with anim := u.anim.advance }

theorem sendFrameFrom_of {s : State} {data : List Byte} (h : s.frame.readRange 0 Config.frameSize = some data) :
    sendFrameFrom s = some (sendRangeFrom 0#16 data s) := by
  unfold sendFrameFrom
  rw [h]
  rfl

theorem State.readRange_encodeCanvas (s : State) :
    s.encodeCanvas.frame.readRange 0 Config.frameSize = some s.canvas.encodedBytes := by
  rw [State.encodeCanvas_frame]
  exact Canvas.readRange_encoded s.canvas

theorem tickFrom_eq (s : State) : tickFrom s = some s.tickWork := by
  unfold tickFrom
  rw [sendFrameFrom_of s.tickDrawn.readRange_encodeCanvas]
  rfl

/-- A tick whose eight writes are accepted has sent its four packets, and advanced. -/
theorem State.tickWork_accepted {s : State} (hok : s.allOk 8) :
    ∃ u, s.tickWork = .done { u with anim := u.anim.advance } ∧
      SentChunks 0 s.tickDrawn.canvas.encodedBytes 0 4
        (rangeStart s.tickDrawn.canvas.encodedBytes s.tickDrawn.encodeCanvas) u := by
  have hl := s.tickDrawn.canvas.encodedBytes_length
  unfold State.tickWork
  obtain ⟨t, he, h⟩ := sendRangeFrom_accepted (s := s.tickDrawn.encodeCanvas) (start := 0#16)
    (data := s.tickDrawn.canvas.encodedBytes) (by rw [hl]; decide) (by rw [hl]; exact hok)
  rw [he]
  rw [hl] at h
  exact ⟨t, rfl, h⟩

/-- A tick whose `n`-th write is the first to fail ends in packet `n / 2`. -/
theorem State.tickWork_failed {s : State} {n d : Nat} {e : ErrInfo} (hn : n < 8) (hok : s.allOk n)
    (hf : s.eventAt n = .fail e d) :
    ∃ u last, s.tickWork = .failed e u ∧ last.length = n % 2 + 1 ∧
      RangeFailed 0 s.tickDrawn.canvas.encodedBytes (n / 2) last s.tickDrawn.encodeCanvas u := by
  have hl := s.tickDrawn.canvas.encodedBytes_length
  unfold State.tickWork
  have hok' : s.tickDrawn.encodeCanvas.allOk (2 * (n / 2)) := fun k hk => hok k (by omega)
  rcases Nat.mod_two_eq_zero_or_one n with h | h
  · have e0 : s.tickDrawn.encodeCanvas.eventAt (2 * (n / 2)) = .fail e d := by
      rw [show 2 * (n / 2) = n by omega]
      exact hf
    obtain ⟨t, he, hh⟩ := sendRangeFrom_failed (start := 0#16) (data := s.tickDrawn.canvas.encodedBytes) (k := n / 2)
      (by rw [hl]; decide) (by rw [hl]; omega) hok' (.inl ⟨d, e0, rfl⟩)
    rw [he]
    exact ⟨t, _, rfl, by simp [h], hh⟩
  · have e0 : s.tickDrawn.encodeCanvas.eventAt (2 * (n / 2)) = .ok := hok _ (by omega)
    have e1 : s.tickDrawn.encodeCanvas.eventAt (2 * (n / 2) + 1) = .fail e d := by
      rw [show 2 * (n / 2) + 1 = n by omega]
      exact hf
    obtain ⟨t, he, hh⟩ := sendRangeFrom_failed (start := 0#16) (data := s.tickDrawn.canvas.encodedBytes) (k := n / 2)
      (by rw [hl]; decide) (by rw [hl]; omega) hok' (.inr ⟨d, e0, e1, rfl⟩)
    rw [he]
    exact ⟨t, _, rfl, by simp [h], hh⟩

/-- A tick in whose writes no RESET comes is done, advanced, or failed, not advanced. -/
theorem State.tickWork_resetFree {s : State} (hf : s.resetFree 8) :
    (∃ u, s.tickWork = .done { u with anim := u.anim.advance } ∧
      sendRangeFrom 0#16 s.tickDrawn.canvas.encodedBytes s.tickDrawn.encodeCanvas = .done u) ∨
    ∃ e u, s.tickWork = .failed e u ∧
      sendRangeFrom 0#16 s.tickDrawn.canvas.encodedBytes s.tickDrawn.encodeCanvas = .failed e u := by
  have hl := s.tickDrawn.canvas.encodedBytes_length
  unfold State.tickWork
  rcases sendRangeFrom_resetFree 0#16 s.tickDrawn.canvas.encodedBytes (s := s.tickDrawn.encodeCanvas)
    (by rw [hl]; exact hf) with ⟨t, h⟩ | ⟨e, t, h⟩ <;> rw [h]
  · exact .inl ⟨_, rfl, rfl⟩
  · exact .inr ⟨_, _, rfl, rfl⟩

/-- What the send of a tick keeps of the drawn and encoded picture, whatever the channel answers. -/
theorem State.tickSend_kept (s : State) : TransportKept s.tickDrawn.encodeCanvas
    (sendRangeFrom 0#16 s.tickDrawn.canvas.encodedBytes s.tickDrawn.encodeCanvas).state := sendRangeFrom_kept _ _ _

/-- What a tick adds to TX, whatever the channel answers. -/
theorem State.tickWork_trace (s : State) : ∃ new, s.tickWork.state.tx = s.tx ++ new ∧
    GoodTrace s.tickWork.wasReset new := by
  have hl := s.tickDrawn.canvas.encodedBytes_length
  obtain ⟨new, h1, h2⟩ := sendRangeFrom_trace (start := 0#16) (data := s.tickDrawn.canvas.encodedBytes)
    s.tickDrawn.encodeCanvas (by rw [hl]; decide)
  refine ⟨new, ?_, ?_⟩ <;> unfold State.tickWork <;> generalize sendRangeFrom 0#16 _ _ = p at * <;>
    cases p <;> first | exact h1 | exact h2

/-- One axis of the advance, where the sum fits s16. -/
theorem advancePosition_toInt {c : Half} {d : Dir} (h1 : -32768 ≤ c.toInt + d.value) (h2 : c.toInt + d.value ≤ 32767) :
    (advancePosition c d).toInt = c.toInt + d.value := by
  unfold advancePosition signedOf
  simp only
  rw [if_pos ⟨by omega, by omega⟩, BitVec.toInt_ofInt, Int.bmod_eq_of_le] <;> omega

theorem reverseAt_eq (n : Nat) (c : Half) (d : Dir) :
    reverseAt n c d = if (n : Int) - 12 ≤ c.toInt then .neg else if c.toInt ≤ 12 then .pos else d := rfl

theorem exec_tick {s : State} (h : s.status.animValid = true) :
    exec .tick s = .next (s.tickWork.finish State.releaseTick) := by
  simp only [exec, execTick, tickEndedBy, tickRefusal_eq_none.2 h, refuseOr_none, tickFrom_eq]
  rfl

theorem exec_run {s : State} (h : s.status.animValid = true) :
    exec .run s = .next (s.tickWork.finishTurn State.releaseTick) := by
  simp only [exec, execRun, tickEndedBy, tickRefusal_eq_none.2 h, refuseOr_none, tickFrom_eq]
  rfl

theorem exec_tick_inv {s t : State} (h : exec .tick s = .next t) :
    s.status.animValid = true ∧ t = s.tickWork.finish State.releaseTick := by
  have hv := tickRefusal_eq_none.1 (refuseOr_eq_next.1 h).1
  rw [exec_tick hv] at h
  cases h
  exact ⟨hv, rfl⟩

theorem exec_run_inv {s t : State} (h : exec .run s = .next t) :
    s.status.animValid = true ∧ t = s.tickWork.finishTurn State.releaseTick := by
  have hv := tickRefusal_eq_none.1 (refuseOr_eq_next.1 h).1
  rw [exec_run hv] at h
  cases h
  exact ⟨hv, rfl⟩

end Sys2Proof.Machine
end

