-- ==== Sys2Proof/Laws/PerInstr.lean ====
section
/-! SUPPORT. A statement made once per constructor of `Instr`: how many bytes its encoding has. -/

namespace Sys2Proof.Laws.EncodeLength

/-- The descriptor lengths of 30_encoding R59, `5 + LEN` for a wire packet (R52), and the one byte of a reserved opcode;
the bytes of an instruction are never empty. -/
def Statement (i : Instr) : Prop :=
  1 ≤ (Sys2Proof.encode i).length ∧
  match i with
  | .canvasNew => (Sys2Proof.encode i).length = 1
  | .setPixel _ _ _ => (Sys2Proof.encode i).length = 6
  | .drawCircle _ _ _ => (Sys2Proof.encode i).length = 7
  | .encode => (Sys2Proof.encode i).length = 1
  | .writePacket _ payload => (Sys2Proof.encode i).length = 5 + payload.length
  | .sendRange _ data => (Sys2Proof.encode i).length = 5 + data.length
  | .fill _ => (Sys2Proof.encode i).length = 2
  | .sendFrame => (Sys2Proof.encode i).length = 1
  | .animInit => (Sys2Proof.encode i).length = 1
  | .tick => (Sys2Proof.encode i).length = 1
  | .run => (Sys2Proof.encode i).length = 1
  | .wirePacket _ payload => (Sys2Proof.encode i).length = 5 + payload.length
  | .reserved _ => (Sys2Proof.encode i).length = 1

theorem canvasNew : Statement .canvasNew := ⟨Nat.succ_pos _, rfl⟩
theorem setPixel (x y : Half) (v : Bool) : Statement (.setPixel x y v) := ⟨Nat.succ_pos _, rfl⟩
theorem drawCircle (cx cy d : Half) : Statement (.drawCircle cx cy d) := ⟨Nat.succ_pos _, rfl⟩
theorem encode : Statement .encode := ⟨Nat.succ_pos _, rfl⟩

theorem addressed_length (op : Byte) (a n : Half) (p : List Byte) :
    (op :: (halfBytes a ++ halfBytes n ++ p)).length = 5 + p.length := by
  simp [halfBytes]
  omega

theorem writePacket (address : Half) (payload : List Byte) : Statement (.writePacket address payload) :=
  ⟨Nat.succ_pos _, addressed_length _ _ _ _⟩
theorem sendRange (start : Half) (data : List Byte) : Statement (.sendRange start data) :=
  ⟨Nat.succ_pos _, addressed_length _ _ _ _⟩
theorem fill (value : Byte) : Statement (.fill value) := ⟨Nat.succ_pos _, rfl⟩
theorem sendFrame : Statement .sendFrame := ⟨Nat.succ_pos _, rfl⟩
theorem animInit : Statement .animInit := ⟨Nat.succ_pos _, rfl⟩
theorem tick : Statement .tick := ⟨Nat.succ_pos _, rfl⟩
theorem run : Statement .run := ⟨Nat.succ_pos _, rfl⟩
theorem wirePacket (address : Half) (payload : List Byte) : Statement (.wirePacket address payload) :=
  ⟨Nat.succ_pos _, by
    show (_ ++ payload).length = 5 + payload.length
    rw [List.length_append]
    rfl⟩
theorem reserved (opcode : Byte) : Statement (.reserved opcode) := ⟨Nat.succ_pos _, rfl⟩

end Sys2Proof.Laws.EncodeLength
end

