-- ==== Sys2Proof/Laws/Step.lean ====
section
/-! SUPPORT. Everything a step can do: RESET, nothing, the acceptance of a command, or work; and running many steps. -/

namespace Sys2Proof.Machine

/-- RESET between a packet's header and its payload cuts the packet; anywhere else it cuts none. -/
theorem State.abandonPacket_cases (s : State) : s.abandonPacket = s ∨
    (∃ a p, s.seq = .exec (.packetPayload a p) ∧ s.abandonPacket = s.devCut a.toNat p.length) ∨
    ∃ u start data, s.seq = .exec (.rangePayload u start data) ∧
      s.abandonPacket = s.devCut (s.chunkAddress start).toNat (s.chunkBytes data).length := by
  unfold State.abandonPacket
  split
  · exact .inl rfl
  · rename_i h; exact .inr (.inl ⟨_, _, h, rfl⟩)
  · rename_i h; exact .inr (.inr ⟨_, _, _, h, rfl⟩)
  · exact .inl rfl
  · exact .inl rfl

/-- Outside the payload phase no packet is cut. -/
theorem State.abandonPacket_eq {s : State} (h : ∀ j, s.seq = .exec j → j.phase ≠ some .payload) : s.abandonPacket = s := by
  rcases s.abandonPacket_cases with h1 | ⟨a, p, h1, -⟩ | ⟨u, start, data, h1, -⟩
  · exact h1
  · exact absurd rfl (h _ h1)
  · exact absurd rfl (h _ h1)

/-- Abandoning a packet changes DEV and its following alone. -/
theorem State.abandonPacket_kept (s : State) :
    s.abandonPacket = { s with dev := s.abandonPacket.dev, devSynced := s.abandonPacket.devSynced } := by
  have h : ∀ a n, s.devCut a n = { s with dev := (s.devCut a n).dev, devSynced := (s.devCut a n).devSynced } := by
    intro a n
    unfold State.devCut
    split <;> rfl
  rcases s.abandonPacket_cases with h1 | ⟨a, p, -, h1⟩ | ⟨u, start, data, -, h1⟩ <;> rw [h1]
  · exact h _ _
  · exact h _ _

@[simp] theorem State.abandonPacket_tx (s : State) : s.abandonPacket.tx = s.tx := by rw [s.abandonPacket_kept]
@[simp] theorem State.abandonPacket_hostMoves (s : State) : s.abandonPacket.hostMoves = s.hostMoves := by
  rw [s.abandonPacket_kept]
@[simp] theorem State.abandonPacket_events (s : State) : s.abandonPacket.events = s.events := by rw [s.abandonPacket_kept]
@[simp] theorem State.abandonPacket_writes (s : State) : s.abandonPacket.writes = s.writes := by rw [s.abandonPacket_kept]
@[simp] theorem State.abandonPacket_draws (s : State) : s.abandonPacket.draws = s.draws := by rw [s.abandonPacket_kept]

/-- RESET overrides everything (60_exceptions R116). -/
theorem step_reset {s : State} {moves : List HostMove} (h : s.hostMoves = .reset :: moves) :
    step s = .next s.dropMove.abandonPacket.assertReset := by
  rw [step, fetch, h]

/-- In EXEC, with the host not at its registers and not asserting RESET, the work goes on. -/
theorem step_exec {s : State} {j : Job} (hs : s.seq = .exec j) (hu : s.undisturbed) : step s = workOn j s := by
  rcases hu with h | ⟨d, moves, h⟩ <;> rw [step, fetch, h, hs]

theorem step_observe {s : State} {j : Job} {moves : List HostMove} (hs : s.seq = .exec j)
    (h : s.hostMoves = .observe :: moves) : step s = workOn j s.dropMove := by
  rw [step, fetch, h, hs]

/-- A command presented in IDLE is accepted, or refused. -/
theorem step_issue {s : State} {d : List Byte} {moves : List HostMove} {i : Instr} (hs : s.seq = .idle)
    (h : s.hostMoves = .issue d :: moves) (hd : decodeDescriptor d = .ok i) :
    step s = acceptCommand i s.dropMove := by
  rw [step, fetch, h, hs]
  simp only [readDescriptor, hd]

theorem acceptCommand_eq_next {i : Instr} {s t : State} :
    acceptCommand i s = .next t ↔ refusalOf i s = none ∧ s.goTo (.issued i) = t := by
  rw [acceptCommand, refuseOr_eq_next, Host.Outcome.next.injEq]

/-- The four ways a step can go on. -/
theorem step_cases {s t : State} (h : step s = .next t) :
    (∃ moves, s.hostMoves = .reset :: moves ∧ t = s.dropMove.abandonPacket.assertReset) ∨
    ((∀ j, s.seq ≠ .exec j) ∧ (t = s ∨ t = s.dropMove)) ∨
    (∃ d moves i, s.seq = .idle ∧ s.hostMoves = .issue d :: moves ∧ decodeDescriptor d = .ok i ∧
      refusalOf i s.dropMove = none ∧ t = s.dropMove.goTo (.issued i)) ∨
    (∃ j u, s.seq = .exec j ∧ (u = s ∨ u = s.dropMove) ∧ workOn j u = .next t) := by
  rcases hm : s.hostMoves with _ | ⟨m, ms⟩
  · rcases hs : s.seq with _ | j | _
    · rw [step, fetch, hm, hs] at h
      cases h
      exact .inr (.inl ⟨by simp, .inl rfl⟩)
    · rw [step_exec hs (.inl hm)] at h
      exact .inr (.inr (.inr ⟨j, s, rfl, .inl rfl, h⟩))
    · rw [step, fetch, hm, hs] at h
      cases h
      exact .inr (.inl ⟨by simp, .inl rfl⟩)
  · rcases m with d | _ | _
    · rcases hs : s.seq with _ | j | _
      · rcases hd : decodeDescriptor d with e | i
        · rw [step, fetch, hm, hs] at h
          simp only [readDescriptor, hd] at h
          cases h
        · rw [step_issue hs hm hd] at h
          obtain ⟨hr, rfl⟩ := acceptCommand_eq_next.1 h
          exact .inr (.inr (.inl ⟨d, ms, i, rfl, rfl, hd, hr, rfl⟩))
      · rw [step_exec hs (.inr ⟨d, ms, hm⟩)] at h
        exact .inr (.inr (.inr ⟨j, s, rfl, .inl rfl, h⟩))
      · rw [step, fetch, hm, hs] at h
        cases h
        exact .inr (.inl ⟨by simp, .inr rfl⟩)
    · rw [step_reset hm] at h
      cases h
      exact .inl ⟨ms, rfl, rfl⟩
    · rcases hs : s.seq with _ | j | _
      · rw [step, fetch, hm, hs] at h
        cases h
        exact .inr (.inl ⟨by simp, .inr rfl⟩)
      · rw [step_observe hs hm] at h
        exact .inr (.inr (.inr ⟨j, _, rfl, .inr rfl, h⟩))
      · rw [step, fetch, hm, hs] at h
        cases h
        exact .inr (.inl ⟨by simp, .inr rfl⟩)

/-- Dropping a move changes nothing else. -/
theorem State.dropMove_eq (s : State) : s.dropMove = { s with hostMoves := s.hostMoves.tail } := rfl

/-! ### Many steps -/

theorem steps_add {m : Nat} {s t : State} (h : steps m s = .next t) (n : Nat) : steps (m + n) s = steps n t := by
  induction m generalizing s with
  | zero => cases h; rw [Nat.zero_add]
  | succ m ih =>
    rw [Nat.succ_add]
    rw [steps] at h ⊢
    rcases hs : step s with u | f | r <;> rw [hs] at h
    · exact ih h
    · cases h
    · cases h

theorem State.busy_bit {s : State} {j : Job} (h : s.seq = .exec j) : s.statusWord.getLsbD 0 = true := by
  have hb : s.busy = true := by rw [State.busy, h]; rfl
  rw [State.statusWord, hb]
  generalize s.status.animValid = a, s.status.frameValid = f, s.status.canvasValid = c, s.fatal = h, s.status.terr = r
  revert a f c h r
  decide

/-- One step of the work. -/
theorem RunsTo.last {s t : State} {j : Job} (hs : s.seq = .exec j) (hu : s.undisturbed) (h : workOn j s = .next t) :
    RunsTo s t := by
  refine ⟨0, ?_, fun m hm => ⟨s, ?_, State.busy_bit hs⟩⟩
  · rw [steps, step_exec hs hu, h]; rfl
  · rw [Nat.le_zero.1 hm]; rfl

theorem RunsTo.trans {s t u : State} (h : RunsTo s t) (g : RunsTo t u) : RunsTo s u := by
  obtain ⟨m, h1, h2⟩ := h
  obtain ⟨n, g1, g2⟩ := g
  refine ⟨m + 1 + n, ?_, fun k hk => ?_⟩
  · rw [Nat.add_assoc, steps_add h1]; exact g1
  · rcases Nat.lt_or_ge m k with hlt | hle
    · obtain ⟨v, h3, h4⟩ := g2 (k - (m + 1)) (by omega)
      refine ⟨v, ?_, h4⟩
      rw [show k = m + 1 + (k - (m + 1)) by omega, steps_add h1, h3]
    · exact h2 k hle

/-- One step of the work, and what follows it. -/
theorem RunsTo.turn {s t u : State} {j : Job} (hs : s.seq = .exec j) (hu : s.undisturbed) (h : workOn j s = .next t)
    (g : RunsTo t u) : RunsTo s u := (RunsTo.last hs hu h).trans g

end Sys2Proof.Machine
end

