-- ==== Sys2Proof/Laws/Sequencer.lean ====
section
/-! SUPPORT. The work of a command, step by step, comes to what its meaning says: the encoder's loop, the range's loop, and
the halves of a tick. -/

namespace Sys2Proof.Machine

/-! ### What the transport does not see -/

/-- The position of the work and the encoder's registers, which the transport neither sees nor writes. -/
def State.reposition (s : State) (q : Seq) (j : BitVec 6) (i k : BitVec 4) (acc : Byte) : State :=
  { s with seq := q, work := { s.work with j := j, i := i, k := k, acc := acc } }

/-- The same change wherever the work stands. -/
def Progress.map (f : State → State) : Progress → Progress
  | .done s => .done (f s)
  | .failed e s => .failed e (f s)
  | .reset s => .reset (f s)

theorem Progress.map_andThen (p : Progress) (f : State → State) {g h : State → Progress}
    (hg : ∀ s, g (f s) = (h s).map f) : (p.map f).andThen g = (p.andThen h).map f := by
  cases p <;> first | exact hg _ | rfl

section
variable (q : Seq) (j : BitVec 6) (i k : BitVec 4) (acc : Byte)

theorem State.devCut_reposition (s : State) (a n : Nat) :
    (s.reposition q j i k acc).devCut a n = (s.devCut a n).reposition q j i k acc := by
  unfold State.devCut
  rw [show (s.reposition q j i k acc).devSynced = s.devSynced from rfl]
  split <;> rfl

theorem State.devDeliver_reposition (s : State) (a : Nat) (p : List Byte) :
    (s.reposition q j i k acc).devDeliver a p = (s.devDeliver a p).reposition q j i k acc := by
  unfold State.devDeliver
  rw [show (s.reposition q j i k acc).devSynced = s.devSynced from rfl]
  split <;> rfl

theorem sendHeader_reposition (a : Half) (n : Nat) (s : State) :
    sendHeader a n (s.reposition q j i k acc) = (sendHeader a n s).map (·.reposition q j i k acc) := by
  have he : (s.reposition q j i k acc).eventAt 0 = s.eventAt 0 := rfl
  have hc := fun o d => State.devCut_reposition q j i k acc
    ((s.buildHeader a n).takeEvent.logWrite (packetHeader a.toNat n) o d) a.toNat n
  rw [sendHeader_eq, sendHeader_eq, he]
  rcases s.eventAt 0 with _ | ⟨e, d⟩ | _ | ⟨e, d⟩
  · rfl
  · exact congrArg (Progress.failed e) (hc _ _)
  · rfl
  · exact congrArg Progress.reset (hc _ _)

theorem sendPayload_reposition (a : Half) (p : List Byte) (s : State) :
    sendPayload a p (s.reposition q j i k acc) = (sendPayload a p s).map (·.reposition q j i k acc) := by
  have he : (s.reposition q j i k acc).eventAt 0 = s.eventAt 0 := rfl
  have hc := fun o d => State.devCut_reposition q j i k acc (s.takeEvent.logWrite p o d) a.toNat p.length
  rw [sendPayload_eq, sendPayload_eq, he]
  rcases s.eventAt 0 with _ | ⟨e, d⟩ | _ | ⟨e, d⟩
  · exact congrArg Progress.done (State.devDeliver_reposition q j i k acc (s.takeEvent.logWrite p _ _) _ p)
  · exact congrArg (Progress.failed e) (hc _ _)
  · exact congrArg Progress.reset (State.devCut_reposition q j i k acc s.takeEvent _ _)
  · exact congrArg Progress.reset (hc _ _)

theorem emitPacket_reposition (a : Half) (p : List Byte) (s : State) :
    emitPacket a p (s.reposition q j i k acc) = (emitPacket a p s).map (·.reposition q j i k acc) := by
  rw [emitPacket, sendHeader_reposition]
  exact Progress.map_andThen _ (·.reposition q j i k acc) (sendPayload_reposition q j i k acc a p)

theorem sendLoop_reposition (turns : Nat) (start : Half) (data : List Byte) (s : State) :
    sendLoop turns start data (s.reposition q j i k acc) =
      (sendLoop turns start data s).map (·.reposition q j i k acc) := by
  induction turns generalizing s with
  | zero => rfl
  | succ n ih =>
    have hc : ∀ start, (s.reposition q j i k acc).chunkAddress start = s.chunkAddress start := fun _ => rfl
    have hb : ∀ data, (s.reposition q j i k acc).chunkBytes data = s.chunkBytes data := fun _ => rfl
    rw [sendLoop, sendLoop, hc, hb, emitPacket_reposition]
    by_cases h : s.off.toNat < s.work.total.toNat
    · rw [if_pos h, if_pos (show (s.reposition q j i k acc).off.toNat <
        (s.reposition q j i k acc).work.total.toNat from h)]
      exact Progress.map_andThen _ (·.reposition q j i k acc) fun t => ih t.succeed.advanceOff
    · rw [if_neg h, if_neg (show ¬ (s.reposition q j i k acc).off.toNat <
        (s.reposition q j i k acc).work.total.toNat from h)]
      rfl

end

theorem sendRangeFrom_reposition (q : Seq) (j : BitVec 6) (i k : BitVec 4) (acc : Byte) (start : Half)
    (data : List Byte) (s : State) : sendRangeFrom start data (s.reposition q j i k acc) =
      (sendRangeFrom start data s).map (·.reposition q j i k acc) :=
  sendLoop_reposition q j i k acc _ start data (rangeStart data s)

/-- Moving the position is such a change, where the encoder's registers are kept. -/
theorem Progress.map_goTo {p : Progress} {s : State} (hk : TransportKept s p.state) (j : Job) :
    p.map (·.reposition (.exec j) s.work.j s.work.i s.work.k s.work.acc) = p.map (·.goTo j) := by
  have e : p.state.reposition (.exec j) s.work.j s.work.i s.work.k s.work.acc = p.state.goTo j := by
    rw [← hk.j, ← hk.i, ← hk.k, ← hk.acc]
    rfl
  cases p <;> exact congrArg _ e

theorem emitPacket_goTo (j : Job) (a : Half) (p : List Byte) (s : State) :
    emitPacket a p (s.goTo j) = (emitPacket a p s).map (·.goTo j) :=
  (emitPacket_reposition (.exec j) s.work.j s.work.i s.work.k s.work.acc a p s).trans
    (Progress.map_goTo (emitPacket_kept a p s).1 j)

theorem sendLoop_goTo (j : Job) (turns : Nat) (start : Half) (data : List Byte) (s : State) :
    sendLoop turns start data (s.goTo j) = (sendLoop turns start data s).map (·.goTo j) :=
  (sendLoop_reposition (.exec j) s.work.j s.work.i s.work.k s.work.acc turns start data s).trans
    (Progress.map_goTo (sendLoop_kept turns start data s) j)

theorem sendPayload_goTo (j : Job) (a : Half) (p : List Byte) (s : State) :
    sendPayload a p (s.goTo j) = (sendPayload a p s).map (·.goTo j) := by
  have h := sendPayload_reposition (.exec j) s.work.j s.work.i s.work.k s.work.acc a p s
  refine h.trans ?_
  rw [sendPayload_eq]
  unfold State.devCut State.devDeliver
  rcases s.eventAt 0 with _ | _ | _ | _ <;> simp only <;> (try split) <;> rfl

/-! ### One packet, in two steps -/

/-- A header keeps what the transport keeps, and OFF and TOTAL. -/
theorem sendHeader_kept (a : Half) (n : Nat) (s : State) : TransportKept s (sendHeader a n s).state ∧
    (sendHeader a n s).state.off = s.off ∧ (sendHeader a n s).state.work.total = s.work.total := by
  rw [sendHeader_eq]
  rcases s.eventAt 0 with _ | _ | _ | _ <;> refine ⟨?_, ?_, ?_⟩ <;> (try constructor) <;> simp

/-- A payload keeps what the transport keeps, and OFF and TOTAL. -/
theorem sendPayload_kept (a : Half) (p : List Byte) (s : State) : TransportKept s (sendPayload a p s).state ∧
    (sendPayload a p s).state.off = s.off ∧ (sendPayload a p s).state.work.total = s.work.total := by
  rw [sendPayload_eq]
  rcases s.eventAt 0 with _ | _ | _ | _ <;> refine ⟨?_, ?_, ?_⟩ <;> (try constructor) <;> simp

/-- A header writes no RESULT. -/
theorem sendHeader_result (a : Half) (n : Nat) (s : State) : (sendHeader a n s).state.result = s.result := by
  rw [sendHeader_eq]
  rcases s.eventAt 0 with _ | _ | _ | _ <;> simp

/-- What one transaction adds to TX, and, accepted, that the header is the last entry. -/
theorem sendHeader_done {a : Half} {n : Nat} {s t : State} (h : sendHeader a n s = .done t) :
    s.eventAt 0 = .ok ∧ t.tx = s.tx ++ [sentOk (packetHeader a.toNat n)] := by
  rw [sendHeader_eq] at h
  rcases he : s.eventAt 0 with _ | _ | _ | _ <;> rw [he] at h <;> cases h
  exact ⟨rfl, by simp [sentOk]⟩

theorem RunsTo.congr {s t u : State} (h : RunsTo s t) (e : t = u) : RunsTo s u := e ▸ h

theorem State.undisturbed_congr {s t : State} (h : t.hostMoves = s.hostMoves) (hu : s.undisturbed) : t.undisturbed := by
  unfold State.undisturbed
  rw [h]
  exact hu

/-- The two steps of WRITE_PACKET come to the end of its packet. -/
theorem runsTo_packet {s : State} {a : Half} {p : List Byte} (hs : s.seq = .exec (.packetHeader a p))
    (hu : s.undisturbed) : RunsTo s ((emitPacket a p s).finish State.releasePacket) := by
  have hw : workOn (.packetHeader a p) s = .next ((sendHeader a p.length s).turn State.releasePacket
      fun s => s.goTo (.packetPayload a p)) := rfl
  have hk : ∀ {t}, sendHeader a p.length s = .done t → TransportKept s t := fun {t} h => by
    have := (sendHeader_kept a p.length s).1
    rwa [h] at this
  unfold emitPacket
  rcases hh : sendHeader a p.length s with t | ⟨e, t⟩ | t <;> rw [hh] at hw
  · refine RunsTo.turn hs hu hw (RunsTo.last (j := .packetPayload a p) rfl
      (State.undisturbed_congr (hk hh).hostMoves hu) ?_)
    show Host.Outcome.next ((sendPayload a p (t.goTo (.packetPayload a p))).turn _ _) = _
    rw [sendPayload_goTo, Progress.done_andThen]
    cases sendPayload a p t <;> rfl
  · exact RunsTo.last hs hu hw
  · exact RunsTo.last hs hu hw

/-! ### The range's loop -/

/-- The end of a range's loop, wherever it ended. -/
def RangeUser.ended (u : RangeUser) (p : Progress) : State := p.turn u.release fun s => s.endRange u

theorem RangeUser.ended_goTo (u : RangeUser) (p : Progress) (j : Job) : u.ended (p.map (·.goTo j)) = u.ended p := by
  cases p <;> cases u <;> rfl

/-- From the head of the loop, the steps come to the end of the loop. -/
theorem runsTo_range {u : RangeUser} {start : Half} {data : List Byte} (turns : Nat) {s : State}
    (hs : s.seq = .exec (.rangeHeader u start data)) (hu : s.undisturbed)
    (ht : s.work.total.toNat ≤ s.off.toNat + 255 * turns) : RunsTo s (u.ended (sendLoop turns start data s)) := by
  induction turns generalizing s with
  | zero =>
    refine RunsTo.last hs hu ?_
    show Host.Outcome.next (s.rangeHeaderTurn u start data) = _
    rw [State.rangeHeaderTurn, if_neg (by omega)]
    rfl
  | succ n ih =>
    by_cases ho : s.off.toNat < s.work.total.toNat
    · have hw : workOn (.rangeHeader u start data) s = .next ((sendHeader (s.chunkAddress start)
          (s.chunkBytes data).length s).turn u.release fun s => s.goTo (.rangePayload u start data)) := by
        show Host.Outcome.next (s.rangeHeaderTurn u start data) = _
        rw [State.rangeHeaderTurn, if_pos ho]
      rw [sendLoop, if_pos ho, emitPacket]
      rcases hh : sendHeader (s.chunkAddress start) (s.chunkBytes data).length s with t | ⟨e, t⟩ | t <;> rw [hh] at hw
      · obtain ⟨h3, h1, h2⟩ := sendHeader_kept (s.chunkAddress start) (s.chunkBytes data).length s
        rw [hh] at h1 h2 h3
        have h1 : t.off = s.off := h1
        have h2 : t.work.total = s.work.total := h2
        have hut : t.undisturbed := State.undisturbed_congr h3.hostMoves hu
        refine RunsTo.turn hs hu hw ?_
        have ha : (t.goTo (.rangePayload u start data)).chunkAddress start = s.chunkAddress start := by
          show BitVec.ofNat 16 (start.toNat + t.off.toNat) = _
          rw [h1]; rfl
        have hb : (t.goTo (.rangePayload u start data)).chunkBytes data = s.chunkBytes data := by
          show (data.drop t.off.toNat).take (min Config.maxPayload (t.work.total.toNat - t.off.toNat)) = _
          rw [h1, h2]; rfl
        have hw2 : workOn (.rangePayload u start data) (t.goTo (.rangePayload u start data)) =
            .next ((sendPayload (s.chunkAddress start) (s.chunkBytes data) t).turn u.release
              fun s => s.succeed.advanceOff.goTo (.rangeHeader u start data)) := by
          show Host.Outcome.next (State.rangePayloadTurn u start data _) = _
          rw [State.rangePayloadTurn, ha, hb, sendPayload_goTo]
          cases sendPayload (s.chunkAddress start) (s.chunkBytes data) t <;> cases u <;> rfl
        rw [Progress.done_andThen]
        rcases hp : sendPayload (s.chunkAddress start) (s.chunkBytes data) t with v | ⟨e, v⟩ | v <;> rw [hp] at hw2
        · obtain ⟨k3, k1, k2⟩ := sendPayload_kept (s.chunkAddress start) (s.chunkBytes data) t
          rw [hp] at k1 k2 k3
          have k1 : v.off = t.off := k1
          have k2 : v.work.total = t.work.total := k2
          refine RunsTo.turn rfl hut hw2 ?_
          have hoff : v.succeed.advanceOff.off.toNat = v.off.toNat + min 255 (v.work.total.toNat - v.off.toNat) := by
            show (BitVec.ofNat 16 (v.off.toNat + min Config.maxPayload (v.work.total.toNat - v.off.toNat))).toNat = _
            rw [BitVec.toNat_ofNat, Nat.mod_eq_of_lt]
            have := v.work.total.isLt
            rw [k1, k2, h1, h2]
            show _ + min 255 _ < _
            omega
          have g := ih (s := v.succeed.advanceOff.goTo (.rangeHeader u start data)) rfl
            (State.undisturbed_congr (h3.trans k3).hostMoves hu) (by
              show v.work.total.toNat ≤ v.succeed.advanceOff.off.toNat + 255 * n
              rw [hoff, k1, k2, h1, h2]
              omega)
          rw [sendLoop_goTo, RangeUser.ended_goTo] at g
          exact g
        · exact RunsTo.last rfl hut hw2
        · exact RunsTo.last rfl hut hw2
      · exact RunsTo.last hs hu hw
      · exact RunsTo.last hs hu hw
    · rw [sendLoop_done _ _ _ (by omega)]
      refine RunsTo.last hs hu ?_
      show Host.Outcome.next (s.rangeHeaderTurn u start data) = _
      rw [State.rangeHeaderTurn, if_neg ho]
      rfl

/-- FILL's first step (42_transport R93); the copies stay a variable, so that no proof unrolls them. -/
theorem workOn_fill {v : Byte} {data : List Byte} (hd : data = List.replicate 1008 v) (s : State) :
    workOn (.issued (.fill v)) s = .next ((fillStart v s).startRange .fill 0#16 data) := by
  rw [hd]; rfl

/-- SEND_FRAME starts the range of FRAME's bytes, where each has a value (42_transport R95). -/
theorem State.startFrame_eq {u : RangeUser} {s : State} {data : List Byte} (hl : data.length = 1008)
    (hd : ∀ k < 1008, data[k]? = Memory.read s.frame k) : s.startFrame u = .next (s.startRange u 0#16 data) := by
  have hr : s.frame.readRange 0 Config.frameSize = some data :=
    (Memory.readRange_eq_some _ _ _ _).2 ⟨hl, fun k hk => by rw [Nat.zero_add, hd k hk]⟩
  rw [State.startFrame, hr]
  rfl

/-- What a next state of SEND_FRAME's start is. -/
theorem State.startFrame_inv {u : RangeUser} {s t : State} (h : s.startFrame u = .next t) :
    ∃ data : List Byte, data.length = 1008 ∧ (∀ k < 1008, data[k]? = Memory.read s.frame k) ∧
      t = s.startRange u 0#16 data := by
  rw [State.startFrame] at h
  cases hr : s.frame.readRange 0 Config.frameSize with
  | none => rw [hr] at h; cases h
  | some data =>
    obtain ⟨hl, hd⟩ := (Memory.readRange_eq_some _ _ _ _).1 hr
    rw [hr] at h
    exact ⟨data, hl, fun k hk => by rw [← hd k hk, Nat.zero_add], (Host.Outcome.next.inj h).symm⟩

/-- The start of a range, and its loop. -/
theorem runsTo_startRange (u : RangeUser) (start : Half) (data : List Byte) {s : State} (hu : s.undisturbed) :
    RunsTo (s.startRange u start data) (u.ended (sendRangeFrom start data s)) := by
  have h := runsTo_range (u := u) (start := start) (data := data) (chunkCount data.length)
    (s := s.startRange u start data) rfl hu (by
      show (BitVec.ofNat 16 data.length).toNat ≤ 0 + 255 * chunkCount data.length
      rw [chunkCount_eq, BitVec.toNat_ofNat]
      have := Nat.mod_le data.length (2 ^ 16)
      omega)
  rw [State.startRange, sendLoop_goTo, RangeUser.ended_goTo, ← sendRangeFrom_eq] at h
  exact h

/-! ### The encoder's loop -/

/-- ACC after the first `n` K steps of a byte. -/
def Canvas.packedPrefix (c : Canvas) (j i n : Nat) : Byte :=
  (List.range n).foldl (fun acc k => shiftIn acc (c.pixel (9 * i + k) (2 * j + 1))) 0#8

/-- The loop at the `n`-th pixel of the byte (J, I). -/
def State.atPixel (s : State) (n : Nat) : State :=
  { s with work := { s.work with
      k := BitVec.ofNat 4 n, acc := s.canvas.packedPrefix s.work.j.toNat s.work.i.toNat n } }

/-- With all eight pixels in, the byte is stored and the loop goes to the next place, or ends. -/
theorem State.encodeTurn_store (u : EncodeUser) {s : State} (hk : s.work.k = 8#4) : s.encodeTurn u =
    if s.work.i.toNat + 1 < 16 then s.storeByte.nextByte s.work.j (s.work.i + 1#4)
    else if s.work.j.toNat + 1 < 63 then s.storeByte.nextByte (s.work.j + 1#6) 0#4
    else s.storeByte.endEncoding u := by
  rw [State.encodeTurn, hk, if_neg (by decide)]
  rfl

theorem State.encodeTurn_pixel (u : EncodeUser) (s : State) {n : Nat} (hn : n < 8) :
    (s.atPixel n).encodeTurn u = s.atPixel (n + 1) := by
  have hk : (s.atPixel n).work.k.toNat = n := by
    show (BitVec.ofNat 4 n).toNat = n
    rw [BitVec.toNat_ofNat, Nat.mod_eq_of_lt (by omega)]
  rw [State.encodeTurn, if_pos (by omega), State.packPixel, hk]
  have e1 : (s.atPixel n).work.k + 1#4 = BitVec.ofNat 4 (n + 1) := by
    show BitVec.ofNat 4 n + 1#4 = _
    rw [BitVec.ofNat_add]
  have e2 : shiftIn (s.atPixel n).work.acc (s.canvas.pixel (9 * s.work.i.toNat + n) (2 * s.work.j.toNat + 1)) =
      s.canvas.packedPrefix s.work.j.toNat s.work.i.toNat (n + 1) := by
    unfold Canvas.packedPrefix
    rw [List.range_succ, List.foldl_append]
    rfl
  unfold State.atPixel at *
  simp only at *
  rw [e1, e2]

/-- The K steps of one byte. -/
theorem runsTo_pixels {u : EncodeUser} {s : State} (hs : s.seq = .exec (.encoding u)) (hu : s.undisturbed) {n : Nat}
    (hn : n < 8) : RunsTo (s.atPixel 0) (s.atPixel (n + 1)) := by
  have one : ∀ {m}, m < 8 → RunsTo (s.atPixel m) (s.atPixel (m + 1)) := fun hm =>
    RunsTo.last (j := .encoding u) hs hu (congrArg Host.Outcome.next (s.encodeTurn_pixel u hm))
  induction n with
  | zero => exact one hn
  | succ n ih => exact (ih (by omega)).trans (one hn)

/-- The state in which the loop has written its last byte, the bytes from place `n` on. -/
def State.encodedFrom (s : State) (n : Nat) : State :=
  { s with
    frame := s.frame.writeRange n (s.canvas.encodedBytes.drop n)
    work := { s.work with j := 62#6, i := 15#4, k := 8#4, acc := s.canvas.packedByte 62 15 } }

theorem Canvas.encodedBytes_drop (c : Canvas) {n : Nat} (hn : n < 1008) :
    c.encodedBytes.drop n = c.packedByte (n / 16) (n % 16) :: c.encodedBytes.drop (n + 1) := by
  rw [List.drop_eq_getElem_cons (by simpa using hn)]
  have h : c.encodedBytes[n]'(by simpa using hn) = c.packedByte (n / 16) (n % 16) := by
    unfold Canvas.encodedBytes
    rw [List.getElem_map, List.getElem_range]
    rfl
  rw [h]

/-- From the start of a byte, the steps of the loop come to ENCODE's end. -/
theorem runsTo_encode {u : EncodeUser} (r : Nat) {s : State} (hs : s.seq = .exec (.encoding u)) (hu : s.undisturbed)
    (hk : s.work.k = 0#4) (ha : s.work.acc = 0#8) (hj : s.work.j.toNat < 63)
    (hr : 16 * s.work.j.toNat + s.work.i.toNat + r = 1007) :
    RunsTo s ((s.encodedFrom (16 * s.work.j.toNat + s.work.i.toNat)).endEncoding u) := by
  induction r generalizing s with
  | zero =>
    have e0 : s.atPixel 0 = s := by
      unfold State.atPixel
      rw [show BitVec.ofNat 4 0 = s.work.k from hk.symm, show Canvas.packedPrefix _ _ _ 0 = s.work.acc from ha.symm]
    have hi := s.work.i.isLt
    have hj62 : s.work.j = 62#6 := by apply BitVec.eq_of_toNat_eq; show _ = 62; omega
    have hi15 : s.work.i = 15#4 := by apply BitVec.eq_of_toNat_eq; show _ = 15; omega
    have h := runsTo_pixels hs hu (n := 7) (by omega)
    rw [e0] at h
    refine h.trans (RunsTo.last (j := .encoding u) hs hu ?_)
    show Host.Outcome.next ((s.atPixel 8).encodeTurn u) = _
    rw [State.encodeTurn_store u (s := s.atPixel 8) rfl,
      if_neg (show ¬ (s.atPixel 8).work.i.toNat + 1 < 16 from by
        show ¬ s.work.i.toNat + 1 < 16
        omega),
      if_neg (show ¬ (s.atPixel 8).work.j.toNat + 1 < 63 from by
        show ¬ s.work.j.toNat + 1 < 63
        omega)]
    have e : (s.atPixel 8).storeByte = s.encodedFrom (16 * s.work.j.toNat + s.work.i.toNat) := by
      have h62 : s.work.j.toNat = 62 := by rw [hj62]; rfl
      have h15 : s.work.i.toNat = 15 := by rw [hi15]; rfl
      have hd : s.canvas.encodedBytes.drop (1007 + 1) = [] := List.drop_of_length_le (by simp)
      unfold State.encodedFrom
      rw [h62, h15, Canvas.encodedBytes_drop _ (by omega), hd]
      unfold State.atPixel State.storeByte
      simp only [h62, h15]
      rw [hj62, hi15]
      rfl
    rw [e]
  | succ r ih =>
    have e0 : s.atPixel 0 = s := by
      unfold State.atPixel
      rw [show BitVec.ofNat 4 0 = s.work.k from hk.symm, show Canvas.packedPrefix _ _ _ 0 = s.work.acc from ha.symm]
    have hi := s.work.i.isLt
    have h := runsTo_pixels hs hu (n := 7) (by omega)
    rw [e0] at h
    refine h.trans ?_
    have hacc : (s.atPixel 8).work.acc = s.canvas.packedByte s.work.j.toNat s.work.i.toNat := rfl
    have next : ∀ (j : BitVec 6) (i : BitVec 4), j.toNat < 63 →
        16 * j.toNat + i.toNat = 16 * s.work.j.toNat + s.work.i.toNat + 1 →
        (s.atPixel 8).encodeTurn u = (s.atPixel 8).storeByte.nextByte j i →
        RunsTo (s.atPixel 8) ((s.encodedFrom (16 * s.work.j.toNat + s.work.i.toNat)).endEncoding u) := by
      intro j i hjlt hji ht
      refine RunsTo.turn (j := .encoding u) hs hu (congrArg Host.Outcome.next ht) ?_
      have g := ih (s := (s.atPixel 8).storeByte.nextByte j i) hs hu rfl rfl hjlt (by
        show 16 * j.toNat + i.toNat + r = 1007
        omega)
      have e : (((s.atPixel 8).storeByte.nextByte j i).encodedFrom (16 * j.toNat + i.toNat)) =
          s.encodedFrom (16 * s.work.j.toNat + s.work.i.toNat) := by
        unfold State.encodedFrom
        rw [hji, Canvas.encodedBytes_drop s.canvas (show 16 * s.work.j.toNat + s.work.i.toNat < 1008 by omega)]
        rw [show (16 * s.work.j.toNat + s.work.i.toNat) / 16 = s.work.j.toNat by omega,
          show (16 * s.work.j.toNat + s.work.i.toNat) % 16 = s.work.i.toNat by omega, Memory.writeRange]
        have hc : ((s.atPixel 8).storeByte.nextByte j i).canvas = s.canvas := rfl
        have hf : ((s.atPixel 8).storeByte.nextByte j i).frame =
            s.frame.write (16 * s.work.j.toNat + s.work.i.toNat) (s.canvas.packedByte s.work.j.toNat s.work.i.toNat) := rfl
        rw [hc, hf]
        generalize Memory.writeRange _ _ _ = m
        rfl
      rw [← e]
      exact g
    by_cases h1 : s.work.i.toNat + 1 < 16
    · have hiv : (s.work.i + 1#4).toNat = s.work.i.toNat + 1 := by
        rw [BitVec.toNat_add]
        show (s.work.i.toNat + 1) % 16 = _
        omega
      refine next s.work.j (s.work.i + 1#4) hj (by omega) ?_
      rw [State.encodeTurn_store u (s := s.atPixel 8) rfl, if_pos (show (s.atPixel 8).work.i.toNat + 1 < 16 from h1)]
      rfl
    · have h2 : s.work.j.toNat + 1 < 63 := by omega
      have hjv : (s.work.j + 1#6).toNat = s.work.j.toNat + 1 := by
        rw [BitVec.toNat_add]
        show (s.work.j.toNat + 1) % 64 = _
        omega
      refine next (s.work.j + 1#6) 0#4 (by omega) (by show 16 * (s.work.j + 1#6).toNat + 0 = _; omega) ?_
      rw [State.encodeTurn_store u (s := s.atPixel 8) rfl,
        if_neg (show ¬ (s.atPixel 8).work.i.toNat + 1 < 16 from h1), if_pos (show (s.atPixel 8).work.j.toNat + 1 < 63 from h2)]
      rfl

/-- The bytes written in place make the encoded frame. -/
theorem Memory.writeRange_encodedBytes {m : Memory} (h : Memory.wf 1008 m) (c : Canvas) :
    Memory.writeRange m 0 c.encodedBytes = c.encoded := by
  refine Memory.eq_of_read (Memory.wf_writeRange h (by simp)).1 (Canvas.wf_encoded c).1 fun a => ?_
  rw [Memory.read_writeRange, Canvas.read_encoded, Canvas.encodedBytes_length, frameSize_eq]
  by_cases ha : a < 1008
  · rw [if_pos ⟨by omega, by omega⟩, if_pos ha, Canvas.encodedBytes, List.getElem?_map, frameSize_eq, Nat.sub_zero,
      List.getElem?_range ha, Option.map_some]
  · rw [if_neg (by omega), if_neg ha]
    have hb : ∀ (n : Memory), (∀ d ∈ n, d.1 < 1008) → Memory.read n a = none := by
      intro n hn
      induction n with
      | nil => rfl
      | cons d n ih =>
        rw [Memory.read_cons, if_neg (by have := hn d (by simp); omega), ih fun e he => hn e (by simp [he])]
    exact hb m h.2

/-- ENCODE's steps, from its start to its end. -/
theorem runsTo_startEncoding (u : EncodeUser) {s : State} (hu : s.undisturbed) (hf : Memory.wf 1008 s.frame) :
    RunsTo (s.startEncoding u) (({ s.clearFrameValid with
      frame := s.canvas.encoded
      work := { s.work with j := 62#6, i := 15#4, k := 8#4, acc := s.canvas.packedByte 62 15 } }.goTo
        (.encoding u)).endEncoding u) := by
  have h := runsTo_encode (u := u) 1007 (s := s.startEncoding u) rfl hu rfl rfl (show (0#6).toNat < 63 by decide) rfl
  have e : (s.startEncoding u).encodedFrom 0 = { s.clearFrameValid with
      frame := s.canvas.encoded
      work := { s.work with j := 62#6, i := 15#4, k := 8#4, acc := s.canvas.packedByte 62 15 } }.goTo (.encoding u) := by
    unfold State.encodedFrom
    rw [List.drop_zero, show (s.startEncoding u).frame.writeRange 0 (s.startEncoding u).canvas.encodedBytes =
      s.canvas.encoded from Memory.writeRange_encodedBytes hf s.canvas]
    rfl
  rw [← e]
  exact h

/-! ### The tick -/

/-- A tick's end, and the end of one turn of RUN. -/
def Ticker.ended : Ticker → Progress → State
  | .tick, p => p.finish State.releaseTick
  | .run, p => p.finishTurn State.releaseTick

/-- The drawn and encoded picture, with the encoder's registers as its loop leaves them. -/
def State.tickEncoded (s : State) (k : Ticker) : State :=
  s.tickDrawn.encodeCanvas.reposition (.exec (.sendNext k)) 62#6 15#4 8#4 (s.tickDrawn.canvas.packedByte 62 15)

/-- Step 2's ENCODE comes to the encoded picture. -/
theorem runsTo_tickEncoded (k : Ticker) {s : State} (hu : s.undisturbed) (hf : Memory.wf 1008 s.frame) :
    RunsTo (s.tickDrawn.goTo (.encodeNext k)) (s.tickEncoded k) := by
  refine (RunsTo.turn (s := s.tickDrawn.goTo (.encodeNext k)) rfl hu rfl
    (runsTo_startEncoding (.ticker k) (s := s.tickDrawn.goTo (.encodeNext k)) hu hf)).congr ?_
  unfold State.tickEncoded State.encodeCanvas
  rw [show (s.tickDrawn.goTo (.encodeNext k)).canvas = s.tickDrawn.canvas from rfl]
  generalize s.tickDrawn.canvas.encoded = m, s.tickDrawn.canvas.packedByte 62 15 = b
  rfl

/-- From its step 2 on, a tick's steps come to the end of its work. -/
theorem runsTo_tick (k : Ticker) {s : State} (hu : s.undisturbed) (hf : Memory.wf 1008 s.frame) :
    RunsTo (s.tickDrawn.goTo (.encodeNext k)) (k.ended s.tickWork) := by
  refine (runsTo_tickEncoded k hu hf).trans ?_
  have hut : (s.tickEncoded k).undisturbed := hu
  have hw : workOn (.sendNext k) (s.tickEncoded k) =
      .next ((s.tickEncoded k).startRange (.ticker k) 0#16 s.tickDrawn.canvas.encodedBytes) := by
    show State.startFrame _ _ = _
    rw [State.startFrame, show (s.tickEncoded k).frame = s.tickDrawn.encodeCanvas.frame from rfl,
      s.tickDrawn.readRange_encodeCanvas]
    rfl
  refine RunsTo.turn rfl hut hw ?_
  have h := runsTo_startRange (.ticker k) 0#16 s.tickDrawn.canvas.encodedBytes hut
  rw [State.tickEncoded, sendRangeFrom_reposition, ← State.tickEncoded] at h
  have hk := s.tickSend_kept
  unfold State.tickWork
  rcases hp : sendRangeFrom 0#16 s.tickDrawn.canvas.encodedBytes s.tickDrawn.encodeCanvas with u | ⟨e, u⟩ | u <;>
    rw [hp] at h hk
  · have hud : u.undisturbed := State.undisturbed_congr hk.hostMoves hu
    refine h.trans (RunsTo.turn (j := .advance k) rfl hud rfl (RunsTo.last (j := .reverse k) rfl hud ?_))
    generalize s.tickDrawn.canvas.packedByte 62 15 = b
    cases u
    cases k <;> rfl
  · refine h.congr ?_
    cases k <;> rfl
  · refine h.congr ?_
    cases k <;> rfl

end Sys2Proof.Machine
end

