-- ==== Sys2Proof/Tests/Slice0.lean ====
section
/-! SUPPORT. Tests from the spec's vectors (95_test_vectors), the well-formedness smoke tests, and for every statement
with hypotheses a state and operands that meet them. -/

namespace Sys2Proof.Tests

open Sys2Proof.Machine

/-! ### Well-formedness: an ill-formed term for each check -/

theorem test_wf_write_packet_length : (Instr.writePacket 0#16 (List.replicate 65536 0#8)).wellFormed = false := by
  rw [Instr.wellFormed, List.length_replicate]
  decide
theorem test_wf_send_range_length : (Instr.sendRange 0#16 (List.replicate 65536 0#8)).wellFormed = false := by
  rw [Instr.wellFormed, List.length_replicate]
  decide
theorem test_wf_wire_packet_empty : (Instr.wirePacket 0#16 []).wellFormed = false := by decide
theorem test_wf_wire_packet_too_long : (Instr.wirePacket 0#16 (List.replicate 256 0#8)).wellFormed = false := by decide +kernel
theorem test_wf_reserved_names_a_command : (Instr.reserved 0x0B#8).wellFormed = false := by decide

/-! ### Decoding: words written out from 30_encoding R52, R59, R60 (95_test_vectors P1 to P5) -/

theorem test_decode_canvas_new : decodeDescriptor [0x01#8] = .ok .canvasNew := by decide
theorem test_decode_set_pixel : decodeDescriptor [0x02#8, 0x00#8, 0x03#8, 0x00#8, 0x01#8, 0x01#8] =
    .ok (.setPixel 3#16 1#16 true) := by decide
theorem test_decode_draw_circle : decodeDescriptor [0x03#8, 0x00#8, 0x08#8, 0x00#8, 0x03#8, 0x00#8, 0x03#8] =
    .ok (.drawCircle 8#16 3#16 3#16) := by decide
theorem test_decode_encode : decodeDescriptor [0x04#8] = .ok .encode := by decide
theorem test_decode_write_packet : decodeDescriptor [0x05#8, 0x00#8, 0x00#8, 0x00#8, 0x01#8, 0x1C#8] =
    .ok (.writePacket 0#16 [0x1C#8]) := by decide
theorem test_decode_send_range : decodeDescriptor [0x06#8, 0x01#8, 0x10#8, 0x00#8, 0x02#8, 0xFF#8, 0xFE#8] =
    .ok (.sendRange 0x0110#16 [0xFF#8, 0xFE#8]) := by decide
theorem test_decode_fill : decodeDescriptor [0x07#8, 0x00#8] = .ok (.fill 0x00#8) := by decide
theorem test_decode_send_frame : decodeDescriptor [0x08#8] = .ok .sendFrame := by decide
theorem test_decode_anim_init : decodeDescriptor [0x09#8] = .ok .animInit := by decide
theorem test_decode_tick : decodeDescriptor [0x0A#8] = .ok .tick := by decide
theorem test_decode_run : decodeDescriptor [0x0B#8] = .ok .run := by decide
theorem test_decode_wire_packet : decodePacket [0x00#8, 0x20#8, 0x02#8, 0xFD#8, 0x02#8, 0xAA#8, 0xAB#8, 0x07#8] =
    .ok (.wirePacket 0x02FD#16 [0xAA#8, 0xAB#8], [0x07#8]) := by decide
theorem test_decode_wire_packet_length_zero : decodePacket [0x00#8, 0x20#8, 0x00#8, 0x00#8, 0x00#8] =
    .error .notAPacket := by decide
theorem test_decode_reserved : decodeDescriptor [0x0C#8] = .ok (.reserved 0x0C#8) := by decide
theorem test_decode_pixel_value : decodeDescriptor [0x02#8, 0x00#8, 0x03#8, 0x00#8, 0x01#8, 0x02#8] =
    .error .badPixelValue := by decide
theorem test_decode_truncated : decodeDescriptor [0x05#8, 0x00#8, 0x00#8, 0x00#8, 0x02#8, 0x1C#8] =
    .error .truncated := by decide
theorem test_decode_trailing : decodeDescriptor [0x04#8, 0x00#8] = .error .trailing := by decide
theorem test_decode_table_word : decodeTableWord 8 0x03 = some (.drawCircle 0#16 0#16 0#16) := by decide +kernel
theorem test_decode_table_word_send_range : decodeTableWord 40 0x0200010006 = some (.sendRange 0x0001#16 [0#8, 0#8]) := by
  decide +kernel

/-! ### Single steps -/

/-- A frame of zeros. -/
@[irreducible] def blankFrame (n : Nat) : Memory := Memory.tabulate n fun _ => 0#8

theorem blankFrame_read {n k : Nat} (hk : k < n) : Memory.read (blankFrame n) k = some 0#8 := by
  unfold blankFrame
  rw [Memory.read_tabulate, if_pos hk]

theorem blankFrame_wf : Memory.wf 1008 (blankFrame Config.frameSize) := by
  unfold blankFrame
  exact Memory.wf_tabulate _ _

/-- A state in which everything is valid, with the host's coming moves and the channel's coming answers. -/
def ready (moves : List HostMove) (events : List Config.ChanEvent) : State :=
  { State.reset with
    frame := blankFrame Config.frameSize
    anim := Anim.initial
    status := { terr := false, canvasValid := true, frameValid := true, animValid := true }
    hostMoves := moves, events := events }

theorem ready_read (moves : List HostMove) (events : List Config.ChanEvent) {k : Nat} (hk : k < 1008) :
    Memory.read (ready moves events).frame k = some 0#8 := by
  rw [show (ready moves events).frame = blankFrame Config.frameSize from rfl, blankFrame_read]
  exact hk

theorem ready_frame (moves : List HostMove) (events : List Config.ChanEvent) (k : Nat) (hk : k < 1008) :
    (Memory.read (ready moves events).frame k).isSome = true := by
  rw [ready_read moves events hk]
  rfl

theorem ready_data (moves : List HostMove) (events : List Config.ChanEvent) (n : Nat) (hn : n = 1008) (k : Nat)
    (hk : k < 1008) : (List.replicate n 0#8)[k]? = Memory.read (ready moves events).frame k := by
  rw [List.getElem?_replicate, if_pos (hn ▸ hk), ready_read moves events hk]

/-- A byte device image that is not followed, so that a test does not write it. -/
def unwatched (s : State) : State := { s with devSynced := false }

/-- The state an outcome goes on to, or the state given. -/
def after (o : Host.Outcome State Fault Refusal) (s : State) : State :=
  match o with
  | .next t => t
  | .fault _ => s
  | .refused _ => s

/-- V1: CANVAS_NEW, from the host's first move: BUSY after its issue, then done (30_encoding R62). -/
theorem test_canvas_new :
    (after (step { State.reset with hostMoves := [.issue [0x01#8]] }) State.reset).statusWord = 0x01#8 ∧
    (after (steps 2 { State.reset with hostMoves := [.issue [0x01#8]] }) State.reset).statusWord = 0x08#8 := by decide
/-- 10_state R25: ENCODE's start clears FRAME_VALID while BUSY. -/
theorem test_encode_start : (after (steps 2 (ready [.issue [0x04#8]] [])) State.reset).statusWord = 0x29#8 := by decide
/-- 42_transport R83, R88: while the second header of FILL is next OFF is 255 and BUSY is 1, and RESULT, 1 before, is 0. -/
theorem test_fill_off :
    let t := after (steps 4 { unwatched (ready [.issue [0x07#8, 0xAA#8]] [.ok, .ok]) with result := 1#8 }) State.reset
    t.off = 255#16 ∧ t.statusWord = 0x39#8 ∧ t.tx.length = 2 ∧ t.result = 0#8 := by decide +kernel
/-- 60_exceptions R116: RESET between header and payload: the header stays in TX, and the device is followed no more. -/
theorem test_reset_between_writes :
    let t := after (steps 4 (ready [.issue [0x05#8, 0#8, 0#8, 0#8, 1#8, 0x1C#8], .observe, .observe, .reset] [.ok])) State.reset
    t.statusWord = 0x00#8 ∧ t.tx.length = 1 ∧ t.devSynced = false := by decide
/-- A state after a failed transaction, with one byte of the device left by a packet before it. -/
def lost (events : List Config.ChanEvent) : State :=
  { unwatched (ready [] events) with dev := [(5, 0x1C#8)], seq := .exec (.packetHeader 0#16 [0x55#8]) }
/-- 60_exceptions R118: a later accepted header is a later transaction, so that no byte of the device is known from it on;
RESET before it is none. -/
theorem test_header_after_failure :
    ((after (step (lost [.ok])) State.reset).tx.length, (after (step (lost [.ok])) State.reset).dev) = (1, []) ∧
    ((after (step (lost [.resetBefore])) State.reset).tx.length,
      (after (step (lost [.resetBefore])) State.reset).dev) = (0, [(5, 0x1C#8)]) := by decide
/-- V2, V14, V11a: pixels of row 1 land most significant bit first. -/
theorem test_set_pixel : (after (exec (.setPixel 3#16 1#16 true) (ready [] [])) State.reset).canvas.packedByte 0 0 =
    0x10#8 := by decide
/-- V9c. -/
theorem test_set_pixel_outside : exec (.setPixel 144#16 0#16 true) (ready [] []) = .refused .outsideGrid := rfl
/-- V3: the comparison is strict, and V5: a centre outside the grid. -/
theorem test_draw_circle_disk : inDisk 4 1 2 3 0 = true ∧ inDisk 4 1 2 2 1 = false ∧ inDisk (-1) (-1) 3 1 1 = true ∧
    inDisk (-1) (-1) 3 2 0 = false := by decide
/-- R71: the largest operands do not wrap. -/
theorem test_draw_circle_exact : inDisk (signedOf 0x8000#16) (signedOf 0x8000#16) (signedOf 0x8000#16) 143 125 = false := by
  decide
/-- V12a: P = A5 at group 0 of row 1; V11c: the ninth column is dropped. -/
theorem test_encode_byte : Canvas.packedByte [144, 146, 149, 151, 152] 0 0 = 0xA5#8 := by decide
/-- V19. -/
theorem test_encode_refused : exec .encode State.reset = .refused .canvasNotValid := rfl
/-- V21: one byte to address 0. -/
theorem test_write_packet : (after (exec (.writePacket 0#16 [0x1C#8]) (ready [] [.ok, .ok])) State.reset).tx =
    [{ bytes := [0x00#8, 0x20#8, 0x00#8, 0x00#8, 0x01#8], outcome := .ok, delivered := 5 },
     { bytes := [0x1C#8], outcome := .ok, delivered := 1 }] := by decide
/-- P4: 256 bytes halt the block, and STATUS reads 04. -/
theorem test_write_packet_too_long :
    (after (exec (.writePacket 0#16 (List.replicate 256 0#8)) State.reset) State.reset).statusWord = 0x04#8 := by decide +kernel
/-- V32: the fourth write fails: OFF 255, RESULT 1, four entries. -/
theorem test_send_range_fails :
    let t := after (exec (.sendRange 0x0100#16 (List.replicate 600 0xAA#8))
      (unwatched (ready [] [.ok, .ok, .ok, .fail 7 3]))) State.reset
    t.off = 255#16 ∧ t.result = 1#8 ∧ t.errorValue = some 7 ∧ t.tx.length = 4 := by decide +kernel
/-- 42_transport R87 at its boundary: one byte past the frame memory. -/
theorem test_send_range_refused : exec (.sendRange 0x03F0#16 [0#8]) State.reset = .refused .outOfRange := rfl
/-- V34: the four headers. -/
theorem test_fill : ((after (exec (.fill 0xAA#8) (unwatched (ready [] (List.replicate 8 .ok)))) State.reset).tx.map
    fun e => e.bytes.take 5) =
    [[0x00#8, 0x20#8, 0x00#8, 0x00#8, 0xFF#8], [0xAA#8, 0xAA#8, 0xAA#8, 0xAA#8, 0xAA#8],
     [0x00#8, 0x20#8, 0x00#8, 0xFF#8, 0xFF#8], [0xAA#8, 0xAA#8, 0xAA#8, 0xAA#8, 0xAA#8],
     [0x00#8, 0x20#8, 0x01#8, 0xFE#8, 0xFF#8], [0xAA#8, 0xAA#8, 0xAA#8, 0xAA#8, 0xAA#8],
     [0x00#8, 0x20#8, 0x02#8, 0xFD#8, 0xF3#8], [0xAA#8, 0xAA#8, 0xAA#8, 0xAA#8, 0xAA#8]] := by decide +kernel
/-- V37. -/
theorem test_send_frame_refused : exec .sendFrame State.reset = .refused .frameNotValid := rfl
/-- V40. -/
theorem test_anim_init : (after (exec .animInit State.reset) State.reset).anim =
    { cx := 72#16, cy := 63#16, dx := .pos, dy := .pos } := by decide
/-- V43, V44: the reversal on the advanced position. -/
theorem test_tick_advance : Anim.advance { cx := 131#16, cy := 106#16, dx := .pos, dy := .neg } =
    { cx := 132#16, cy := 105#16, dx := .neg, dy := .neg } ∧
    Anim.advance { cx := 13#16, cy := 38#16, dx := .neg, dy := .pos } =
    { cx := 12#16, cy := 39#16, dx := .pos, dy := .pos } := by decide
/-- V45: an overshoot is not clamped. -/
theorem test_tick_overshoot : Anim.advance { cx := 140#16, cy := 63#16, dx := .pos, dy := .pos } =
    { cx := 141#16, cy := 64#16, dx := .neg, dy := .pos } := by decide
/-- V47. -/
theorem test_tick_refused : exec .tick State.reset = .refused .animNotValid := rfl
theorem test_run_refused : exec .run State.reset = .refused .animNotValid := rfl
/-- A wire packet writes the device (10_state R30) and no RESULT. -/
theorem test_wire_packet : (after (exec (.wirePacket 0x03EF#16 [0x55#8]) (ready [] [.ok, .ok])) State.reset).dev =
    [(1007, 0x55#8)] := by decide
theorem test_reserved : exec (.reserved 0x0C#8) State.reset = .refused (.reservedOpcode 0x0C#8) := rfl
/-- RANGE_POLICY `emit` (log 16): sent unchecked, DEV forgotten. -/
theorem test_emit_policy :
    let t := after (writePacketUnder .emit 0x03F0#16 [0x55#8] (ready [] [.ok, .ok])) State.reset
    t.tx.length = 2 ∧ t.dev = [] ∧ t.devSynced = false := by decide
/-- RESET with the payload in flight (60_exceptions R116): logged as failed, the block as after reset. -/
theorem test_reset_in_flight :
    let t := after (exec (.writePacket 0#16 [0x1C#8, 0x1D#8]) (ready [] [.ok, .resetDuring 9 1])) State.reset
    t.statusWord = 0x00#8 ∧ (t.tx.map fun e => e.delivered) = [5, 1] := by decide
/-- The table's word is the next thing executed. -/
theorem test_fetch_word : (after (step (State.reset.withFetchWord 8 0x09)) State.reset).seq = .exec (.issued .animInit) ∧
    (after (steps 2 (State.reset.withFetchWord 8 0x09)) State.reset).status.animValid = true := by decide

/-! ### Memory laws at reset -/

theorem test_reset_memories : Memory.wf 1008 State.reset.frame ∧ Memory.wf 1008 State.reset.dev ∧
    Canvas.wf State.reset.canvas := ⟨Memory.wf_nil _, Memory.wf_nil _, Canvas.wf_nil⟩

/-! ### Witnesses: for each statement with hypotheses, and each of its clauses, something that meets them -/

theorem test_witness_DescriptorRoundTrip : ∃ i : Instr, i.wellFormed = true ∧ i.isCommand = true ∧
    i = .sendRange 0xFFFF#16 (List.replicate 65535 0#8) :=
  ⟨_, by rw [Instr.wellFormed, List.length_replicate]; decide, rfl, rfl⟩
theorem test_witness_WirePacketRoundTrip : ∀ n, n = 1 ∨ n = 255 →
    (Instr.wirePacket 0xFFFF#16 (List.replicate n 0#8)).wellFormed = true := by
  rintro n (rfl | rfl) <;> decide +kernel
theorem test_witness_DecodedBytesAreTheEncoding : ∃ (bs rest : List Byte) (i : Instr), decode bs = .ok (i, rest) :=
  ⟨[0x0A#8, 0x0B#8], [0x0B#8], .tick, rfl⟩
theorem test_witness_InvalidEncodingsRefused_opcode : ∀ op : Byte, op = 0x00#8 ∨ op = 0x0C#8 ∨ op = 0xFF#8 →
    (op.toNat = 0 ∨ 0x0C ≤ op.toNat) ∧ (ready [.issue [op]] []).seq = .idle ∧
      (ready [.issue [op]] []).hostMoves = .issue (op :: []) :: [] := by
  rintro op (rfl | rfl | rfl) <;> exact ⟨by decide, rfl, rfl⟩
theorem test_witness_InvalidEncodingsRefused_pixel : ∀ v : Byte, v = 0x02#8 ∨ v = 0xFF#8 →
    1 < v.toNat ∧ ∃ s : State, s.seq = .idle ∧ s.hostMoves = .issue [0x02#8, 0#8, 0#8, 0#8, 0#8, v] :: [] := by
  rintro v (rfl | rfl) <;> exact ⟨by decide, ready [.issue _] [], rfl, rfl⟩
theorem test_witness_StepRunsTheDescriptor : ∃ (s u : State) (d : List Byte) (i : Instr), s.seq = .idle ∧
    s.hostMoves = .issue d :: [] ∧ decodeDescriptor d = .ok i ∧ (∀ r, exec i { s with hostMoves := [] } ≠ .refused r) ∧
    u.seq = .idle ∧ u.hostMoves = .issue d :: [] ∧ exec i { u with hostMoves := [] } = .refused .canvasNotValid :=
  ⟨ready [.issue [0x04#8]] [], { State.reset with hostMoves := [.issue [0x04#8]] }, _, .encode, rfl, rfl, rfl,
    (fun r h => by rw [exec_encode rfl] at h; cases h), rfl, rfl, rfl⟩
/-- The moves of `StepContinuesTheWork`, at a position of each kind. -/
theorem test_witness_StepContinuesTheWork : ∀ (m : List HostMove) (j : Job), m = [] ∨ m = [.issue [0x04#8]] ∨ m = [.observe] →
    ((ready m []).goTo j).seq = .exec j ∧ ((ready m []).goTo j).hostMoves = m := fun _ _ _ => ⟨rfl, rfl⟩
theorem test_witness_CommandRunsToItsMeaning : ∃ s u : State, s.seq = .exec (.issued .encode) ∧ s.undisturbed ∧
    Memory.wf 1008 s.frame ∧ (∃ t, exec .encode s = .next t) ∧ u.seq = .exec (.issued .sendFrame) ∧ u.undisturbed ∧
    Memory.wf 1008 u.frame ∧ exec .sendFrame u = .fault .frameByteNoValue := by
  refine ⟨(ready [.issue [0x0A#8]] []).goTo (.issued .encode), { ready [] [] with frame := [], seq := .exec (.issued .sendFrame) },
    rfl, .inr ⟨_, _, rfl⟩, ?_, ⟨_, exec_encode rfl⟩, rfl, .inl rfl, Memory.wf_nil _, ?_⟩
  · exact blankFrame_wf
  · have h := congrArg (refuseOr · (Host.Outcome.fault .frameByteNoValue)) (frameRefusal_eq_none
      (s := { ready [] [] with frame := [], seq := .exec (.issued .sendFrame) }).2 rfl)
    exact h
theorem test_witness_NothingHappensUnasked : ((ready [] []).seq = .idle ∧ (ready [] []).hostMoves = []) ∧
    ((ready [.observe] []).seq = .idle ∧ (ready [.observe] []).hostMoves = .observe :: []) ∧
    (∃ s : State, s.seq = .halt ∧ ∀ moves, s.hostMoves ≠ .reset :: moves) :=
  ⟨⟨rfl, rfl⟩, ⟨rfl, rfl⟩, (ready [.issue [0x01#8]] []).raiseContractViolation, rfl, fun _ h => by cases h⟩
theorem test_witness_ResetLeaves : ((ready [.reset] []).hostMoves = .reset :: [] ∧
      ∀ j, (ready [.reset] []).seq = .exec j → j.phase ≠ some .payload) ∧
    (∀ j, ((ready [.reset] []).goTo j).hostMoves = .reset :: [] ∧ ((ready [.reset] []).goTo j).devSynced = true) ∧
    (0x03EF#16 : Half).toNat + [0x55#8].length ≤ 1008 ∧
    (rangeStart [0x55#8] (ready [.reset] [])).RangeAt 0x03EF#16 [0x55#8] :=
  ⟨⟨rfl, fun _ h => by cases h⟩, fun _ => ⟨rfl, rfl⟩, by decide, by unfold State.RangeAt; decide⟩

/-- The last byte of the frame memory, and the longest payload that ends there. -/
theorem test_witness_packet_bounds : (1 ≤ [0x55#8].length ∧ [0x55#8].length ≤ 255 ∧
      (0x03EF#16 : Half).toNat + [0x55#8].length ≤ 1008) ∧
    (1 ≤ (List.replicate 255 0x55#8).length ∧ (List.replicate 255 0x55#8).length ≤ 255 ∧
      (0x02F1#16 : Half).toNat + (List.replicate 255 0x55#8).length ≤ 1008) := by decide +kernel
theorem test_witness_ResetCutsAPacket : (ready [] [.resetBefore]).eventAt 0 = .resetBefore ∧
    (ready [] [.resetDuring 9 3]).eventAt 0 = .resetDuring 9 3 ∧
    ((ready [] [.ok, .resetBefore]).eventAt 0 = .ok ∧ (ready [] [.ok, .resetBefore]).eventAt 1 = .resetBefore) ∧
    ((ready [] [.ok, .resetDuring 9 1]).eventAt 0 = .ok ∧
      (ready [] [.ok, .resetDuring 9 1]).eventAt 1 = .resetDuring 9 1) := by decide
/-- Each command that sends a range, in a state in which it does. -/
theorem test_witness_sends : ∀ events : List Config.ChanEvent,
    sends (.sendRange 0x03EF#16 [0x55#8]) (ready [] events) 0x03EF#16 [0x55#8] ∧
    sends (.fill 0xAA#8) (ready [] events) 0#16 (List.replicate 1008 0xAA#8) ∧
    sends .sendFrame (ready [] events) 0#16 (List.replicate 1008 0#8) ∧
    (∃ data, sends .tick (ready [] events) 0#16 data) ∧ ∃ data, sends .run (ready [] events) 0#16 data := by
  intro events
  have picture : (0#16 : Half) = 0#16 ∧ (ready [] events).status.animValid = true ∧
      (ready [] events).tickDrawn.canvas.encodedBytes.length = 1008 ∧
      ∀ j i k, j < 63 → i < 16 → k < 8 → ∃ b, (ready [] events).tickDrawn.canvas.encodedBytes[16 * j + i]? = some b ∧
        (b.getLsbD (7 - k) = true ↔ ((9 * i + k : Nat) - (ready [] events).anim.cx.toInt : Int) ^ 2 +
          ((2 * j + 1 : Nat) - (ready [] events).anim.cy.toInt : Int) ^ 2 < 12 ^ 2) := by
    refine ⟨rfl, rfl, Canvas.encodedBytes_length _, fun j i k hj hi hk => ?_⟩
    obtain ⟨b, hb, hbit⟩ := (ready [] events).tickDrawn.encodeCanvas_bit hj hi hk
    refine ⟨b, by rw [State.encodedBytes_eq _ (by omega), hb], ?_⟩
    rw [hbit, State.tickDrawn_pixel _ (by omega) (by omega)]
  refine ⟨.inl ⟨rfl, by decide⟩, .inr (.inl ⟨⟨_, rfl, rfl⟩, rfl⟩), .inr (.inr (.inl ⟨rfl, rfl, rfl, List.length_replicate,
    ready_data _ _ _ rfl⟩)), ⟨_, .inr (.inr (.inr ⟨.inl rfl, picture⟩))⟩, _, .inr (.inr (.inr ⟨.inr rfl, picture⟩))⟩
/-- RESET in the first and in the last packet of a range of 1008 bytes, in each of the four ways. -/
theorem test_witness_ResetCutsARange : 3 < ((List.replicate 1008 0#8 : List Byte).length + 254) / 255 ∧
    ((ready [] [.resetBefore]).allOk (2 * 0) ∧ (ready [] [.resetBefore]).eventAt (2 * 0) = .resetBefore) ∧
    ((ready [] (List.replicate 6 .ok ++ [.resetDuring 7 0])).allOk (2 * 3) ∧
      (ready [] (List.replicate 6 .ok ++ [.resetDuring 7 0])).eventAt (2 * 3) = .resetDuring 7 0) ∧
    ((ready [] (List.replicate 7 .ok ++ [.resetBefore])).allOk (2 * 3) ∧
      (ready [] (List.replicate 7 .ok ++ [.resetBefore])).eventAt (2 * 3) = .ok ∧
      (ready [] (List.replicate 7 .ok ++ [.resetBefore])).eventAt (2 * 3 + 1) = .resetBefore) ∧
    ((ready [] [.ok, .resetDuring 7 0]).allOk (2 * 0) ∧ (ready [] [.ok, .resetDuring 7 0]).eventAt (2 * 0) = .ok ∧
      (ready [] [.ok, .resetDuring 7 0]).eventAt (2 * 0 + 1) = .resetDuring 7 0) := by
  unfold State.allOk
  rw [List.length_replicate]
  decide
/-- ENCODE's loop at its places: a K step, the eighth pixel in, the end of a row, the last byte. -/
theorem test_witness_EncodeWork : ∀ (j : Job) (r : BitVec 6) (i k : BitVec 4), ∃ s : State, s.seq = .exec j ∧ s.undisturbed ∧
    s.work.j = r ∧ s.work.i = i ∧ s.work.k = k ∧ ((7#4).toNat < 8 ∧ (8#4).toNat = 8 ∧ (14#4).toNat < 15 ∧ (15#4).toNat = 15 ∧
      (61#6).toNat < 62 ∧ (62#6).toNat = 62) := fun j r i k =>
  ⟨(ready [] []).reposition (.exec j) r i k 0#8, rfl, .inl rfl, rfl, rfl, rfl, by decide⟩
/-- A range at its start and at its end, and the two answers of its next write. -/
theorem test_witness_TransportWork : (∀ j, ((ready [] []).goTo j).seq = .exec j ∧ ((ready [] []).goTo j).undisturbed) ∧
    (rangeStart [0x55#8] (ready [] [])).RangeAt 0x03EF#16 [0x55#8] ∧ (rangeStart [0x55#8] (ready [] [])).off.toNat < 1 ∧
    { rangeStart [0x55#8] (ready [] []) with off := 1#16 }.RangeAt 0x03EF#16 [0x55#8] ∧
    (ready [] [.ok]).eventAt 0 = .ok ∧ (ready [] [.fail 7 0]).eventAt 0 = .fail 7 0 := by
  refine ⟨fun _ => ⟨rfl, .inl rfl⟩, ?_, by decide, ?_, rfl, rfl⟩ <;> unfold State.RangeAt <;> decide
theorem test_witness_TickWork : (∀ j, ((ready [] []).goTo j).seq = .exec j ∧ ((ready [] []).goTo j).undisturbed) ∧
    (∃ data : List Byte, data.length = 1008 ∧ ∀ n < 1008, data[n]? = Memory.read (ready [] []).frame n) ∧
    ∃ (s t : State) (j j' : Job), s.seq = .exec j ∧ s.undisturbed ∧ step s = .next t ∧ t.seq = .exec j' ∧
      j.tickStep = some 4 ∧ j'.tickStep = some 1 :=
  ⟨fun _ => ⟨rfl, .inl rfl⟩, ⟨_, List.length_replicate, ready_data _ _ _ rfl⟩, (ready [] []).goTo (.reverse .run), _, _, _,
    rfl, .inl rfl, rfl, rfl, rfl, rfl⟩
theorem test_witness_WritePacketFails : (ready [] [.fail 7 5]).eventAt 0 = .fail 7 5 ∧
    (ready [] [.ok, .fail 7 0]).eventAt 0 = .ok ∧ (ready [] [.ok, .fail 7 0]).eventAt 1 = .fail 7 0 := by decide
theorem test_witness_allOk_two : (ready [] [.ok, .ok]).allOk 2 := by
  unfold State.allOk
  decide
theorem test_witness_resetFree_two : (ready [] [.ok, .fail 7 0]).resetFree 2 := by
  unfold State.resetFree
  decide
theorem test_witness_allOk_eight : (ready [] (List.replicate 8 .ok)).allOk 8 := by
  unfold State.allOk
  decide
theorem test_witness_resetFree_eight : (ready [] (.ok :: .fail 7 0 :: List.replicate 6 .ok)).resetFree 8 := by
  unfold State.resetFree
  decide

theorem test_witness_SetPixelWrites : ((ready [] []).status.canvasValid = true ∧ (143#16 : Half).toNat < 144 ∧
      (125#16 : Half).toNat < 126) ∧ State.reset.status.canvasValid = false ∧
    (144 ≤ (144#16 : Half).toNat ∨ 126 ≤ (0#16 : Half).toNat) ∧ (144 ≤ (0#16 : Half).toNat ∨ 126 ≤ (126#16 : Half).toNat) := by
  decide
theorem test_witness_DrawCircleSetsTheDisk : (ready [] []).status.canvasValid = true ∧
    State.reset.status.canvasValid = false := ⟨rfl, rfl⟩
theorem test_witness_DrawCircleLaws : ∀ d : Half, ∃ t u v : State, exec (.drawCircle 0xFFFF#16 0xFFFF#16 d) (ready [] []) =
    .next t ∧ exec (.drawCircle 0xFFFF#16 0xFFFF#16 d) t = .next u ∧
    exec (.drawCircle 0xFFFF#16 0xFFFF#16 (-d)) (ready [] []) = .next v :=
  fun d => ⟨_, _, _, exec_drawCircle _ _ d rfl, exec_drawCircle _ _ d rfl, exec_drawCircle _ _ (-d) rfl⟩
theorem test_witness_CanvasAndAnimInitFrame : ∀ i : Instr, i = .canvasNew ∨ i = .setPixel 143#16 125#16 true ∨
    i = .drawCircle 0#16 0#16 0x8000#16 ∨ i = .animInit → ∃ t, exec i (ready [] []) = .next t := by
  rintro i (rfl | rfl | rfl | rfl)
  · exact ⟨_, rfl⟩
  · exact ⟨_, exec_setPixel true rfl (by decide) (by decide)⟩
  · exact ⟨_, exec_drawCircle _ _ _ rfl⟩
  · exact ⟨_, rfl⟩
theorem test_witness_Encode : (ready [] []).status.canvasValid = true ∧ State.reset.status.canvasValid = false ∧
    ∃ t, exec .encode (ready [] []) = .next t := ⟨rfl, rfl, _, exec_encode rfl⟩
theorem test_witness_ValidBitsGuardReads : State.reset.status.canvasValid = false ∧
    State.reset.status.frameValid = false ∧ State.reset.status.animValid = false ∧
    (ready [.reset] []).hostMoves = .reset :: [] := ⟨rfl, rfl, rfl, rfl⟩
theorem test_witness_RepresentedPixelHasItsBit : represented 142 125 ∧ represented 0 1 ∧ ¬ represented 143 125 ∧
    ¬ represented 142 124 := by
  unfold represented
  decide
theorem test_witness_EncodeIgnoresTheRest : ∃ s s' : State, s.canvas ≠ s'.canvas ∧
    (∀ x y, represented x y → Canvas.pixel s.canvas x y = Canvas.pixel s'.canvas x y) ∧
    (∃ t, exec .encode s = .next t) ∧ ∃ t', exec .encode s' = .next t' := by
  refine ⟨ready [] [], { ready [] [] with canvas := [0] }, by decide, fun x y h => ?_, ⟨_, exec_encode rfl⟩,
    _, exec_encode rfl⟩
  unfold represented at h
  have : pixelIndex x y ≠ 0 := by
    unfold pixelIndex Config.width
    omega
  simp [Canvas.pixel, this, ready, State.reset]
theorem test_witness_TooLongPayloadHalts : 255 < (List.replicate 256 0#8 : List Byte).length ∧
    (∀ moves, (ready [.issue [0x01#8]] []).raiseContractViolation.hostMoves ≠ .reset :: moves) ∧
    (ready [.reset] []).raiseContractViolation.hostMoves = .reset :: [] :=
  ⟨by rw [List.length_replicate]; decide, fun _ h => (by cases h), rfl⟩
theorem test_witness_WritePacketRefused : 1 ≤ [0x55#8].length ∧ [0x55#8].length ≤ 255 ∧
    1008 < (0x03F0#16 : Half).toNat + [0x55#8].length := by decide
theorem test_witness_PacketFrame : (∃ t, exec (.writePacket 0x03EF#16 [0x55#8]) (ready [] [.ok, .fail 7 0]) = .next t) ∧
    ∃ t, exec (.wirePacket 0x03EF#16 [0x55#8]) (ready [] [.ok, .fail 7 0]) = .next t := ⟨⟨_, rfl⟩, _, rfl⟩

theorem test_witness_SendRangeSends : (0x03F0#16 : Half).toNat + ([] : List Byte).length ≤ 1008 ∧
    (0#16 : Half).toNat + (List.replicate 1008 0#8 : List Byte).length ≤ 1008 ∧
    (ready [] []).allOk (2 * ((([] : List Byte).length + 254) / 255)) ∧
    (ready [] (List.replicate 8 .ok)).allOk (2 * (((List.replicate 1008 0#8 : List Byte).length + 254) / 255)) := by
  unfold State.allOk
  rw [List.length_replicate]
  decide
theorem test_witness_ChunkLaw : 1 ≤ (List.replicate 1008 0#8 : List Byte).length ∧
    4 = ((List.replicate 1008 0#8 : List Byte).length + 254) / 255 ∧
    (0#16 : Half).toNat + (List.replicate 1008 0#8 : List Byte).length ≤ 1008 ∧
    (ready [] (List.replicate 8 .ok)).allOk (2 * 4) := by
  unfold State.allOk
  rw [List.length_replicate]
  decide
theorem test_witness_SendRangeStopsAtFailure : 3 < ((List.replicate 1008 0#8 : List Byte).length + 254) / 255 ∧
    (ready [] [.fail 7 0]).allOk (2 * 0) ∧ (ready [] [.fail 7 0]).eventAt (2 * 0) = .fail 7 0 ∧
    (ready [] (List.replicate 7 .ok ++ [.fail 7 0])).allOk (2 * 3) ∧
    (ready [] (List.replicate 7 .ok ++ [.fail 7 0])).eventAt (2 * 3) = .ok ∧
    (ready [] (List.replicate 7 .ok ++ [.fail 7 0])).eventAt (2 * 3 + 1) = .fail 7 0 := by
  unfold State.allOk
  rw [List.length_replicate]
  decide
/-- The premise of `FailedRangeOnTheDevice` beyond those of `SendRangeStopsAtFailure`. -/
theorem test_witness_FailedRangeOnTheDevice (events : List Config.ChanEvent) : (ready [] events).devSynced = true := rfl
/-- Its clauses on a device that is followed no more: a step and a command that write to the channel. -/
theorem test_witness_FailedRangeOnTheDevice_later : (lost [.ok]).devSynced = false ∧
    (∃ t, step (lost [.ok]) = .next t ∧ t.tx ≠ (lost [.ok]).tx) ∧
    ∃ t, exec (.writePacket 0#16 [0x55#8]) (lost [.ok, .ok]) = .next t ∧ t.tx ≠ (lost [.ok, .ok]).tx :=
  ⟨rfl, ⟨_, rfl, by decide⟩, ⟨_, rfl, by decide⟩⟩
theorem test_witness_SendRangeChecksItsRange : 1008 < (0x03F0#16 : Half).toNat + [0x55#8].length ∧
    (0x03F0#16 : Half).toNat + ([] : List Byte).length ≤ 1008 := by decide
theorem test_witness_RangeFrame : ((ready [] [.ok, .fail 7 0]).resetFree (2 * ((1 + 254) / 255)) ∧
    ∃ t, exec (.sendRange 0x03EF#16 [0x55#8]) (ready [] [.ok, .fail 7 0]) = .next t) ∧
    ∀ events v, (∃ t, exec .sendFrame (ready [] events) = .next t) ∧ ∃ t, exec (.fill v) (ready [] events) = .next t := by
  refine ⟨⟨?_, _, rfl⟩, fun events v =>
    ⟨⟨_, exec_sendFrame rfl List.length_replicate (ready_data _ _ _ rfl)⟩, _, exec_fill _ _⟩⟩
  unfold State.resetFree
  decide
/-- A range of the emit reading that ends at the last 16-bit address. -/
theorem test_witness_SendRangeEmit : (0xFFFF#16 : Half).toNat + [0x55#8].length ≤ 65536 ∧ [0x55#8].length < 65536 ∧
    (ready [] [.ok, .ok]).allOk (2 * (([0x55#8].length + 254) / 255)) := by
  unfold State.allOk
  decide
theorem test_witness_SendFrame : (ready [] []).status.frameValid = true ∧ State.reset.status.frameValid = false ∧
    (∀ k < 1008, (Memory.read (ready [] []).frame k).isSome = true) ∧ ∃ data : List Byte, data.length = 1008 ∧
      ∀ k < 1008, data[k]? = Memory.read (ready [] []).frame k :=
  ⟨rfl, rfl, ready_frame _ _, _, List.length_replicate, ready_data _ _ _ rfl⟩

theorem test_witness_Tick : (ready [] []).status.animValid = true ∧ (ready [] []).devSynced = true ∧
    State.reset.status.animValid = false := ⟨rfl, rfl, rfl⟩
theorem test_witness_TickShowsTheDiskOnTheDevice : represented 64 53 ∧ represented 142 125 := by
  unfold represented
  decide
theorem test_witness_AdvanceAndReverse :
    (-32768 ≤ (0x7FFE#16 : Half).toInt + Dir.pos.value ∧ (0x7FFE#16 : Half).toInt + Dir.pos.value ≤ 32767) ∧
    (-32768 ≤ (0x8001#16 : Half).toInt + Dir.neg.value ∧ (0x8001#16 : Half).toInt + Dir.neg.value ≤ 32767) := by decide
theorem test_witness_failing_tick : ((ready [] [.fail 7 5]).allOk 0 ∧ (ready [] [.fail 7 5]).eventAt 0 = .fail 7 5) ∧
    ((ready [] (List.replicate 7 .ok ++ [.fail 7 0])).allOk 7 ∧
      (ready [] (List.replicate 7 .ok ++ [.fail 7 0])).eventAt 7 = .fail 7 0) ∧
    ∀ events, (ready [] events).status.animValid = true := by
  refine ⟨?_, ?_, fun _ => rfl⟩ <;> unfold State.allOk <;> decide
theorem test_witness_TickFrame (events : List Config.ChanEvent) : (∃ t, exec .tick (ready [] events) = .next t) ∧
    ∃ t, exec .run (ready [] events) = .next t := ⟨⟨_, exec_tick rfl⟩, _, exec_run rfl⟩

/-- A state of RESET's values with one more command to come: it meets the three invariants, and a step goes on from it. -/
theorem test_witness_StepKeepsInv : ∃ s t : State, s.MemoryInv ∧ s.ControlInv ∧ s.AnimInv ∧ step s = .next t ∧
    s.hostMoves = [.issue [0x01#8]] := by
  refine ⟨{ State.reset with hostMoves := [.issue [0x01#8]] }, _, ⟨Canvas.wf_nil, Memory.wf_nil _, Memory.wf_nil _⟩, ?_,
    ?_, rfl, rfl⟩
  · simp [State.ControlInv, State.PositionInv, State.reset]
  · simp [State.AnimInv, State.reset]
/-- A state in the middle of a range, its header next, meets ControlInv, and a step adds an entry. -/
theorem test_witness_StepKeepsInv_range : ∃ s t : State, s.ControlInv ∧ s.seq = .exec (.rangeHeader .sendRange 0#16 [0x55#8]) ∧
    step s = .next t ∧ t.tx.length = s.tx.length + 1 := by
  refine ⟨(State.reset.startRange .sendRange 0#16 [0x55#8]) |> fun s => { s with events := [.ok] }, _, ?_, rfl, rfl, rfl⟩
  simp [State.ControlInv, State.PositionInv, Job.Inv, State.RangeAt, State.startRange, State.goTo, rangeStart, State.reset]
/-- A valid animation in range meets AnimInv, before a tick and between its steps 3 and 4, and a step goes on. -/
theorem test_witness_StepKeepsAnimInv : (ready [.issue [0x0A#8]] []).AnimInv ∧
    (∃ t, step (ready [.issue [0x0A#8]] []) = .next t) ∧ ((ready [] []).goTo (.reverse .tick)).AnimInv ∧
    ∃ t, step ((ready [] []).goTo (.reverse .tick)) = .next t := by
  refine ⟨fun _ => ?_, ⟨_, rfl⟩, fun _ => ?_, _, rfl⟩ <;> unfold axisInRange <;> decide
theorem test_witness_StepEmitsOnlyPackets : ∃ t, exec (.writePacket 0x03EF#16 [0x55#8]) (ready [] [.ok, .resetBefore]) = .next t ∧
    isPacketTrace true t.tx = true ∧ isPacketTrace false t.tx = false := ⟨_, rfl, by decide⟩
theorem test_witness_OnlyResetClearsTerr : (∃ s t : State, s.status.terr = true ∧ step s = .next t ∧
      isResetEvent (s.eventAt 0) = true ∧ t.writes - s.writes = 1) ∧
    ∃ s t : State, s.status.terr = true ∧ exec (.writePacket 0#16 [0x55#8]) s = .next t :=
  ⟨⟨((ready [] [.resetBefore]).raiseTransportError 7).goTo (.packetHeader 0#16 [0x55#8]), _, rfl, rfl, rfl, rfl⟩,
    (ready [] [.ok, .ok]).raiseTransportError 7, _, rfl, rfl⟩
theorem test_witness_OnlyLongPacketsHalt : ∃ (i : Instr) (s t : State), s.seq ≠ .halt ∧ exec i s = .next t ∧ t.seq = .halt := by
  refine ⟨.writePacket 0#16 (List.replicate 256 0#8), ready [] [], (ready [] []).raiseContractViolation, by decide, ?_, rfl⟩
  simp only [exec, execWritePacket, writePacketUnder]
  rw [if_pos]
  rw [List.length_replicate]
  decide
theorem test_witness_WhoWritesWhat : (ready [] [.ok, .fail 7 0]).resetFree (mostWrites (.writePacket 0#16 [0x55#8])) ∧
    ∃ t, exec (.writePacket 0#16 [0x55#8]) (ready [] [.ok, .fail 7 0]) = .next t := by
  refine ⟨?_, _, rfl⟩
  unfold State.resetFree
  decide
theorem test_witness_OnlyTransportUsesTheChannel : mostWrites .encode = 0 ∧ mostWrites (.sendRange 0#16 []) = 0 ∧
    (∃ t, exec .encode (ready [] []) = .next t) ∧ ∃ t, exec (.sendRange 0#16 []) (ready [] []) = .next t :=
  ⟨rfl, rfl, ⟨_, exec_encode rfl⟩, _, rfl⟩

end Sys2Proof.Tests
end

/-! # The valid bits (10_state R27) -/

namespace Sys2Proof.Machine

/-! ### The refusals a valid bit of 0 gives -/

section InvalidGroup

variable {s : State}

theorem canvasRefusal_of_invalid (h : s.status.canvasValid = false) : s.canvasRefusal = some .canvasNotValid := by
  simp [State.canvasRefusal, h]

theorem pixelRefusal_of_invalid (x y : Half) (h : s.status.canvasValid = false) :
    s.pixelRefusal x y = some .canvasNotValid := by
  simp [State.pixelRefusal, h]

theorem frameRefusal_of_invalid (h : s.status.frameValid = false) : s.frameRefusal = some .frameNotValid := by
  simp [State.frameRefusal, h]

theorem tickRefusal_of_invalid (h : s.status.animValid = false) : s.tickRefusal = some .animNotValid := by
  simp [State.tickRefusal, h]

/-! ### The commands that read a group without a value -/

theorem exec_setPixel_canvasNotValid (x y : Half) (v : Bool) (h : s.status.canvasValid = false) :
    exec (.setPixel x y v) s = .refused .canvasNotValid :=
  (exec_refused_iff _ _ _).2 (pixelRefusal_of_invalid x y h)

theorem exec_drawCircle_canvasNotValid (cx cy d : Half) (h : s.status.canvasValid = false) :
    exec (.drawCircle cx cy d) s = .refused .canvasNotValid :=
  (exec_refused_iff _ _ _).2 (canvasRefusal_of_invalid h)

theorem exec_encode_canvasNotValid (h : s.status.canvasValid = false) : exec .encode s = .refused .canvasNotValid :=
  (exec_refused_iff _ _ _).2 (canvasRefusal_of_invalid h)

theorem exec_sendFrame_frameNotValid (h : s.status.frameValid = false) : exec .sendFrame s = .refused .frameNotValid :=
  (exec_refused_iff _ _ _).2 (frameRefusal_of_invalid h)

theorem exec_tick_animNotValid (h : s.status.animValid = false) : exec .tick s = .refused .animNotValid :=
  (exec_refused_iff _ _ _).2 (tickRefusal_of_invalid h)

theorem exec_run_animNotValid (h : s.status.animValid = false) : exec .run s = .refused .animNotValid :=
  (exec_refused_iff _ _ _).2 (tickRefusal_of_invalid h)

end InvalidGroup

/-! ### The commands that write a group in full -/

/-- CANVAS_NEW has no precondition (40_canvas R68). -/
theorem exec_canvasNew (s : State) : exec .canvasNew s = .next s.blankCanvas.complete := rfl

/-- ANIM_INIT has no precondition (43_animation R99). -/
theorem exec_animInit (s : State) :
    exec .animInit s = .next { s with anim := Anim.initial }.setAnimValid.complete := rfl

/-- ENCODE leaves no byte of FRAME without a value (41_encoder R74). -/
theorem State.encodeCanvas_read_isSome (s : State) {k : Nat} (hk : k < 1008) :
    (Memory.read s.encodeCanvas.frame k).isSome = true := by
  rw [State.encodeCanvas_read, if_pos hk, Option.isSome_some]

/-- ENCODE validates FRAME, and every byte of it has a value. -/
theorem exec_encode_fills_frame {s : State} (h : s.status.canvasValid = true) :
    ∃ t, exec .encode s = .next t ∧ t.status.frameValid = true ∧
      ∀ k < 1008, (Memory.read t.frame k).isSome = true := by
  refine ⟨_, exec_encode h, by simp, fun k hk => ?_⟩
  rw [State.complete_frame, State.releaseEncoder_frame]
  exact s.encodeCanvas_read_isSome hk

/-- Settles O46: RESET rewrites STATUS, each writer of a group sets its bit, and each reader of a group checks its bit
before anything else. -/
theorem validBitsGuardReads : Obligations.ValidBitsGuardReads := by
  intro s
  refine ⟨fun moves hm => ⟨_, step_reset hm, ?_⟩, ⟨_, exec_canvasNew s, ?_⟩, exec_encode_fills_frame,
    ⟨_, exec_animInit s, ?_⟩, fun hc => ?_, exec_sendFrame_frameNotValid, fun ha => ?_⟩
  · rw [State.assertReset_status]
    exact ⟨rfl, rfl, rfl⟩
  · rw [State.complete_status, State.blankCanvas_status]
  · rw [State.complete_status, State.setAnimValid_status]
  · exact ⟨fun x y v => exec_setPixel_canvasNotValid x y v hc, fun cx cy d => exec_drawCircle_canvasNotValid cx cy d hc,
      exec_encode_canvasNotValid hc⟩
  · exact ⟨exec_tick_animNotValid ha, exec_run_animNotValid ha⟩

end Sys2Proof.Machine

/-! # The encodings that name no command (30_encoding R63) -/

namespace Sys2Proof

theorem decodePixelValue_bad {v : Byte} (h : 1 < v.toNat) : decodePixelValue v = .error .badPixelValue := by
  have h0 : v ≠ 0#8 := by rintro rfl; simp at h
  have h1 : v ≠ 1#8 := by rintro rfl; simp at h
  rw [decodePixelValue, if_neg h0, if_neg h1]

/-- The `v` field decides: no SET_PIXEL descriptor with another value than 0 and 1 decodes, whatever follows it. -/
theorem decodeDescriptor_setPixel_bad (x0 x1 y0 y1 : Byte) {v : Byte} (h : 1 < v.toNat) (rest : List Byte) :
    decodeDescriptor (0x02#8 :: x0 :: x1 :: y0 :: y1 :: v :: rest) = .error .badPixelValue := by
  simp [decodeDescriptor, decode, decodeOperands, decodePixelValue_bad h]

namespace Machine

/-- A descriptor presented in IDLE that does not decode is refused for the decoder's reason. -/
theorem step_issue_invalid {s : State} {d : List Byte} {moves : List HostMove} {e : DecodeError} (hs : s.seq = .idle)
    (h : s.hostMoves = .issue d :: moves) (hd : decodeDescriptor d = .error e) :
    step s = .refused (.invalid e) := by
  rw [step, fetch, h, hs]
  simp only [readDescriptor, hd]

theorem acceptCommand_refused {i : Instr} {s : State} {r : Refusal} (h : refusalOf i s = some r) :
    acceptCommand i s = .refused r := by
  rw [acceptCommand, h, refuseOr_some]

/-- Settles O5: an opcode byte that names no command decodes to the reserved term, which is refused at its acceptance
and in its execution; a SET_PIXEL with a bad `v` does not decode. -/
theorem invalidEncodingsRefused : Obligations.InvalidEncodingsRefused := by
  refine ⟨fun s op bs moves hop hs hm => ?_, fun op s => (exec_refused_iff _ s _).2 rfl,
    fun s x0 x1 y0 y1 v moves hv hs hm => ?_⟩
  · rw [step_issue hs hm (decodeDescriptor_reserved hop bs)]
    exact acceptCommand_refused rfl
  · exact step_issue_invalid hs hm (decodeDescriptor_setPixel_bad x0 x1 y0 y1 hv [])

end Machine
end Sys2Proof

/-! # The canvas commands (40_canvas R68 to R70) -/

namespace Sys2Proof.Machine

/-! ### Packed bytes and written pixels -/

/-- A packed byte is known by its bits: pixel `k` of the group against bit `7 - k` (41_encoder R75). -/
theorem Canvas.packedByte_eq_of_bits {c : Canvas} {j i : Nat} {b : Byte}
    (h : ∀ k < 8, c.pixel (9 * i + k) (2 * j + 1) = b.getLsbD (7 - k)) : c.packedByte j i = b := by
  refine BitVec.eq_of_getLsbD_eq fun m hm => ?_
  have hb := h (7 - m) (by omega)
  rwa [← c.packedByte_getLsbD j i _ (by omega), Nat.sub_sub_self (by omega)] at hb

@[simp] theorem Canvas.packedByte_nil (j i : Nat) : Canvas.packedByte [] j i = 0#8 :=
  Canvas.packedByte_eq_of_bits fun k _ => by rw [Canvas.pixel_nil, BitVec.getLsbD_zero]

/-- A pixel after a pixel write, by coordinates: only the written one changes (40_canvas R69). -/
theorem Canvas.pixel_write_grid (c : Canvas) {x x' : Nat} (y y' : Nat) (p : Bool) (hx : x < 144) (hx' : x' < 144) :
    (c.write x y p).pixel x' y' = if x' = x ∧ y' = y then p else c.pixel x' y' := by
  simp only [Canvas.pixel_write, pixelIndex_inj hx' hx]

/-- ENCODE on a valid canvas completes, with every byte of FRAME the packed byte of its row and group (41_encoder R74). -/
theorem exec_encode_read {s : State} (h : s.status.canvasValid = true) :
    ∃ t, exec .encode s = .next t ∧
      ∀ k < 1008, Memory.read t.frame k = some (s.canvas.packedByte (k / 16) (k % 16)) := by
  refine ⟨_, exec_encode h, fun k hk => ?_⟩
  rw [State.complete_frame, State.releaseEncoder_frame, State.encodeCanvas_read, if_pos hk]

/-! ### CANVAS_NEW -/

/-- Settles O17: CANVAS_NEW leaves no pixel in the list of true ones, so every byte that ENCODE packs from it is 0. -/
theorem canvasNewBlanks : Obligations.CanvasNewBlanks := by
  intro s
  refine ⟨_, exec_canvasNew s, fun x y _ _ => Canvas.pixel_nil x y, rfl, rfl, rfl, ?_⟩
  obtain ⟨u, hu, hread⟩ := exec_encode_read (s := s.blankCanvas.complete) rfl
  refine ⟨u, hu, fun k hk => ?_⟩
  rw [hread k hk, State.complete_canvas, State.blankCanvas_canvas, Canvas.packedByte_nil]

/-! ### SET_PIXEL -/

theorem exec_setPixel_outsideGrid {s : State} {x y : Half} (v : Bool) (h : s.status.canvasValid = true)
    (hxy : 144 ≤ x.toNat ∨ 126 ≤ y.toNat) : exec (.setPixel x y v) s = .refused .outsideGrid := by
  refine (exec_refused_iff _ s _).2 ?_
  have hg : inGrid x.toNat y.toNat = false := by
    rw [← Bool.not_eq_true, inGrid_iff]
    omega
  simp [refusalOf, State.pixelRefusal, h, hg]

/-- Pixel (3, 1) alone on a blank canvas is bit 4 of the byte of row 0 and group 0 (40_canvas R69, 41_encoder R75). -/
theorem Canvas.packedByte_write_three_one {j i : Nat} (hi : i < 16) :
    (Canvas.write [] 3 1 true).packedByte j i = if j = 0 ∧ i = 0 then 0x10#8 else 0#8 := by
  refine Canvas.packedByte_eq_of_bits fun k hk => ?_
  rw [Canvas.pixel_write_grid _ _ _ _ (by omega) (by omega), Canvas.pixel_nil]
  by_cases h0 : j = 0 ∧ i = 0
  · obtain ⟨rfl, rfl⟩ := h0
    interval_cases k <;> rfl
  · rw [if_neg h0, if_neg (by omega), BitVec.getLsbD_zero]

/-- The example of R69: CANVAS_NEW, SET_PIXEL(3, 1, 1) and ENCODE. -/
theorem exec_setPixel_three_one_encoded (s : State) :
    ∃ t u w, exec .canvasNew s = .next t ∧ exec (.setPixel 3#16 1#16 true) t = .next u ∧ exec .encode u = .next w ∧
      Memory.read w.frame 0 = some 0x10#8 ∧ ∀ k, 0 < k → k < 1008 → Memory.read w.frame k = some 0x00#8 := by
  have hset := exec_setPixel (s := s.blankCanvas.complete) (x := 3#16) (y := 1#16) true rfl (by decide) (by decide)
  obtain ⟨w, hw, hread⟩ := exec_encode_read
    (s := { s.blankCanvas.complete with canvas := Canvas.write [] 3 1 true }.complete) rfl
  have hbyte : ∀ k < 1008, Memory.read w.frame k = some (if k / 16 = 0 ∧ k % 16 = 0 then 0x10#8 else 0#8) := by
    intro k hk
    rw [hread k hk, State.complete_canvas, Canvas.packedByte_write_three_one (by omega)]
  refine ⟨_, _, w, exec_canvasNew s, hset, hw, hbyte 0 (by omega), fun k h0 hk => ?_⟩
  rw [hbyte k hk, if_neg (by omega)]

/-- Settles O18: in the grid SET_PIXEL writes its own linear index only; each precondition that fails refuses it. -/
theorem setPixelWrites : Obligations.SetPixelWrites := by
  refine ⟨fun s x y v h hx hy => ⟨_, exec_setPixel v h hx hy, ?_, fun x' y' hx' _ hne => ?_, rfl, rfl, rfl⟩,
    fun s x y v h => exec_setPixel_canvasNotValid x y v h,
    fun s x y v h hxy => exec_setPixel_outsideGrid v h hxy, exec_setPixel_three_one_encoded⟩
  · rw [State.complete_canvas, Canvas.pixel_write_grid _ _ _ _ hx hx, if_pos ⟨rfl, rfl⟩]
  · rw [State.complete_canvas, Canvas.pixel_write_grid _ _ _ _ hx hx', if_neg fun he => hne (Prod.ext he.1 he.2)]

/-! ### DRAW_CIRCLE -/

/-- A grid pixel after DRAW_CIRCLE, by the operands as exact integers (40_canvas R70, R71). -/
theorem exec_drawCircle_pixel {s t : State} {cx cy d : Half} (h : exec (.drawCircle cx cy d) s = .next t) {x y : Nat}
    (hx : x < 144) (hy : y < 126) :
    t.canvas.pixel x y = true ↔
      s.canvas.pixel x y = true ∨ ((x : Int) - cx.toInt) ^ 2 + ((y : Int) - cy.toInt) ^ 2 < d.toInt ^ 2 := by
  obtain ⟨-, rfl⟩ := exec_drawCircle_inv h
  exact s.drawDisk_pixel _ _ _ hx hy

/-- The integer points of the open disk of radius 2 are a square of 9 points. -/
theorem sq_add_sq_lt_two_sq_iff (a b : Int) : a ^ 2 + b ^ 2 < 2 ^ 2 ↔ |a| ≤ 1 ∧ |b| ≤ 1 := by
  constructor
  · intro h
    have ha : |a| < 2 := abs_lt_of_sq_lt_sq (by linarith [sq_nonneg b]) (by norm_num)
    have hb : |b| < 2 := abs_lt_of_sq_lt_sq (by linarith [sq_nonneg a]) (by norm_num)
    omega
  · rintro ⟨ha, hb⟩
    linarith [(sq_le_one_iff_abs_le_one a).2 ha, (sq_le_one_iff_abs_le_one b).2 hb]

/-- The example of R70: DRAW_CIRCLE(4, 1, 2) on a blank canvas sets 9 pixels. -/
theorem exec_drawCircle_four_one_two (s : State) :
    ∃ t u, exec .canvasNew s = .next t ∧ exec (.drawCircle 4#16 1#16 2#16) t = .next u ∧
      ∀ x y, x < 144 → y < 126 → (Canvas.pixel u.canvas x y = true ↔ 3 ≤ x ∧ x ≤ 5 ∧ y ≤ 2) := by
  have hdraw := exec_drawCircle (s := s.blankCanvas.complete) 4#16 1#16 2#16 rfl
  refine ⟨_, _, exec_canvasNew s, hdraw, fun x y hx hy => ?_⟩
  obtain ⟨h4, h1, h2⟩ : (4#16).toInt = 4 ∧ (1#16).toInt = 1 ∧ (2#16).toInt = 2 := by decide
  rw [exec_drawCircle_pixel hdraw hx hy, State.complete_canvas, State.blankCanvas_canvas, Canvas.pixel_nil, h4, h1, h2,
    sq_add_sq_lt_two_sq_iff, or_iff_right Bool.false_ne_true, abs_le, abs_le]
  omega

/-- Settles O19: the drawing is the old canvas joined with the open disk; without CANVAS_VALID it is refused. -/
theorem drawCircleSetsTheDisk : Obligations.DrawCircleSetsTheDisk := by
  refine ⟨fun s cx cy d h => ?_, fun s cx cy d h => exec_drawCircle_canvasNotValid cx cy d h,
    exec_drawCircle_four_one_two⟩
  have hdraw := exec_drawCircle cx cy d h
  exact ⟨_, hdraw, fun x y hx hy => exec_drawCircle_pixel hdraw hx hy, rfl, rfl, rfl⟩

end Sys2Proof.Machine

/-! # The frame encoder (41_encoder R74 to R77) -/

namespace Sys2Proof.Machine

/-! ### The frame of a completed ENCODE -/

/-- The pixels that the encoder reads, named by their byte and place, are represented (20_memory R40). -/
theorem represented_of_packed {j i k : Nat} (hj : j < 63) (hi : i < 16) (hk : k < 8) :
    represented (9 * i + k) (2 * j + 1) := by
  unfold represented
  omega

/-- A packed byte depends on its eight pixels only. -/
theorem Canvas.packedByte_congr {c d : Canvas} {j i : Nat}
    (h : ∀ k < 8, c.pixel (9 * i + k) (2 * j + 1) = d.pixel (9 * i + k) (2 * j + 1)) :
    c.packedByte j i = d.packedByte j i :=
  Canvas.packedByte_eq_of_bits fun k hk => (h k hk).trans (d.packedByte_getLsbD j i k hk).symm

/-- Canvases that agree on the represented pixels pack to the same bytes of a frame (41_encoder R76). -/
theorem Canvas.packedByte_eq_of_represented {c d : Canvas}
    (h : ∀ x y, represented x y → c.pixel x y = d.pixel x y) {j i : Nat} (hj : j < 63) (hi : i < 16) :
    c.packedByte j i = d.packedByte j i :=
  Canvas.packedByte_congr fun _ hk => h _ _ (represented_of_packed hj hi hk)

/-- FRAME after ENCODE, at every address, from CANVAS before it (41_encoder R74). -/
theorem exec_encode_frame {s t : State} (h : exec .encode s = .next t) (k : Nat) :
    Memory.read t.frame k = if k < 1008 then some (s.canvas.packedByte (k / 16) (k % 16)) else none := by
  obtain ⟨-, rfl⟩ := exec_encode_inv h
  rw [State.complete_frame, State.releaseEncoder_frame, State.encodeCanvas_read]

theorem exec_encode_canvas {s t : State} (h : exec .encode s = .next t) : t.canvas = s.canvas := by
  obtain ⟨-, rfl⟩ := exec_encode_inv h
  rw [State.complete_canvas, State.releaseEncoder_canvas, State.encodeCanvas_canvas]

/-- ENCODE sets FRAME_VALID and no other bit of STATUS (41_encoder R74). -/
theorem exec_encode_status {s t : State} (h : exec .encode s = .next t) :
    t.status = { s.status with frameValid := true } := by
  obtain ⟨-, rfl⟩ := exec_encode_inv h
  rw [State.complete_status, State.releaseEncoder_status, State.encodeCanvas_status]

/-- Only the represented pixels of CANVAS enter FRAME (41_encoder R76). -/
theorem exec_encode_frame_eq_of_represented {s s' t t' : State}
    (hc : ∀ x y, represented x y → s.canvas.pixel x y = s'.canvas.pixel x y)
    (ht : exec .encode s = .next t) (ht' : exec .encode s' = .next t') (k : Nat) :
    Memory.read t.frame k = Memory.read t'.frame k := by
  rw [exec_encode_frame ht, exec_encode_frame ht']
  split
  · rw [Canvas.packedByte_eq_of_represented hc (by omega) (by omega)]
  · rfl

/-! ### The statements -/

/-- Settles O22: pixel (9i + k, 2j + 1) is shifted in as bit 7 - k of byte 16j + i, and an invalid CANVAS refuses. -/
theorem encodePacksPixels : Obligations.EncodePacksPixels := by
  refine ⟨fun s hs => ?_, fun s hs => exec_encode_canvasNotValid hs⟩
  have ht := exec_encode hs
  refine ⟨_, ht, fun j i k hj hi hk => s.encodeCanvas_bit hj hi hk, fun k hk => ?_, fun x y => ?_,
    exec_encode_status ht, rfl, rfl⟩
  · rw [exec_encode_frame ht, if_neg (by omega)]
  · rw [exec_encode_canvas ht]

/-- Settles O24: every bit of FRAME is the bit of a represented pixel, so the other pixels do not matter. -/
theorem encodeIgnoresTheRest : Obligations.EncodeIgnoresTheRest :=
  fun _ _ _ _ hc ht ht' => exec_encode_frame_eq_of_represented hc ht ht'

/-- Settles O25: the bytes of FRAME are packed from CANVAS alone, which ENCODE keeps together with CANVAS_VALID; so a
second ENCODE completes and packs the same bytes. -/
theorem encodeIsPure : Obligations.EncodeIsPure := by
  refine ⟨fun s s' t t' hc ht ht' => exec_encode_frame_eq_of_represented (fun x y _ => by rw [hc]) ht ht',
    fun s hs => ?_⟩
  have ht := exec_encode hs
  have hcanvas := exec_encode_canvas ht
  have hvalid : (s.encodeCanvas.releaseEncoder.complete).status.canvasValid = true := by
    rw [exec_encode_status ht]
    exact hs
  have hu := exec_encode hvalid
  exact ⟨_, _, ht, hu, fun x y => by rw [hcanvas], hvalid,
    exec_encode_frame_eq_of_represented (fun x y _ => by rw [hcanvas]) hu ht⟩

end Sys2Proof.Machine

/-! # Packets and ranges refused, failed and sent (42_transport R85 to R95) -/

namespace Sys2Proof.Machine

/-! ### WRITE_PACKET's refusals, and its reading under `emit` -/

theorem packetRefusal_outOfRange {a : Half} {n : Nat} (h1 : 1 ≤ n) (hr : 1008 < a.toNat + n) :
    packetRefusal .refuse a n = some .outOfRange := by
  have hout : ¬ packetAllowed .refuse a.toNat n = true := by
    rw [packetAllowed_refuse]
    omega
  rw [packetRefusal, if_neg (by omega), if_pos (by simpa using hout)]

/-- Under `emit` the payload of a packet is all that is checked (42_transport R85, R86). -/
theorem packetRefusal_emit {a : Half} {n : Nat} (h1 : 1 ≤ n) : packetRefusal .emit a n = none := by
  rw [packetRefusal, if_neg (by omega)]
  simp [packetAllowed]

/-- A packet whose two writes are accepted is in TX, whatever its address. -/
theorem emitPacket_ok {s : State} (a : Half) (p : List Byte) (hok : s.allOk 2) :
    ∃ t, emitPacket a p s = .done t ∧ t.tx = s.tx ++ packetEntries a.toNat p := by
  have h0 := hok 0 (by omega)
  have h1 := hok 1 (by omega)
  rcases emitPacket_cases a p s with ⟨e, d, g0, -⟩ | ⟨g0, -⟩ | ⟨e, d, g0, -⟩ | ⟨e, d, -, g1, -⟩ | ⟨-, g1, -⟩ |
    ⟨e, d, -, g1, -⟩ | ⟨-, -, h⟩
  · simp [h0] at g0
  · simp [h0] at g0
  · simp [h0] at g0
  · simp [h1] at g1
  · simp [h1] at g1
  · simp [h1] at g1
  · exact ⟨_, h, by simp [afterHeader, packetEntries, sentOk]⟩

theorem writePacketUnder_emit {a : Half} {p : List Byte} (s : State) (h1 : 1 ≤ p.length) (h2 : p.length ≤ 255) :
    writePacketUnder .emit a p s = .next ((emitPacket a p s).finish State.releasePacket) := by
  rw [writePacketUnder, if_neg (show ¬ p.length > 255 by omega), packetRefusal_emit h1, refuseOr_none]

/-- Settles O30: the two checks of a packet under `refuse`, and the single one under `emit`. -/
theorem writePacketRefused : Obligations.WritePacketRefused := by
  refine ⟨fun s a => (exec_refused_iff _ s _).2 rfl, fun s a p h1 h2 hr => (exec_refused_iff _ s _).2 ?_,
    fun s a p => rfl, fun s a p h1 h2 hok => ?_⟩
  · rw [refusalOf, if_neg (show ¬ p.length > 255 by omega)]
    exact packetRefusal_outOfRange h1 hr
  · obtain ⟨t, ht, htx⟩ := emitPacket_ok a p hok
    refine ⟨_, writePacketUnder_emit s h1 h2, ?_⟩
    rw [ht]
    exact ⟨htx, rfl⟩

/-! ### SEND_RANGE's range check -/

theorem rangeRefusal_outOfRange {a : Half} {n : Nat} (hr : 1008 < a.toNat + n) :
    rangeRefusal .refuse a n = some .outOfRange := by
  have hout : ¬ rangeAllowed .refuse a.toNat n = true := by
    rw [rangeAllowed_refuse]
    omega
  rw [rangeRefusal, if_pos (by simpa using hout)]

section Finish

variable {release : State → State} (p : Progress)

/-- A transport command ends in IDLE, be it done, failed or cut off by RESET. -/
@[simp] theorem Progress.finish_seq : (p.finish release).seq = .idle := by
  cases p with
  | done t => exact State.complete_seq _
  | failed e t => exact State.raiseTransportError_seq _ e
  | reset t => exact t.assertReset_seq

/-- The end of a transport command raises no ContractViolation. -/
theorem Progress.finish_result_ne : (p.finish release).result ≠ resultContractViolation := by
  cases p with
  | done t => rw [Progress.finish_done, State.complete_result]; decide
  | failed e t => rw [Progress.finish_failed, State.raiseTransportError_result]; decide
  | reset t => rw [Progress.finish_reset, State.assertReset_result]; decide

end Finish

/-- A range with no data has no turn of the loop (42_transport R91). -/
theorem sendRangeFrom_nil (start : Half) (s : State) : sendRangeFrom start [] s = .done (rangeStart [] s) := rfl

/-- Settles O37: the range check is the only refusal; every end of a range that passes it is in IDLE and without
ContractViolation; the empty range has no turn. -/
theorem sendRangeChecksItsRange : Obligations.SendRangeChecksItsRange := by
  refine ⟨fun s a data => ⟨fun hr => (exec_refused_iff _ s _).2 (rangeRefusal_outOfRange hr), fun hr => ?_⟩,
    fun s a ha => ?_⟩
  · exact ⟨_, exec_sendRange s hr, Progress.finish_result_ne _, Progress.finish_seq _⟩
  · refine ⟨_, exec_sendRange s (by simpa using ha), ?_⟩
    rw [sendRangeFrom_nil]
    exact ⟨rfl, rfl, rfl, rfl, rfl⟩

/-! ### A range that fails -/

/-- What the host finds after a range that failed at packet `k` with `e`, `last` being the entries of that packet
(42_transport R90, 60_exceptions R110). -/
theorem exec_sendRange_failed {s : State} {a : Half} {data : List Byte} {k : Nat} {e : ErrInfo} {last : List TxEntry}
    {t : State} (hr : a.toNat + data.length ≤ 1008) (ht : sendRangeFrom a data s = .failed e t)
    (h : RangeFailed a.toNat data k last s t) :
    ∃ u, exec (.sendRange a data) s = .next u ∧ u.tx = s.tx ++ firstPackets a.toNat data k ++ last ∧
      u.off = BitVec.ofNat 16 (255 * k) ∧ u.result = 1#8 ∧ u.errorValue = some e ∧
      u.status = { s.status with terr := true } ∧ u.seq = .idle := by
  refine ⟨_, exec_sendRange s hr, ?_⟩
  rw [ht, Progress.finish_failed]
  refine ⟨h.tx, h.off, rfl, rfl, ?_, rfl⟩
  rw [State.raiseTransportError_status, State.releaseRange_status, h.kept.status]

/-- Settles O35: the packet that fails ends the loop, at its header or at its payload, with OFF still at its chunk. -/
theorem sendRangeStopsAtFailure : Obligations.SendRangeStopsAtFailure := by
  intro s a data k e n hr hk hok
  refine ⟨fun h0 => ?_, fun h0 h1 => ?_⟩
  · obtain ⟨t, ht, hfail⟩ := sendRangeFrom_failed hr hk hok (.inl ⟨n, h0, rfl⟩)
    exact exec_sendRange_failed hr ht hfail
  · obtain ⟨t, ht, hfail⟩ := sendRangeFrom_failed hr hk hok (.inr ⟨n, h0, h1, rfl⟩)
    exact exec_sendRange_failed hr ht hfail

/-! ### A range that is sent in full -/

/-- What a range has done all of whose packets were accepted (42_transport R88, R89). -/
structure RangeSent (start : Nat) (data : List Byte) (s t : State) : Prop where
  kept : TransportKept s t
  off : t.off = BitVec.ofNat 16 data.length
  tx : t.tx = s.tx ++ rangeEntries start data
  synced : t.devSynced = s.devSynced
  dev : s.devSynced = true → ∀ x, Memory.read t.dev x =
    if start ≤ x ∧ x < start + data.length then data[x - start]? else Memory.read s.dev x

/-- The packets of a range are counted so that the last one reaches the end of the data. -/
theorem SentChunks.whole {start : Nat} {data : List Byte} {s t : State} (hl : data.length ≤ 1008)
    (h : SentChunks start data 0 ((data.length + 254) / 255) (rangeStart data s) t) : RangeSent start data s t := by
  have hend : min (255 * (0 + (data.length + 254) / 255)) data.length = data.length := by omega
  refine ⟨(rangeStart_kept data s).trans h.kept, BitVec.eq_of_toNat_eq ?_, ?_, h.synced, fun hs x => ?_⟩
  · rw [h.off, hend, BitVec.toNat_ofNat, Nat.mod_eq_of_lt (by omega)]
  · have htx := h.tx
    simp only [Nat.zero_add] at htx
    exact htx
  · rw [h.dev hs x, hend]
    rfl

/-- A range in the frame memory whose writes are all accepted is sent in full. -/
theorem sendRangeFrom_sent {s : State} {start : Half} {data : List Byte} (hr : start.toNat + data.length ≤ 1008)
    (hok : s.allOk (2 * ((data.length + 254) / 255))) :
    ∃ t, sendRangeFrom start data s = .done t ∧ RangeSent start.toNat data s t := by
  obtain ⟨t, ht, h⟩ := sendRangeFrom_accepted hr hok
  exact ⟨t, ht, h.whole (by omega)⟩

/-- The range of the whole frame memory takes eight writes, and a followed device holds its data (42_transport R93,
R95). -/
theorem sendRangeFrom_frame_sent {s : State} {data : List Byte} (hl : data.length = 1008) (hok : s.allOk 8) :
    ∃ t, sendRangeFrom 0#16 data s = .done t ∧ TransportKept s t ∧ t.off = 1008#16 ∧
      t.tx = s.tx ++ rangeEntries 0 data ∧ (s.devSynced = true → ∀ x, Memory.read t.dev x =
        if x < 1008 then data[x]? else Memory.read s.dev x) := by
  obtain ⟨t, ht, hkept, hoff, htx, -, hdev⟩ := sendRangeFrom_sent (s := s) (start := 0#16) (data := data)
    (by rw [hl]; decide) (by rw [hl]; exact hok)
  refine ⟨t, ht, hkept, by rw [hoff, hl], htx, fun hs x => ?_⟩
  simpa [hl] using hdev hs x

/-! ### FILL -/

/-- The range of a FILL and a range from the same state, ended alike: they differ in working registers only, and in RESULT,
which the end of a command writes. -/
theorem SameWire.eq_of_fillStart {s t u : State} {v : Byte} (h : SameWire t u) (ht : TransportKept (fillStart v s) t)
    (hu : TransportKept s u) (w : Working) (r : Byte) :
    { t with work := w, result := r } = { u with work := w, result := r } :=
  State.eq_of_fields (ht.canvas.trans hu.canvas.symm) (ht.frame.trans hu.frame.symm) (ht.anim.trans hu.anim.symm) rfl
    h.off.symm rfl (ht.errinfo.trans hu.errinfo.symm) (ht.seq.trans hu.seq.symm) (ht.status.trans hu.status.symm)
    h.tx.symm h.dev.symm h.devSynced.symm (ht.hostMoves.trans hu.hostMoves.symm) h.events.symm h.writes.symm
    (ht.draws.trans hu.draws.symm)

/-- FILL and SEND_RANGE whose ranges ended alike are at the same state but for the working registers (30_encoding R66). -/
theorem Progress.alike.finish_fill_eq {s : State} {v : Byte} {p q : Progress} (h : p.alike q)
    (hp : TransportKept (fillStart v s) p.state) (hq : TransportKept s q.state) (w : Working) :
    { p.finish State.releaseFill with work := w } = { q.finish State.releaseRange with work := w } := by
  cases p <;> cases q <;> try exact h.elim
  case done.done t u =>
    exact congrArg (fun x : State => { x.releaseRange.complete with work := w }) (h.eq_of_fillStart hp hq w resultOk)
  case failed.failed e t f u =>
    obtain ⟨rfl, h⟩ := h
    exact congrArg (fun x : State => { x.releaseRange.raiseTransportError e with work := w })
      (h.eq_of_fillStart hp hq w resultOk)
  case reset.reset t u =>
    exact congrArg (fun x : State => { x.assertReset with work := w }) (h.eq_of_fillStart hp hq w resultOk)

/-- The four packets of the whole frame memory (42_transport R93). -/
theorem rangeEntries_frame {data : List Byte} (hl : data.length = 1008) :
    rangeEntries 0 data = packetEntries 0 (chunkAt data 0) ++ packetEntries 255 (chunkAt data 1) ++
      packetEntries 510 (chunkAt data 2) ++ packetEntries 765 (chunkAt data 3) := by
  rw [rangeEntries, hl]
  show firstPackets 0 data 4 = _
  simp only [firstPackets_succ]
  rfl

/-- The packets of FILL, byte by byte (95_test_vectors V34). -/
theorem rangeEntries_fill (v : Byte) : rangeEntries 0 (List.replicate 1008 v) =
    [sentOk [0x00#8, 0x20#8, 0x00#8, 0x00#8, 0xFF#8], sentOk (List.replicate 255 v),
     sentOk [0x00#8, 0x20#8, 0x00#8, 0xFF#8, 0xFF#8], sentOk (List.replicate 255 v),
     sentOk [0x00#8, 0x20#8, 0x01#8, 0xFE#8, 0xFF#8], sentOk (List.replicate 255 v),
     sentOk [0x00#8, 0x20#8, 0x02#8, 0xFD#8, 0xF3#8], sentOk (List.replicate 243 v)] := by
  rw [rangeEntries_frame List.length_replicate]
  simp only [packetEntries, chunkAt_replicate, List.length_replicate]
  rfl

/-- FILL with all eight writes accepted: the four packets, and the device's frame memory filled. -/
theorem exec_fill_sent {s : State} (v : Byte) (hok : s.allOk 8) :
    ∃ t, exec (.fill v) s = .next t ∧ t.tx = s.tx ++ rangeEntries 0 (List.replicate 1008 v) ∧ t.off = 1008#16 ∧
      t.result = 0#8 ∧ t.seq = .idle ∧ t.status = s.status ∧
      (s.devSynced = true → ∀ x, Memory.read t.dev x = if x < 1008 then some v else Memory.read s.dev x) := by
  obtain ⟨t, ht, hkept, hoff, htx, hdev⟩ := sendRangeFrom_frame_sent (s := fillStart v s)
    (data := List.replicate 1008 v) List.length_replicate hok
  refine ⟨_, exec_fill v s, ?_⟩
  rw [ht]
  refine ⟨htx, hoff, rfl, rfl, hkept.status, fun hs x => (hdev hs x).trans ?_⟩
  by_cases hx : x < 1008
  · rw [if_pos hx, if_pos hx, List.getElem?_replicate, if_pos hx]
  · rw [if_neg hx, if_neg hx]
    rfl

/-- Settles O39: both commands are the same range, begun in states that the transport cannot tell apart. -/
theorem fillSends : Obligations.FillSends := by
  refine ⟨fun s v => ⟨_, _, exec_fill v s, exec_sendRange s (by rw [List.length_replicate]; decide), ?_⟩,
    fun s v hok => ?_⟩
  · have halike := sendRangeFrom_alike 0#16 (List.replicate 1008 v) (s := fillStart v s) (t := s) rfl rfl rfl rfl rfl
    exact halike.finish_fill_eq (sendRangeFrom_kept _ _ _) (sendRangeFrom_kept _ _ _) s.work
  · rw [← rangeEntries_fill]
    exact exec_fill_sent v hok

/-! ### SEND_FRAME -/

/-- A memory with every byte below `n` has them as a list. -/
theorem Memory.exists_bytes {m : Memory} {n : Nat} (h : ∀ k < n, (Memory.read m k).isSome = true) :
    ∃ data : List Byte, data.length = n ∧ ∀ k < n, data[k]? = Memory.read m k := by
  refine ⟨List.ofFn fun k : Fin n => (Memory.read m k).get (h k k.2), List.length_ofFn, fun k hk => ?_⟩
  rw [List.getElem?_ofFn, dif_pos hk, Option.some_get]

/-- SEND_FRAME is SEND_RANGE of FRAME's bytes, whatever the channel does (30_encoding R66, 42_transport R95). -/
theorem exec_sendFrame_eq_sendRange {s : State} {data : List Byte} (hv : s.status.frameValid = true)
    (hl : data.length = 1008) (hd : ∀ k < 1008, data[k]? = Memory.read s.frame k) :
    exec .sendFrame s = exec (.sendRange 0#16 data) s := by
  rw [exec_sendFrame hv hl hd, exec_sendRange s (by rw [hl]; decide)]

/-- SEND_FRAME with all eight writes accepted: FRAME stays, and a followed device holds it. -/
theorem exec_sendFrame_sent {s : State} {data : List Byte} (hv : s.status.frameValid = true)
    (hl : data.length = 1008) (hd : ∀ k < 1008, data[k]? = Memory.read s.frame k) (hok : s.allOk 8) :
    ∃ t, exec .sendFrame s = .next t ∧ t.tx = s.tx ++ rangeEntries 0 data ∧ t.off = 1008#16 ∧ t.result = 0#8 ∧
      t.seq = .idle ∧ t.status = s.status ∧ t.frame = s.frame ∧
      (s.devSynced = true → ∀ k < 1008, Memory.read t.dev k = Memory.read s.frame k) := by
  obtain ⟨t, ht, hkept, hoff, htx, hdev⟩ := sendRangeFrom_frame_sent hl hok
  refine ⟨_, exec_sendFrame hv hl hd, ?_⟩
  rw [ht]
  refine ⟨htx, hoff, rfl, rfl, hkept.status, hkept.frame, fun hs k hk => (hdev hs k).trans ?_⟩
  rw [if_pos hk, hd k hk]

/-- Settles O40: SEND_FRAME reads FRAME once and is the range of those bytes; its one precondition is FRAME_VALID. -/
theorem sendFrameSends : Obligations.SendFrameSends := by
  refine ⟨fun s data hv hl hd => exec_sendFrame_eq_sendRange hv hl hd, fun s hv hsome hok => ?_,
    fun s hv => exec_sendFrame_frameNotValid hv⟩
  obtain ⟨data, hl, hd⟩ := Memory.exists_bytes hsome
  obtain ⟨t, ht, htx, hoff, hresult, hseq, hstatus, hframe, hdev⟩ := exec_sendFrame_sent hv hl hd hok
  exact ⟨t, data, ht, hl, hd, htx, hoff, hresult, hseq, hstatus, fun k => by rw [hframe], hdev⟩

end Sys2Proof.Machine

/-! # The animation client (43_animation R99 to R102) -/

namespace Sys2Proof.Machine

/-! ### ANIM_INIT -/

/-- Settles O41: ANIM_INIT has no precondition, and the centre of the canvas is (72, 63). -/
theorem animInitInstalls : Obligations.AnimInitInstalls := by
  intro s
  obtain ⟨hx, hy⟩ : Anim.initial.cx.toInt = 72 ∧ Anim.initial.cy.toInt = 63 := by decide
  exact ⟨_, exec_animInit s, hx, hy, rfl, rfl, rfl, rfl, rfl⟩

/-! ### The advance and the reversal -/

section Advance

variable (a : Anim)

/-- The reversal moves neither axis: a position past a boundary is not clamped (43_animation R101). -/
theorem Anim.advance_cx : a.advance.cx = advancePosition a.cx a.dx := rfl

theorem Anim.advance_cy : a.advance.cy = advancePosition a.cy a.dy := rfl

/-- The reversal tests the advanced position of its own axis, against the velocity before (43_animation R101). -/
theorem Anim.advance_dx : a.advance.dx = reverseAt Config.width a.advance.cx a.dx := rfl

theorem Anim.advance_dy : a.advance.dy = reverseAt Config.height a.advance.cy a.dy := rfl

end Advance

/-- Settles O44: the boundaries are 144 - 12 and 126 - 12 above and 12 below, and an advance whose sum fits s16 is
exact. -/
theorem advanceAndReverse : Obligations.AdvanceAndReverse := by
  refine ⟨fun a => ⟨?_, ?_⟩, fun a h1 h2 => ?_, fun a h1 h2 => ?_⟩
  · rw [Anim.advance_dx, reverseAt_eq]
    rfl
  · rw [Anim.advance_dy, reverseAt_eq]
    rfl
  · rw [Anim.advance_cx, advancePosition_toInt h1 h2]
  · rw [Anim.advance_cy, advancePosition_toInt h1 h2]

/-! ### A tick that fails -/

/-- Step 1 and ENCODE of a tick validate CANVAS and FRAME, and write no other bit of STATUS (43_animation R100). -/
theorem State.tickDrawn_encodeCanvas_status (s : State) :
    s.tickDrawn.encodeCanvas.status = { s.status with canvasValid := true, frameValid := true } := rfl

/-- A tick whose `n`-th write is the first to fail raises the channel's error from the failed range: no advance comes after
it (43_animation R102). -/
theorem exec_tick_failed {s : State} {n d : Nat} {e : ErrInfo} (hv : s.status.animValid = true) (hn : n < 8)
    (hok : s.allOk n) (hf : s.eventAt n = .fail e d) :
    ∃ u last, exec .tick s = .next (u.releaseTick.raiseTransportError e) ∧ last.length = n % 2 + 1 ∧
      RangeFailed 0 s.tickDrawn.canvas.encodedBytes (n / 2) last s.tickDrawn.encodeCanvas u := by
  obtain ⟨u, last, hwork, hlast, hfail⟩ := State.tickWork_failed hn hok hf
  exact ⟨u, last, by rw [exec_tick hv, hwork, Progress.finish_failed], hlast, hfail⟩

/-- The entries of a range that failed: two for each accepted packet before, and those of the failed one. -/
theorem RangeFailed.tx_length {start k : Nat} {data : List Byte} {last : List TxEntry} {s t : State}
    (h : RangeFailed start data k last s t) : t.tx.length = s.tx.length + 2 * k + last.length := by
  rw [h.tx, List.length_append, List.length_append, firstPackets_length]

/-- Settles O45: the failed range is all that follows the drawing and the encoding, and a range keeps ANIM, CANVAS and
FRAME. -/
theorem failedTickDoesNotAdvance : Obligations.FailedTickDoesNotAdvance := by
  intro s n e d hv hn hok hf
  obtain ⟨u, last, htick, hlast, hfail⟩ := exec_tick_failed hv hn hok hf
  have hcanvas : u.canvas = s.tickDrawn.canvas := hfail.kept.canvas
  refine ⟨_, htick, hfail.kept.anim, rfl, rfl, rfl, hfail.off, ?_, ?_, fun x y hx hy => ?_, fun j i k hj hi hk => ?_⟩
  · calc u.tx.length = s.tx.length + 2 * (n / 2) + last.length := hfail.tx_length
      _ = s.tx.length + n + 1 := by omega
  · rw [State.raiseTransportError_status, State.releaseTick_status, hfail.kept.status,
      State.tickDrawn_encodeCanvas_status]
  · rw [State.raiseTransportError_canvas, State.releaseTick_canvas, hcanvas, s.tickDrawn_pixel hx hy]
  · rw [State.raiseTransportError_frame, State.raiseTransportError_canvas, State.releaseTick_frame,
      State.releaseTick_canvas, hfail.kept.frame, hcanvas]
    exact s.tickDrawn.encodeCanvas_bit hj hi hk

end Sys2Proof.Machine

/-! # ContractViolation and HALT (60_exceptions R109, R111, R113) -/

namespace Sys2Proof.Machine

/-! ### FATAL and BUSY in STATUS -/

/-- STATUS bit 2 is FATAL and bit 0 is BUSY, whatever the other bits (10_state R25). -/
theorem State.statusWord_fatal_busy (s : State) :
    s.statusWord.getLsbD 2 = s.fatal ∧ s.statusWord.getLsbD 0 = s.busy := by
  rw [State.statusWord]
  generalize s.status.animValid = a, s.status.frameValid = f, s.status.canvasValid = c, s.fatal = h, s.status.terr = r,
    s.busy = b
  revert a f c h r b
  decide

theorem State.fatal_of_halt {s : State} (h : s.seq = .halt) : s.fatal = true := decide_eq_true h

theorem State.busy_of_halt {s : State} (h : s.seq = .halt) : s.busy = false := by
  rw [State.busy, h]
  rfl

/-! ### A step in HALT -/

/-- In HALT a step takes nothing but RESET: it passes over the host's move, if there is one (60_exceptions R111). -/
theorem step_halt {s : State} (hs : s.seq = .halt) (h : ∀ moves, s.hostMoves ≠ .reset :: moves) :
    step s = .next s.dropMove := by
  rcases hm : s.hostMoves with _ | ⟨m, moves⟩
  · have hdrop : s.dropMove = s := by rw [State.dropMove, hm, List.tail_nil, ← hm]
    rw [hdrop, step, fetch, hm, hs]
  · cases m with
    | issue d => rw [step, fetch, hm, hs]
    | reset => exact absurd hm (h moves)
    | observe => rw [step, fetch, hm, hs]

/-! ### SEQ at the end of a command -/

/-- A turn of RUN ends the command, or the next turn is due (43_animation R104). -/
theorem Progress.finishTurn_seq (release : State → State) (p : Progress) :
    (p.finishTurn release).seq = .idle ∨ (p.finishTurn release).seq = .exec (.issued .run) := by
  cases p with
  | done t => exact .inr (State.keepRunning_seq _)
  | failed e t => exact .inl (State.raiseTransportError_seq _ e)
  | reset t => exact .inl t.assertReset_seq

/-- A packet that is no command of its own leaves SEQ alone, unless it failed or was cut off by RESET. -/
theorem endOfPacket_seq (p : Progress) : (endOfPacket p).seq = .idle ∨ (endOfPacket p).seq = p.state.seq := by
  cases p with
  | done t => exact .inr t.releasePacket_seq
  | failed e t => exact .inl (State.raiseTransportError_seq _ e)
  | reset t => exact .inl t.assertReset_seq

/-- Where SEQ can stand after an instruction: IDLE; HALT after an over-long WRITE_PACKET alone; EXEC after a turn of RUN;
and as before after a wire packet, which is no command. -/
theorem exec_seq_cases {i : Instr} {s t : State} (h : exec i s = .next t) :
    t.seq = .idle ∨ (i = .run ∧ t.seq = .exec (.issued .run)) ∨ ((∃ a p, i = .wirePacket a p) ∧ t.seq = s.seq) ∨
      ((∃ a p, i = .writePacket a p ∧ 255 < p.length) ∧ t.seq = .halt) := by
  cases i with
  | canvasNew => cases h; exact .inl rfl
  | setPixel x y v => obtain ⟨-, -, -, rfl⟩ := exec_setPixel_inv h; exact .inl rfl
  | drawCircle cx cy d => obtain ⟨-, rfl⟩ := exec_drawCircle_inv h; exact .inl rfl
  | encode => obtain ⟨-, rfl⟩ := exec_encode_inv h; exact .inl rfl
  | writePacket a p =>
    rcases exec_writePacket_inv h with ⟨hlong, rfl⟩ | ⟨-, -, -, rfl⟩
    · exact .inr (.inr (.inr ⟨⟨a, p, rfl, hlong⟩, rfl⟩))
    · exact .inl (Progress.finish_seq _)
  | sendRange a data => obtain ⟨-, rfl⟩ := exec_sendRange_inv h; exact .inl (Progress.finish_seq _)
  | fill v => rw [exec_fill] at h; cases h; exact .inl (Progress.finish_seq _)
  | sendFrame => obtain ⟨-, data, -, -, rfl⟩ := exec_sendFrame_inv h; exact .inl (Progress.finish_seq _)
  | animInit => cases h; exact .inl rfl
  | tick => obtain ⟨-, rfl⟩ := exec_tick_inv h; exact .inl (Progress.finish_seq _)
  | run =>
    obtain ⟨-, rfl⟩ := exec_run_inv h
    rcases Progress.finishTurn_seq State.releaseTick s.tickWork with hseq | hseq
    · exact .inl hseq
    · exact .inr (.inl ⟨rfl, hseq⟩)
  | wirePacket a p =>
    obtain ⟨-, -, -, rfl⟩ := exec_wirePacket_inv h
    rcases endOfPacket_seq (emitPacket a p s) with hseq | hseq
    · exact .inl hseq
    · exact .inr (.inr (.inl ⟨⟨a, p, rfl⟩, hseq.trans (emitPacket_kept a p s).1.seq⟩))
  | reserved opcode => cases h

/-- Settles O58: of the places SEQ can stand after an instruction, only that of the over-long WRITE_PACKET is HALT anew;
and RESULT 2 gives ERRINFO no value. -/
theorem onlyLongPacketsHalt : Obligations.OnlyLongPacketsHalt := by
  refine ⟨fun i s t hs h ht => ?_, fun s a p hp => ⟨_, exec_writePacket_long a s hp, rfl, rfl, rfl⟩⟩
  rcases exec_seq_cases h with hidle | ⟨-, hrun⟩ | ⟨-, hkept⟩ | ⟨hlong, -⟩
  · rw [ht] at hidle
    cases hidle
  · rw [ht] at hrun
    cases hrun
  · exact absurd (hkept.symm.trans ht) hs
  · exact hlong

/-- Settles O29: raising ContractViolation writes RESULT and SEQ alone, and HALT is what FATAL, BUSY and the next step look
at. -/
theorem tooLongPayloadHalts : Obligations.TooLongPayloadHalts := by
  intro s a p hp
  have hhalt : s.raiseContractViolation.seq = .halt := s.raiseContractViolation_seq
  have hfatal := State.fatal_of_halt hhalt
  obtain ⟨hbit2, hbit0⟩ := s.raiseContractViolation.statusWord_fatal_busy
  refine ⟨_, exec_writePacket_long a s hp, rfl, hhalt, ?_, ?_, hfatal, rfl, rfl, step_halt hhalt,
    fun moves hm => ⟨_, step_reset hm, State.assertReset_seq _⟩⟩
  · exact hbit2.trans hfatal
  · exact hbit0.trans (State.busy_of_halt hhalt)

end Sys2Proof.Machine

/-! # The encodings, both ways (30_encoding R52, R59, R60, R63) -/

namespace Sys2Proof

/-- Settles O1: the decoder computes on descriptors written out byte by byte. -/
theorem descriptorWordsDecode : Obligations.DescriptorWordsDecode := by
  unfold Obligations.DescriptorWordsDecode
  decide

/-- The two values that SET_PIXEL's last byte can say come back (30_encoding R63). -/
theorem decodePixelValue_encode (v : Bool) : decodePixelValue (if v then 1#8 else 0#8) = .ok v := by
  cases v <;> rfl

theorem decodePixelValue_inv {v : Byte} {b : Bool} (h : decodePixelValue v = .ok b) : v = if b then 1#8 else 0#8 := by
  unfold decodePixelValue at h
  split_ifs at h with h0 h1
  · cases h; exact h0
  · cases h; exact h1

/-- Settles O2: the bytes after each opcode are the fields of its row, and `n` fits its two bytes. -/
theorem descriptorRoundTrip : Obligations.DescriptorRoundTrip := by
  intro i rest hwf hcommand
  cases i with
  | canvasNew => rfl
  | setPixel x y v =>
    simp [encode, halfBytes, decode, decodeOperands, joinBytes_hiByte_loByte, decodePixelValue_encode]
  | drawCircle cx cy d => simp [encode, halfBytes, decode, decodeOperands, joinBytes_hiByte_loByte]
  | encode => rfl
  | writePacket a p => exact decodeAddressed_append .writePacket a (of_decide_eq_true hwf) rest
  | sendRange a data => exact decodeAddressed_append .sendRange a (of_decide_eq_true hwf) rest
  | fill v => rfl
  | sendFrame => rfl
  | animInit => rfl
  | tick => rfl
  | run => rfl
  | wirePacket a p => cases hcommand
  | reserved opcode => cases hcommand

/-- Settles O3: the header's last byte says how many bytes of the stream are the payload. -/
theorem wirePacketRoundTrip : Obligations.WirePacketRoundTrip := by
  intro a p rest hwf
  obtain ⟨h1, h2⟩ : 1 ≤ p.length ∧ p.length ≤ 255 := of_decide_eq_true hwf
  have hlen : (BitVec.ofNat 8 p.length).toNat = p.length := by rw [BitVec.toNat_ofNat, Nat.mod_eq_of_lt (by omega)]
  have hne : BitVec.ofNat 8 p.length ≠ 0#8 := by
    intro h
    rw [h] at hlen
    simp at hlen
    omega
  simp [encode, decodePacket, hne, hlen, takeBytes_append, joinBytes_hiByte_loByte]

/-! ### What the decoder accepts -/

/-- An opcode byte that is none of the eleven names no command (30_encoding R63). -/
theorem isReservedOpcode_of_ne {opcode : Byte} (h : opcode.toNat = 0 ∨ 12 ≤ opcode.toNat) :
    isReservedOpcode opcode = true := by
  unfold isReservedOpcode
  rw [Bool.or_eq_true, beq_iff_eq, decide_eq_true_eq, BitVec.le_def]
  exact h.imp (fun h0 => BitVec.eq_of_toNat_eq h0) id

/-- The operand fields that decoded are those of a well-formed term with that opcode (30_encoding R59). -/
theorem decodeOperands_inv {opcode : Byte} {bs rest : List Byte} {i : Instr}
    (h : decodeOperands opcode bs = .ok (i, rest)) : i.wellFormed = true ∧ opcode :: bs = encode i ++ rest := by
  have named : ∀ {n : Nat}, opcode.toNat = n → opcode = BitVec.ofNat 8 n := fun hn => by
    rw [← hn, BitVec.ofNat_toNat, BitVec.setWidth_eq]
  unfold decodeOperands at h
  split at h
  case h_1 hn => cases h; rw [named hn]; exact ⟨rfl, rfl⟩
  case h_2 hn =>
    split at h
    · rename_i x0 x1 y0 y1 v r
      split at h
      · rename_i b hv
        cases h
        rw [named hn, decodePixelValue_inv hv]
        exact ⟨rfl, by simp [encode, halfBytes, hiByte_joinBytes, loByte_joinBytes]⟩
      · cases h
    · cases h
  case h_3 hn =>
    split at h
    · cases h
      rw [named hn]
      exact ⟨rfl, by simp [encode, halfBytes, hiByte_joinBytes, loByte_joinBytes]⟩
    · cases h
  case h_4 hn => cases h; rw [named hn]; exact ⟨rfl, rfl⟩
  case h_5 hn =>
    obtain ⟨a, p, rfl, hp, rfl⟩ := decodeAddressed_inv h
    rw [named hn]
    exact ⟨decide_eq_true hp, rfl⟩
  case h_6 hn =>
    obtain ⟨a, p, rfl, hp, rfl⟩ := decodeAddressed_inv h
    rw [named hn]
    exact ⟨decide_eq_true hp, rfl⟩
  case h_7 hn =>
    split at h
    · cases h; rw [named hn]; exact ⟨rfl, rfl⟩
    · cases h
  case h_8 hn => cases h; rw [named hn]; exact ⟨rfl, rfl⟩
  case h_9 hn => cases h; rw [named hn]; exact ⟨rfl, rfl⟩
  case h_10 hn => cases h; rw [named hn]; exact ⟨rfl, rfl⟩
  case h_11 hn => cases h; rw [named hn]; exact ⟨rfl, rfl⟩
  case h_12 =>
    cases h
    simp only [imp_false] at *
    exact ⟨isReservedOpcode_of_ne (by omega), rfl⟩

/-- Settles O4: the decoder accepts no byte that the encoder of its answer would not write. -/
theorem decodedBytesAreTheEncoding : Obligations.DecodedBytesAreTheEncoding := by
  intro bs rest i h
  cases bs with
  | nil => cases h
  | cons opcode bs => exact decodeOperands_inv h

end Sys2Proof

/-! # One channel transaction, and what every step of a transport command makes of it (20_memory R44, 42_transport R83) -/

namespace Sys2Proof.Machine

/-! ### Releasing working registers -/

/-- A function that writes working registers, and the counter of their free values, alone (log 6). -/
def ReleasesWork (release : State → State) : Prop :=
  ∀ s, ∃ w d, release s = { s with work := w, draws := d }

theorem releasePacket_releasesWork : ReleasesWork State.releasePacket := fun _ => ⟨_, _, rfl⟩
theorem releaseRange_releasesWork : ReleasesWork State.releaseRange := fun _ => ⟨_, _, rfl⟩
theorem releaseFill_releasesWork : ReleasesWork State.releaseFill := fun _ => ⟨_, _, rfl⟩
theorem releaseTick_releasesWork : ReleasesWork State.releaseTick := fun _ => ⟨_, _, rfl⟩

theorem RangeUser.release_releasesWork (u : RangeUser) : ReleasesWork u.release := by
  cases u with
  | sendRange => exact releaseRange_releasesWork
  | fill => exact releaseFill_releasesWork
  | sendFrame => exact releaseRange_releasesWork
  | ticker k => exact releaseTick_releasesWork

/-! ### DEV stays canonical -/

theorem State.devCut_wf {s : State} (h : Memory.wf 1008 s.dev) (a n : Nat) : Memory.wf 1008 (s.devCut a n).dev := by
  unfold State.devCut
  split
  · exact Memory.wf_forget h a n
  · exact Memory.wf_nil _

theorem State.devDeliver_wf {s : State} (h : Memory.wf 1008 s.dev) (a : Nat) (p : List Byte) :
    Memory.wf 1008 (s.devDeliver a p).dev := by
  unfold State.devDeliver
  split
  · rename_i hin
    exact Memory.wf_writeRange h ((inFrameMemory_iff _ _).1 (Bool.and_eq_true_iff.1 hin).2)
  · exact Memory.wf_nil _

theorem State.devHeader_wf {s : State} (h : Memory.wf 1008 s.dev) : Memory.wf 1008 s.devHeader.dev := by
  rw [State.devHeader_dev]
  split
  · exact h
  · exact Memory.wf_nil _

/-! ### One transaction -/

/-- The event that a transaction ended by. -/
def Progress.endedBy : Progress → Config.ChanEvent → Prop
  | .done _, ev => ev = .ok
  | .failed e _, ev => ∃ d, ev = .fail e d
  | .reset _, ev => isResetEvent ev = true

/-- What the write of `b` that meets an event leaves in TX. -/
def loggedBy (b : List Byte) : Config.ChanEvent → List TxEntry
  | .ok => [sentOk b]
  | .fail e d => [sentFail b e d]
  | .resetBefore => []
  | .resetDuring e d => [sentFail b e d]

/-- What one transaction that writes the bytes `b` does, whatever the channel answers: one event is taken and logged, and
the block's registers but ADDR, LEN and HDR stay. -/
structure Transaction (b : List Byte) (s : State) (p : Progress) : Prop where
  kept : TransportKept s p.state
  off : p.state.off = s.off
  total : p.state.work.total = s.work.total
  result : p.state.result = s.result
  event : p.endedBy (s.eventAt 0)
  writes : p.state.writes = s.writes + 1
  tx : p.state.tx = s.tx ++ loggedBy b (s.eventAt 0)
  devWf : Memory.wf 1008 s.dev → Memory.wf 1008 p.state.dev
  lost : s.devSynced = false → Lost s p.state

theorem sendHeader_transaction (a : Half) (n : Nat) (s : State) :
    Transaction (packetHeader a.toNat n) s (sendHeader a n s) where
  kept := (sendHeader_kept a n s).1
  off := (sendHeader_kept a n s).2.1
  total := (sendHeader_kept a n s).2.2
  result := sendHeader_result a n s
  event := by rw [sendHeader_eq]; cases s.eventAt 0 <;> simp [Progress.endedBy, isResetEvent]
  writes := by rw [sendHeader_eq]; cases s.eventAt 0 <;> simp
  tx := by rw [sendHeader_eq]; cases s.eventAt 0 <;> simp [loggedBy, sentOk, sentFail]
  devWf hw := by
    rw [sendHeader_eq]
    cases s.eventAt 0 with
    | ok => exact State.devHeader_wf hw
    | fail e d => exact State.devCut_wf (by exact hw) _ _
    | resetBefore => exact hw
    | resetDuring e d => exact State.devCut_wf (by exact hw) _ _
  lost h := sendHeader_lost h a n

theorem sendPayload_transaction (a : Half) (p : List Byte) (s : State) : Transaction p s (sendPayload a p s) where
  kept := (sendPayload_kept a p s).1
  off := (sendPayload_kept a p s).2.1
  total := (sendPayload_kept a p s).2.2
  result := by rw [sendPayload_eq]; cases s.eventAt 0 <;> simp
  event := by rw [sendPayload_eq]; cases s.eventAt 0 <;> simp [Progress.endedBy, isResetEvent]
  writes := by rw [sendPayload_eq]; cases s.eventAt 0 <;> simp
  tx := by rw [sendPayload_eq]; cases s.eventAt 0 <;> simp [loggedBy, sentOk, sentFail]
  devWf hw := by
    rw [sendPayload_eq]
    cases s.eventAt 0 with
    | ok => exact State.devDeliver_wf (by exact hw) _ _
    | fail e d => exact State.devCut_wf (by exact hw) _ _
    | resetBefore => exact State.devCut_wf (by exact hw) _ _
    | resetDuring e d => exact State.devCut_wf (by exact hw) _ _
  lost h := sendPayload_lost h a p

end Sys2Proof.Machine

/-! # What one step of the work does (10_state R24) -/

namespace Sys2Proof.Machine

/-! ### The steps of the transport commands -/

/-- `t` is `s` but for working registers, OFF, RESULT and SEQ, and step 4 of a tick is not next. -/
def MovesOn (s t : State) : Prop :=
  ∃ w d o r q, t = { s with work := w, draws := d, off := o, result := r, seq := q } ∧ q.reversing = false

/-- What one transaction with its turn ends in: the work goes on, or the channel's error, or RESET. -/
def TurnEnds (release : State → State) (p : Progress) (t : State) : Prop :=
  (∃ u, p = .done u ∧ MovesOn u t) ∨ (∃ e u, p = .failed e u ∧ t = (release u).raiseTransportError e) ∨
    ∃ u, p = .reset u ∧ t = u.assertReset

theorem Progress.turn_ends {release goOn : State → State} (h : ∀ u, MovesOn u (goOn u)) (p : Progress) :
    TurnEnds release p (p.turn release goOn) := by
  cases p with
  | done u => exact .inl ⟨u, rfl, h u⟩
  | failed e u => exact .inr (.inl ⟨e, u, rfl, rfl⟩)
  | reset u => exact .inr (.inr ⟨u, rfl, rfl⟩)

theorem State.endRange_movesOn (u : RangeUser) (s : State) : MovesOn s (s.endRange u) := by
  cases u <;> exact ⟨_, _, _, _, _, rfl, rfl⟩

/-- The bytes of the transaction that is next, where one is. -/
def Job.nextBytes : Job → State → List Byte
  | .packetHeader a p, _ => Machine.packetHeader a.toNat p.length
  | .packetPayload _ p, _ => p
  | .rangeHeader _ start data, s => Machine.packetHeader (s.chunkAddress start).toNat (s.chunkBytes data).length
  | .rangePayload _ _ data, s => s.chunkBytes data
  | _, _ => []

/-- A transaction is next: at the head of a range's loop only while data is left (42_transport R88). -/
def Job.Transacts : Job → State → Prop
  | .rangeHeader _ _ _, s => s.off.toNat < s.work.total.toNat
  | _, _ => True

/-- A step in the header phase or the payload phase: a transaction and its turn, or the end of a range (log 1). -/
theorem workOn_phase {j : Job} {s t : State} (hj : j.phase.isSome = true) (h : workOn j s = .next t) :
    (MovesOn s t ∧ j.phase = some .header) ∨
      ∃ p release, j.Transacts s ∧ Transaction (j.nextBytes s) s p ∧ ReleasesWork release ∧ TurnEnds release p t := by
  cases j with
  | packetHeader a p =>
    cases h
    exact .inr ⟨_, _, trivial, sendHeader_transaction a p.length s, releasePacket_releasesWork,
      Progress.turn_ends (fun u => ⟨_, _, _, _, _, rfl, rfl⟩) _⟩
  | packetPayload a p =>
    cases h
    exact .inr ⟨_, _, trivial, sendPayload_transaction a p s, releasePacket_releasesWork,
      Progress.turn_ends (fun u => ⟨_, _, _, _, _, rfl, rfl⟩) _⟩
  | rangeHeader u start data =>
    cases h
    unfold State.rangeHeaderTurn
    split
    · rename_i hlt
      exact .inr ⟨_, _, hlt, sendHeader_transaction _ _ s, u.release_releasesWork,
        Progress.turn_ends (fun u => ⟨_, _, _, _, _, rfl, rfl⟩) _⟩
    · exact .inl ⟨s.endRange_movesOn u, rfl⟩
  | rangePayload u start data =>
    cases h
    exact .inr ⟨_, _, trivial, sendPayload_transaction _ _ s, u.release_releasesWork,
      Progress.turn_ends (fun u => ⟨_, _, _, _, _, rfl, rfl⟩) _⟩
  | issued i => cases hj
  | encodeNext k => cases hj
  | encoding u => cases hj
  | sendNext k => cases hj
  | advance k => cases hj
  | reverse k => cases hj

/-! ### The first step of a command -/

/-- WRITE_PACKET's length check comes first (42_transport R82). -/
theorem startWork_writePacket_inv {a : Half} {p : List Byte} {s t : State} (h : startWork (.writePacket a p) s = .next t) :
    (255 < p.length ∧ t = s.raiseContractViolation) ∨ (p.length ≤ 255 ∧ t = s.goTo (.packetHeader a p)) := by
  by_cases hp : p.length > Config.maxPayload
  · rw [startWork, if_pos hp] at h
    cases h
    exact .inl ⟨hp, rfl⟩
  · rw [startWork, if_neg hp] at h
    cases h
    exact .inr ⟨not_lt.1 hp, rfl⟩

/-- FILL starts a range of its copies (42_transport R93). -/
theorem startWork_fill_inv {v : Byte} {s t : State} (h : startWork (.fill v) s = .next t) :
    ∃ data, data = List.replicate 1008 v ∧ t = (fillStart v s).startRange .fill 0#16 data :=
  ⟨_, rfl, (Host.Outcome.next.inj ((workOn_fill rfl s).symm.trans h)).symm⟩

/-! ### The steps of ENCODE -/

/-- The four ways a step of ENCODE's loop can go (41_encoder R74). -/
theorem State.encodeTurn_cases (u : EncodeUser) (s : State) :
    (s.work.k.toNat < 8 ∧ s.encodeTurn u = s.packPixel) ∨
    (8 ≤ s.work.k.toNat ∧ s.work.i.toNat < 15 ∧ s.encodeTurn u = s.storeByte.nextByte s.work.j (s.work.i + 1#4)) ∨
    (8 ≤ s.work.k.toNat ∧ s.work.i.toNat = 15 ∧ s.work.j.toNat < 62 ∧
      s.encodeTurn u = s.storeByte.nextByte (s.work.j + 1#6) 0#4) ∨
    (8 ≤ s.work.k.toNat ∧ s.work.i.toNat = 15 ∧ 62 ≤ s.work.j.toNat ∧ s.encodeTurn u = s.storeByte.endEncoding u) := by
  have hi := s.work.i.isLt
  have hgroups : Config.groups = 16 := rfl
  have hrows : Config.rows = 63 := rfl
  unfold State.encodeTurn
  rw [hgroups, hrows]
  split_ifs with h1 h2 h3
  · exact .inl ⟨h1, rfl⟩
  · exact .inr (.inl ⟨by omega, by omega, rfl⟩)
  · exact .inr (.inr (.inl ⟨by omega, by omega, by omega, rfl⟩))
  · exact .inr (.inr (.inr ⟨by omega, by omega, by omega, rfl⟩))

/-! ### The position of the animation (43_animation R101, R103) -/

theorem State.settledAnim_eq {s : State} (h : s.seq.reversing = false) : s.settledAnim = s.anim := by
  rw [State.settledAnim, h]; rfl

/-- ANIM and ANIM_VALID alone matter, outside the moment between steps 3 and 4. -/
theorem State.AnimInv.keep {s t : State} (h : s.AnimInv) (hs : s.seq.reversing = false) (ht : t.seq.reversing = false)
    (ha : t.anim = s.anim) (hv : t.status.animValid = s.status.animValid) : t.AnimInv := by
  unfold State.AnimInv at *
  rwa [State.settledAnim_eq ht, ha, hv, ← State.settledAnim_eq hs]

theorem State.AnimInv.of_invalid {s : State} (h : s.status.animValid = false) : s.AnimInv := fun hv => by
  rw [h] at hv; cases hv

/-- One tick moves a coordinate one step inside its range, and turns it at the ends. -/
theorem axisInRange.advance {n : Nat} {c : Half} {d : Dir} (h24 : 24 < n) (hn : n < 30000) (h : axisInRange n c d) :
    axisInRange n (advancePosition c d) (reverseAt n (advancePosition c d) d) := by
  obtain ⟨hlow, hhigh, htop, hbottom⟩ := h
  have hd : d.value = 1 ∧ d = .pos ∨ d.value = -1 ∧ d = .neg := by cases d <;> simp [Dir.value]
  have hmove : (advancePosition c d).toInt = c.toInt + d.value :=
    advancePosition_toInt (by rcases hd with ⟨hd, -⟩ | ⟨hd, -⟩ <;> omega) (by rcases hd with ⟨hd, -⟩ | ⟨hd, -⟩ <;> omega)
  have hinside : 12 ≤ c.toInt + d.value ∧ c.toInt + d.value ≤ n - 12 := by
    rcases hd with ⟨hv, rfl⟩ | ⟨hv, rfl⟩
    · have : c.toInt ≠ n - 12 := fun hc => by cases htop hc
      omega
    · have : c.toInt ≠ 12 := fun hc => by cases hbottom hc
      omega
  unfold axisInRange
  rw [reverseAt_eq, hmove]
  refine ⟨hinside.1, hinside.2, fun hc => ?_, fun hc => ?_⟩
  · rw [if_pos (by omega)]
  · rw [if_neg (by omega), if_pos (by omega)]

/-- Both coordinates inside their ranges. -/
def Anim.inRange (a : Anim) : Prop := axisInRange 144 a.cx a.dx ∧ axisInRange 126 a.cy a.dy

theorem Anim.inRange.advance {a : Anim} (h : a.inRange) : a.advance.inRange :=
  ⟨axisInRange.advance (n := 144) (by omega) (by omega) h.1, axisInRange.advance (n := 126) (by omega) (by omega) h.2⟩

theorem Anim.initial_inRange : Anim.initial.inRange := by
  unfold Anim.inRange axisInRange
  decide

/-- A step in the header or the payload phase keeps ANIM, or is RESET. -/
theorem workOn_phase_animInv {j : Job} {s t : State} (hj : j.phase.isSome = true) (h : workOn j s = .next t)
    (hi : s.AnimInv) (hs : s.seq.reversing = false) : t.AnimInv := by
  rcases workOn_phase hj h with ⟨⟨w, d, o, r, q, rfl, hq⟩, -⟩ | ⟨p, release, -, htrans, hrel, hends⟩
  · exact hi.keep hs hq rfl rfl
  · have ha := htrans.kept.anim
    have hv := congrArg Status.animValid htrans.kept.status
    rcases hends with ⟨u, rfl, w, d, o, r, q, rfl, hq⟩ | ⟨e, u, rfl, rfl⟩ | ⟨u, rfl, rfl⟩
    · exact hi.keep hs hq ha hv
    · obtain ⟨w, d, hw⟩ := hrel u
      rw [hw]
      exact hi.keep hs rfl ha hv
    · exact .of_invalid rfl

theorem startWork_animInv {i : Instr} {s t : State} (h : startWork i s = .next t) (hi : s.AnimInv)
    (hs : s.seq.reversing = false) : t.AnimInv := by
  cases i with
  | canvasNew => cases h; exact hi.keep hs rfl rfl rfl
  | setPixel x y v => obtain ⟨-, -, -, rfl⟩ := exec_setPixel_inv h; exact hi.keep hs rfl rfl rfl
  | drawCircle cx cy d => obtain ⟨-, rfl⟩ := exec_drawCircle_inv h; exact hi.keep hs rfl rfl rfl
  | encode => cases h; exact hi.keep hs rfl rfl rfl
  | writePacket a p =>
    rcases startWork_writePacket_inv h with ⟨-, rfl⟩ | ⟨-, rfl⟩
    · exact hi.keep hs rfl rfl rfl
    · exact hi.keep hs rfl rfl rfl
  | sendRange a data => cases h; exact hi.keep hs rfl rfl rfl
  | fill v => obtain ⟨data, -, rfl⟩ := startWork_fill_inv h; exact hi.keep hs rfl rfl rfl
  | sendFrame => obtain ⟨data, -, -, rfl⟩ := State.startFrame_inv h; exact hi.keep hs rfl rfl rfl
  | animInit => cases h; exact fun _ => Anim.initial_inRange
  | tick => cases h; exact hi.keep hs rfl rfl rfl
  | run => cases h; exact hi.keep hs rfl rfl rfl
  | wirePacket a p =>
    obtain ⟨-, -, -, rfl⟩ := exec_wirePacket_inv h
    have hkept := (emitPacket_kept a p { s with seq := .idle }).1
    have hv := congrArg Status.animValid hkept.status
    rcases hp : emitPacket a p { s with seq := .idle } with u | ⟨e, u⟩ | u <;> rw [hp] at hkept hv
    · exact hi.keep hs (congrArg Seq.reversing hkept.seq) hkept.anim hv
    · exact hi.keep hs rfl hkept.anim hv
    · exact .of_invalid rfl
  | reserved opcode => cases h

theorem workOn_animInv {j : Job} {s t : State} (hj : s.seq = .exec j) (h : workOn j s = .next t) (hi : s.AnimInv) :
    t.AnimInv := by
  have hs : ∀ r, Seq.reversing (.exec j) = r → s.seq.reversing = r := fun r hr => by rw [hj, hr]
  cases j with
  | issued i => exact startWork_animInv h hi (hs _ rfl)
  | encodeNext k => cases h; exact hi.keep (hs _ rfl) rfl rfl rfl
  | encoding u =>
    cases h
    have hsame : ∀ q : State, q.seq = s.seq → q.seq.reversing = false := fun q hq => by rw [hq]; exact hs _ rfl
    rcases s.encodeTurn_cases u with ⟨-, h⟩ | ⟨-, -, h⟩ | ⟨-, -, -, h⟩ | ⟨-, -, -, h⟩ <;> rw [h]
    · exact hi.keep (hs _ rfl) (hsame _ rfl) rfl rfl
    · exact hi.keep (hs _ rfl) (hsame _ rfl) rfl rfl
    · exact hi.keep (hs _ rfl) (hsame _ rfl) rfl rfl
    · cases u <;> exact hi.keep (hs _ rfl) rfl rfl rfl
  | sendNext k => obtain ⟨data, -, -, rfl⟩ := State.startFrame_inv h; exact hi.keep (hs _ rfl) rfl rfl rfl
  | packetHeader a p => exact workOn_phase_animInv rfl h hi (hs _ rfl)
  | packetPayload a p => exact workOn_phase_animInv rfl h hi (hs _ rfl)
  | rangeHeader u a data => exact workOn_phase_animInv rfl h hi (hs _ rfl)
  | rangePayload u a data => exact workOn_phase_animInv rfl h hi (hs _ rfl)
  | advance k =>
    cases h
    intro hv
    have hbefore : s.anim.inRange := State.settledAnim_eq (hs _ rfl) ▸ hi hv
    exact hbefore.advance
  | reverse k =>
    have hsettled : s.settledAnim = s.anim.reverse := by rw [State.settledAnim, hs true rfl]; rfl
    cases h
    intro hv
    have hbefore : s.anim.reverse.inRange := by
      cases k <;> exact hsettled ▸ hi hv
    cases k <;> exact hbefore

/-- Settles O54: of all that a step does only step 3 of a tick moves the position, by one, and step 4 turns it at the ends
of its range. -/
theorem stepKeepsAnimInv : Obligations.StepKeepsAnimInv := by
  intro s t hi h
  rcases step_cases h with ⟨moves, -, rfl⟩ | ⟨-, rfl | rfl⟩ | ⟨d, moves, i, hs, -, -, -, rfl⟩ |
    ⟨j, u, hs, rfl | rfl, hwork⟩
  · exact .of_invalid rfl
  · exact hi
  · exact hi
  · exact hi.keep (by rw [hs]; rfl) rfl rfl rfl
  · exact workOn_animInv hs hwork hi
  · exact workOn_animInv (s := s.dropMove) hs hwork hi

end Sys2Proof.Machine

/-! # The canonical form of the memories, step by step (10_state, Memories) -/

namespace Sys2Proof.Machine

theorem State.MemoryInv.keep {s t : State} (h : s.MemoryInv) (hc : t.canvas = s.canvas) (hf : t.frame = s.frame)
    (hd : t.dev = s.dev) : t.MemoryInv := by
  unfold State.MemoryInv
  rwa [hc, hf, hd]

/-- What RESET leaves is canonical where DEV is. -/
theorem State.assertReset_memoryInv {s : State} (h : Memory.wf 1008 s.dev) : s.assertReset.MemoryInv :=
  ⟨Canvas.wf_nil, Memory.wf_nil _, h⟩

theorem State.abandonPacket_wf {s : State} (h : Memory.wf 1008 s.dev) : Memory.wf 1008 s.abandonPacket.dev := by
  rcases s.abandonPacket_cases with he | ⟨a, p, -, he⟩ | ⟨u, start, data, -, he⟩ <;> rw [he]
  · exact h
  · exact State.devCut_wf h _ _
  · exact State.devCut_wf h _ _

/-- The store of a byte of the frame stays inside the frame (41_encoder R74). -/
theorem State.storeByte_memoryInv {s : State} (h : s.MemoryInv) (hj : s.work.j.toNat < 63) : s.storeByte.MemoryInv := by
  obtain ⟨hc, hf, hd⟩ := h
  have hi := s.work.i.isLt
  have hplace : Config.groups * s.work.j.toNat + s.work.i.toNat < 1008 := by
    show 16 * s.work.j.toNat + s.work.i.toNat < 1008
    omega
  exact ⟨hc, Memory.wf_write hf hplace _, hd⟩

theorem workOn_phase_memoryInv {j : Job} {s t : State} (hj : j.phase.isSome = true) (h : workOn j s = .next t)
    (hi : s.MemoryInv) : t.MemoryInv := by
  rcases workOn_phase hj h with ⟨⟨w, d, o, r, q, rfl, -⟩, -⟩ | ⟨p, release, -, htrans, hrel, hends⟩
  · exact hi
  · have hdev := htrans.devWf hi.2.2
    have hp : p.state.MemoryInv := ⟨htrans.kept.canvas ▸ hi.1, htrans.kept.frame ▸ hi.2.1, hdev⟩
    rcases hends with ⟨u, rfl, w, d, o, r, q, rfl, -⟩ | ⟨e, u, rfl, rfl⟩ | ⟨u, rfl, rfl⟩
    · exact hp
    · obtain ⟨w, d, hw⟩ := hrel u
      rw [hw]
      exact hp
    · exact State.assertReset_memoryInv hdev

theorem startWork_memoryInv {i : Instr} {s t : State} (h : startWork i s = .next t) (hi : s.MemoryInv)
    (hc : i.isCommand = true) : t.MemoryInv := by
  cases i with
  | canvasNew => cases h; exact ⟨Canvas.wf_nil, hi.2⟩
  | setPixel x y v =>
    obtain ⟨-, hx, hy, rfl⟩ := exec_setPixel_inv h
    exact ⟨Canvas.wf_write hi.1 hx hy v, hi.2⟩
  | drawCircle cx cy d =>
    obtain ⟨-, rfl⟩ := exec_drawCircle_inv h
    exact ⟨Canvas.wf_draw _ _, hi.2⟩
  | encode => cases h; exact hi
  | writePacket a p => rcases startWork_writePacket_inv h with ⟨-, rfl⟩ | ⟨-, rfl⟩ <;> exact hi
  | sendRange a data => cases h; exact hi
  | fill v => obtain ⟨data, -, rfl⟩ := startWork_fill_inv h; exact hi
  | sendFrame => obtain ⟨data, -, -, rfl⟩ := State.startFrame_inv h; exact hi
  | animInit => cases h; exact hi
  | tick => cases h; exact ⟨Canvas.wf_draw _ _, hi.2⟩
  | run => cases h; exact ⟨Canvas.wf_draw _ _, hi.2⟩
  | wirePacket a p => cases hc
  | reserved opcode => cases hc

/-- In ENCODE's loop J is below ROWS, whoever encodes. -/
theorem Job.Inv.encodingAt {u : EncodeUser} {s : State} (h : (Job.encoding u).Inv s) : s.EncodingAt := by
  cases u with
  | encode => exact h
  | ticker k => exact h.1

theorem State.PositionInv.job {j : Job} {s : State} (h : s.PositionInv) (hs : s.seq = .exec j) : j.Inv s := by
  unfold State.PositionInv at h
  rwa [hs] at h

theorem refusalOf_dropMove (i : Instr) (s : State) : refusalOf i s.dropMove = refusalOf i s := by cases i <;> rfl

/-- The host's moves do not enter the position of the work. -/
theorem Job.Inv.dropMove {j : Job} {s : State} (h : j.Inv s) : j.Inv s.dropMove := by
  cases j with
  | issued i => exact ⟨h.1, (refusalOf_dropMove i s).trans h.2⟩
  | encoding u => cases u <;> exact h
  | rangeHeader u a data => cases u <;> exact h
  | rangePayload u a data => cases u <;> exact h
  | _ => exact h

theorem workOn_memoryInv {j : Job} {s t : State} (hp : j.Inv s) (h : workOn j s = .next t)
    (hi : s.MemoryInv) : t.MemoryInv := by
  cases j with
  | issued i => exact startWork_memoryInv h hi hp.1
  | encodeNext k => cases h; exact hi
  | encoding u =>
    have hstore := State.storeByte_memoryInv hi hp.encodingAt.2.2.1
    cases h
    rcases s.encodeTurn_cases u with ⟨-, h⟩ | ⟨-, -, h⟩ | ⟨-, -, -, h⟩ | ⟨-, -, -, h⟩ <;> rw [h]
    · exact hi
    · exact hstore
    · exact hstore
    · cases u <;> exact hstore
  | sendNext k => obtain ⟨data, -, -, rfl⟩ := State.startFrame_inv h; exact hi
  | packetHeader a p => exact workOn_phase_memoryInv rfl h hi
  | packetPayload a p => exact workOn_phase_memoryInv rfl h hi
  | rangeHeader u a data => exact workOn_phase_memoryInv rfl h hi
  | rangePayload u a data => exact workOn_phase_memoryInv rfl h hi
  | advance k => cases h; exact hi
  | reverse k => cases h; cases k <;> exact hi

/-- Settles O52: every write of a step is inside its memory, the encoder's because J is below ROWS in its loop. -/
theorem stepKeepsMemoryInv : Obligations.StepKeepsMemoryInv := by
  intro s t hi hcontrol h
  obtain ⟨-, -, -, hp, -⟩ := hcontrol
  rcases step_cases h with ⟨moves, -, rfl⟩ | ⟨-, rfl | rfl⟩ | ⟨d, moves, i, -, -, -, -, rfl⟩ |
    ⟨j, u, hs, rfl | rfl, hwork⟩
  · exact State.assertReset_memoryInv (State.abandonPacket_wf hi.2.2)
  · exact hi
  · exact hi
  · exact hi
  · exact workOn_memoryInv (hp.job hs) hwork hi
  · exact workOn_memoryInv (hp.job hs).dropMove hwork hi

end Sys2Proof.Machine

/-! # RESULT, TERR, the valid frame and the position of the work, step by step (10_state R23 to R27) -/

namespace Sys2Proof.Machine

/-! ### The parts of the invariant -/

/-- RESULT while the block is not halted: a TransportError was recorded in TERR (60_exceptions R110, R112). -/
def State.ResultInv (s : State) : Prop := s.result = 0#8 ∨ s.result = 1#8 ∧ s.status.terr = true

/-- A valid frame has every byte, and a canvas it came from. -/
def State.FrameInv (s : State) : Prop :=
  s.status.frameValid = true → s.status.canvasValid = true ∧ ∀ k < 1008, (Memory.read s.frame k).isSome = true

theorem State.ControlInv.of_running {s : State} (hs : s.seq ≠ .halt) (hr : s.ResultInv) (hf : s.FrameInv)
    (hp : s.PositionInv) : s.ControlInv := by
  rcases hr with hr | ⟨hr, hterr⟩
  · exact ⟨.inl hr, ⟨fun h => absurd h hs, fun h => by rw [hr] at h; cases h⟩, fun h => (by rw [hr] at h; cases h), hp, hf⟩
  · exact ⟨.inr (.inl hr), ⟨fun h => absurd h hs, fun h => by rw [hr] at h; cases h⟩, fun _ => hterr, hp, hf⟩

theorem State.ControlInv.of_idle {s : State} (hs : s.seq = .idle) (hr : s.ResultInv) (hf : s.FrameInv) : s.ControlInv :=
  .of_running (by rw [hs]; simp) hr hf (by unfold State.PositionInv; rw [hs]; trivial)

theorem State.ControlInv.of_exec {s : State} {j : Job} (hs : s.seq = .exec j) (hr : s.ResultInv) (hf : s.FrameInv)
    (hj : j.Inv s) : s.ControlInv :=
  .of_running (by rw [hs]; simp) hr hf (by unfold State.PositionInv; rwa [hs])

theorem State.ControlInv.result_of_ne_halt {s : State} (h : s.ControlInv) (hs : s.seq ≠ .halt) : s.ResultInv := by
  obtain ⟨hcode, hhalt, hterr, -, -⟩ := h
  rcases hcode with hr | hr | hr
  · exact .inl hr
  · exact .inr ⟨hr, hterr hr⟩
  · exact absurd (hhalt.2 hr) hs

theorem State.ControlInv.frameInv {s : State} (h : s.ControlInv) : s.FrameInv := by
  obtain ⟨-, -, -, -, hf⟩ := h
  exact hf

theorem State.ControlInv.positionInv {s : State} (h : s.ControlInv) : s.PositionInv := by
  obtain ⟨-, -, -, hp, -⟩ := h
  exact hp

/-- The host's moves do not enter the invariant. -/
theorem State.ControlInv.dropMove {s : State} (h : s.ControlInv) : s.dropMove.ControlInv := by
  obtain ⟨hcode, hhalt, hterr, hp, hf⟩ := h
  refine ⟨hcode, hhalt, hterr, ?_, hf⟩
  unfold State.PositionInv at *
  rw [show s.dropMove.seq = s.seq from rfl]
  cases hs : s.seq with
  | idle => trivial
  | exec j => rw [hs] at hp; exact hp.dropMove
  | halt => trivial

theorem State.assertReset_controlInv (s : State) : s.assertReset.ControlInv :=
  .of_idle rfl (.inl rfl) fun h => by cases h

/-- A failed write ends a command with RESULT 1, and TERR set. -/
theorem State.raiseTransportError_controlInv {s : State} (e : ErrInfo) (hf : s.FrameInv) :
    (s.raiseTransportError e).ControlInv :=
  .of_idle rfl (.inr ⟨rfl, rfl⟩) hf

/-! ### ENCODE's loop -/

theorem State.startEncoding_encodingAt {u : EncodeUser} {s : State} (h : s.status.canvasValid = true) :
    (s.startEncoding u).EncodingAt :=
  ⟨h, rfl, (by decide : (0#6).toNat < 63), (by decide : (0#4).toNat ≤ 8), fun n hn => absurd hn (Nat.not_lt_zero n),
    fun k hk => absurd hk (Nat.not_lt_zero k)⟩

/-- A K step shifts one more pixel in from the right. -/
theorem State.packPixel_encodingAt {s : State} (h : s.EncodingAt) (hk : s.work.k.toNat < 8) : s.packPixel.EncodingAt := by
  obtain ⟨hcanvas, hframe, hj, -, hbytes, hbits⟩ := h
  have hnext : (s.work.k + 1#4).toNat = s.work.k.toNat + 1 := by
    rw [BitVec.toNat_add]
    show (s.work.k.toNat + 1) % 16 = _
    omega
  refine ⟨hcanvas, hframe, hj, ?_, hbytes, fun m hm => ?_⟩
  · show (s.work.k + 1#4).toNat ≤ 8
    omega
  · have hm : m < s.work.k.toNat + 1 := hnext ▸ hm
    show (shiftIn s.work.acc _).getLsbD ((s.work.k + 1#4).toNat - 1 - m) = _
    rw [hnext, shiftIn_getLsbD _ _ _ (by omega), Nat.add_sub_cancel]
    by_cases hlast : m = s.work.k.toNat
    · rw [if_pos (by omega), hlast]
      rfl
    · rw [if_neg (by omega), show s.work.k.toNat - m - 1 = s.work.k.toNat - 1 - m by omega]
      exact hbits m (by omega)

/-- With all eight pixels in, ACC is the packed byte of its place. -/
theorem State.EncodingAt.acc_eq {s : State} (h : s.EncodingAt) (hk : 8 ≤ s.work.k.toNat) :
    s.work.acc = s.canvas.packedByte s.work.j.toNat s.work.i.toNat := by
  obtain ⟨-, -, -, hk8, -, hbits⟩ := h
  have hk : s.work.k.toNat = 8 := by omega
  refine (Canvas.packedByte_eq_of_bits fun m hm => ?_).symm
  have hm := hbits m (by omega)
  rw [hk] at hm
  exact hm.symm

/-- The store gives one more byte of the frame its value. -/
theorem State.EncodingAt.storeByte_read {s : State} (h : s.EncodingAt) (hk : 8 ≤ s.work.k.toNat) {n : Nat}
    (hn : n < 16 * s.work.j.toNat + s.work.i.toNat + 1) :
    Memory.read s.storeByte.frame n = some (s.canvas.packedByte (n / 16) (n % 16)) := by
  have hacc := h.acc_eq hk
  obtain ⟨-, -, -, -, hbytes, -⟩ := h
  have hi := s.work.i.isLt
  show Memory.read (s.frame.write (16 * s.work.j.toNat + s.work.i.toNat) s.work.acc) n = _
  rw [Memory.read_write]
  by_cases hlast : n = 16 * s.work.j.toNat + s.work.i.toNat
  · rw [if_pos hlast, hacc, show n / 16 = s.work.j.toNat by omega, show n % 16 = s.work.i.toNat by omega]
  · rw [if_neg hlast]
    exact hbytes n (by omega)

/-- The loop at the next byte. -/
theorem State.nextByte_encodingAt {s : State} {j : BitVec 6} {i : BitVec 4} (h : s.EncodingAt) (hk : 8 ≤ s.work.k.toNat)
    (hj : j.toNat < 63) (hplace : 16 * j.toNat + i.toNat = 16 * s.work.j.toNat + s.work.i.toNat + 1) :
    (s.storeByte.nextByte j i).EncodingAt := by
  have hread := fun n => h.storeByte_read hk (n := n)
  obtain ⟨hcanvas, hframe, -, -, -, -⟩ := h
  refine ⟨hcanvas, hframe, hj, ?_, fun n hn => hread n ?_, fun k hk => ?_⟩
  · exact Nat.zero_le 8
  · exact hplace ▸ hn
  · exact absurd hk (Nat.not_lt_zero k)

/-- After the last byte the frame has every byte. -/
theorem State.EncodingAt.frameInv {s : State} (h : s.EncodingAt) (hk : 8 ≤ s.work.k.toNat) (hi : s.work.i.toNat = 15)
    (hj : 62 ≤ s.work.j.toNat) : s.storeByte.setFrameValid.FrameInv := by
  refine fun _ => ⟨h.1, fun n hn => ?_⟩
  show (Memory.read s.storeByte.frame n).isSome = true
  rw [h.storeByte_read hk (by omega)]
  rfl

theorem State.EncodingAt.vacuous_frameInv {s : State} (h : s.EncodingAt) : s.FrameInv := by
  obtain ⟨-, hframe, -⟩ := h
  exact fun hv => by rw [hframe] at hv; cases hv

/-! ### The chunk at OFF -/

theorem State.RangeAt.chunkAddress_toNat {s : State} {start : Half} {data : List Byte} (h : s.RangeAt start data) :
    (s.chunkAddress start).toNat = start.toNat + s.off.toNat := by
  obtain ⟨hr, -, hoff, -⟩ := h
  rw [State.chunkAddress, BitVec.toNat_ofNat, Nat.mod_eq_of_lt (by omega)]

theorem State.RangeAt.chunkBytes_eq {s : State} {start : Half} {data : List Byte} (h : s.RangeAt start data) :
    s.chunkBytes data = (data.drop s.off.toNat).take 255 := by
  obtain ⟨-, htotal, -, -⟩ := h
  rw [State.chunkBytes, htotal, ← List.length_drop, take_min_length]

theorem State.RangeAt.chunkBytes_length {s : State} {start : Half} {data : List Byte} (h : s.RangeAt start data) :
    (s.chunkBytes data).length = min 255 (data.length - s.off.toNat) := by
  rw [h.chunkBytes_eq, List.length_take, List.length_drop]

theorem State.RangeAt.advanceOff_toNat {s : State} {start : Half} {data : List Byte} (h : s.RangeAt start data) :
    s.advanceOff.off.toNat = s.off.toNat + min 255 (data.length - s.off.toNat) := by
  obtain ⟨hr, htotal, hoff, -⟩ := h
  rw [State.advanceOff_off, htotal, BitVec.toNat_ofNat, Nat.mod_eq_of_lt]
  show s.off.toNat + min 255 _ < _
  omega

/-- Past an accepted chunk OFF is at a chunk again, or at the end (42_transport R88). -/
theorem State.RangeAt.advanceOff {s : State} {start : Half} {data : List Byte} (h : s.RangeAt start data) :
    s.advanceOff.RangeAt start data := by
  have hnext := h.advanceOff_toNat
  obtain ⟨hr, htotal, hoff, hchunk⟩ := h
  refine ⟨hr, htotal, ?_, ?_⟩ <;> rw [hnext] <;> omega

theorem State.startRange_rangeAt {u : RangeUser} {s : State} {start : Half} {data : List Byte}
    (hr : start.toNat + data.length ≤ 1008) : (s.startRange u start data).RangeAt start data :=
  ⟨hr, rangeStart_total s (by omega), Nat.zero_le _, .inr rfl⟩

/-- What the position of a range's header says of every user of the range. -/
theorem Job.Inv.rangeAt {u : RangeUser} {start : Half} {data : List Byte} {s : State}
    (h : (Job.rangeHeader u start data).Inv s) : s.RangeAt start data := by
  cases u with
  | ticker k => exact h.1
  | _ => exact h

theorem Job.Inv.tickReady {k : Ticker} {start : Half} {data : List Byte} {s : State}
    (h : (Job.rangeHeader (.ticker k) start data).Inv s) : s.TickReady := h.2

/-- What the position of a range's payload says of every user of the range. -/
theorem Job.Inv.payloadAt {u : RangeUser} {start : Half} {data : List Byte} {s : State}
    (h : (Job.rangePayload u start data).Inv s) : s.RangeAt start data ∧ s.off.toNat < data.length ∧
      s.HeaderSent (start.toNat + s.off.toNat) (min 255 (data.length - s.off.toNat)) := by
  cases u with
  | ticker k => exact ⟨h.1, h.2.1, h.2.2.1⟩
  | _ => exact h

/-- The range's positions, from what they say of every user and, in a tick, of the tick. -/
theorem Job.Inv.of_rangeAt {u : RangeUser} {start : Half} {data : List Byte} {s : State} (h : s.RangeAt start data)
    (ht : ∀ k, u = .ticker k → s.TickReady) : (Job.rangeHeader u start data).Inv s := by
  cases u with
  | ticker k => exact ⟨h, ht k rfl⟩
  | _ => exact h

theorem Job.Inv.of_payloadAt {u : RangeUser} {start : Half} {data : List Byte} {s : State} (h : s.RangeAt start data)
    (ho : s.off.toNat < data.length)
    (hh : s.HeaderSent (start.toNat + s.off.toNat) (min 255 (data.length - s.off.toNat)))
    (ht : ∀ k, u = .ticker k → s.TickReady) : (Job.rangePayload u start data).Inv s := by
  cases u with
  | ticker k => exact ⟨h, ho, hh, ht k rfl⟩
  | _ => exact ⟨h, ho, hh⟩

/-! ### A transaction and its turn -/

/-- FRAME and its valid bits stay through a transaction. -/
theorem TransportKept.frameInv {s t : State} (h : TransportKept s t) (hf : s.FrameInv) : t.FrameInv := by
  unfold State.FrameInv
  rwa [h.frame, h.status]

theorem TransportKept.tickReady {s t : State} (h : TransportKept s t) (ht : s.TickReady) : t.TickReady := by
  unfold State.TickReady
  rwa [h.status]

theorem Transaction.resultInv {b : List Byte} {s : State} {p : Progress} (h : Transaction b s p) (hr : s.ResultInv) :
    p.state.ResultInv := by
  unfold State.ResultInv
  rwa [h.result, h.kept.status]

/-- A transaction's turn keeps the invariant if the way on does. -/
theorem Transaction.turn_controlInv {b : List Byte} {s : State} {p : Progress} {release goOn : State → State}
    (h : Transaction b s p) (hrel : ReleasesWork release) (hf : s.FrameInv)
    (hgo : ∀ u, p = .done u → (goOn u).ControlInv) : (p.turn release goOn).ControlInv := by
  have hfp := h.kept.frameInv hf
  cases p with
  | done u => exact hgo u rfl
  | failed e u =>
    obtain ⟨w, d, hw⟩ := hrel u
    show ((release u).raiseTransportError e).ControlInv
    rw [hw]
    exact State.raiseTransportError_controlInv e hfp
  | reset u => exact u.assertReset_controlInv

/-- Accepted, the bytes are the last entry of TX. -/
theorem Transaction.tx_done {b : List Byte} {s u : State} (h : Transaction b s (.done u)) : u.tx = s.tx ++ [sentOk b] := by
  have htx := h.tx
  rw [show s.eventAt 0 = .ok from h.event] at htx
  exact htx

theorem Transaction.headerSent {a n : Nat} {s u : State} (h : Transaction (packetHeader a n) s (.done u)) :
    u.HeaderSent a n := by
  rw [State.HeaderSent, h.tx_done, List.getLast?_concat]

/-! ### One step of the work -/

theorem packetHeader_controlInv {s : State} (hr : s.ResultInv) (hf : s.FrameInv) {a : Half} {p : List Byte}
    (hi : (Job.packetHeader a p).Inv s) :
    (s.packetHeaderTurn a p).ControlInv := by
  have htrans := sendHeader_transaction a p.length s
  refine htrans.turn_controlInv releasePacket_releasesWork hf fun u hu => ?_
  rw [hu] at htrans
  obtain ⟨h1, h2, h3⟩ := hi
  exact .of_exec (s := u.goTo _) rfl (htrans.resultInv hr) (htrans.kept.frameInv hf) ⟨h1, h2, h3, htrans.headerSent⟩

theorem packetPayload_controlInv {s : State} (hf : s.FrameInv) {a : Half} {p : List Byte} :
    (s.packetPayloadTurn a p).ControlInv := by
  have htrans := sendPayload_transaction a p s
  refine htrans.turn_controlInv releasePacket_releasesWork hf fun u hu => ?_
  rw [hu] at htrans
  exact .of_idle rfl (.inl rfl) (htrans.kept.frameInv hf)

theorem rangeHeader_controlInv {s : State} (hr : s.ResultInv) (hf : s.FrameInv) {u : RangeUser} {start : Half} {data : List Byte}
    (hi : (Job.rangeHeader u start data).Inv s) : (s.rangeHeaderTurn u start data).ControlInv := by
  have hat := hi.rangeAt
  have htick : ∀ k, u = .ticker k → s.TickReady := fun k hk => by subst hk; exact hi.tickReady
  unfold State.rangeHeaderTurn
  split
  case isTrue hlt =>
    rw [hat.2.1] at hlt
    have htrans := sendHeader_transaction (s.chunkAddress start) (s.chunkBytes data).length s
    refine htrans.turn_controlInv u.release_releasesWork hf fun v hv => ?_
    rw [hv] at htrans
    have hoff : v.off = s.off := htrans.off
    have hsent := htrans.headerSent
    rw [hat.chunkAddress_toNat, hat.chunkBytes_length] at hsent
    refine .of_exec (s := v.goTo _) rfl (htrans.resultInv hr) (htrans.kept.frameInv hf)
      (Job.Inv.of_payloadAt ?_ ?_ ?_ fun k hk => htrans.kept.tickReady (htick k hk))
    · obtain ⟨hr, htotal, hrest⟩ := hat
      refine ⟨hr, (congrArg BitVec.toNat htrans.total).trans htotal, ?_⟩
      rw [State.goTo_off, hoff]
      exact hrest
    · rw [State.goTo_off, hoff]
      exact hlt
    · rw [State.goTo_off, hoff]
      exact hsent
  case isFalse =>
    cases u with
    | ticker k => exact .of_exec (s := s.succeed.goTo _) rfl (.inl rfl) hf (htick k rfl)
    | _ => exact .of_idle rfl (.inl rfl) hf

theorem rangePayload_controlInv {s : State} (hf : s.FrameInv) {u : RangeUser} {start : Half} {data : List Byte}
    (hi : (Job.rangePayload u start data).Inv s) : (s.rangePayloadTurn u start data).ControlInv := by
  obtain ⟨hat, -, -⟩ := hi.payloadAt
  have htick : ∀ k, u = .ticker k → s.TickReady := fun k hk => by
    subst hk
    obtain ⟨-, -, -, h⟩ := hi
    exact h
  have htrans := sendPayload_transaction (s.chunkAddress start) (s.chunkBytes data) s
  refine htrans.turn_controlInv u.release_releasesWork hf fun v hv => ?_
  rw [hv] at htrans
  have hatv : v.succeed.RangeAt start data := by
    obtain ⟨hr, htotal, hrest⟩ := hat
    refine ⟨hr, (congrArg BitVec.toNat htrans.total).trans htotal, ?_⟩
    rw [State.succeed_off, show v.off = s.off from htrans.off]
    exact hrest
  exact .of_exec (s := v.succeed.advanceOff.goTo _) rfl (.inl rfl) (htrans.kept.frameInv hf)
    (Job.Inv.of_rangeAt hatv.advanceOff fun k hk => htrans.kept.tickReady (htick k hk))

theorem startFrame_controlInv {s t : State} (hr : s.ResultInv) (hf : s.FrameInv) {u : RangeUser}
    (ht : ∀ k, u = .ticker k → s.TickReady) (h : s.startFrame u = .next t) :
    t.ControlInv := by
  obtain ⟨data, hl, -, rfl⟩ := State.startFrame_inv h
  exact .of_exec (s := s.startRange u 0#16 data) rfl hr hf
    (Job.Inv.of_rangeAt (State.startRange_rangeAt (by rw [hl]; decide)) ht)

theorem encoding_controlInv {s : State} (hr : s.ResultInv) {u : EncodeUser} (hi : (Job.encoding u).Inv s)
    (hs : s.seq = .exec (.encoding u)) :
    (s.encodeTurn u).ControlInv := by
  have hat := hi.encodingAt
  have hloop : ∀ v : State, v.EncodingAt → v.seq = s.seq → v.result = s.result → v.status = s.status → v.ControlInv := by
    intro v hv hseq hresult hstatus
    refine .of_exec (hseq.trans hs) ?_ hv.vacuous_frameInv ?_
    · unfold State.ResultInv
      rwa [hresult, hstatus]
    · cases u with
      | encode => exact hv
      | ticker k => exact ⟨hv, hstatus ▸ hi.2⟩
  have hilt := s.work.i.isLt
  rcases s.encodeTurn_cases u with ⟨hk, h⟩ | ⟨hk, hi15, h⟩ | ⟨hk, hi15, hj, h⟩ | ⟨hk, hi15, hj, h⟩ <;> rw [h]
  · exact hloop _ (State.packPixel_encodingAt hat hk) rfl rfl rfl
  · have hnext : (s.work.i + 1#4).toNat = s.work.i.toNat + 1 := by
      rw [BitVec.toNat_add]
      show (s.work.i.toNat + 1) % 16 = _
      omega
    exact hloop _ (State.nextByte_encodingAt hat hk hat.2.2.1 (by omega)) rfl rfl rfl
  · have hnext : (s.work.j + 1#6).toNat = s.work.j.toNat + 1 := by
      rw [BitVec.toNat_add]
      show (s.work.j.toNat + 1) % 64 = _
      omega
    exact hloop _ (State.nextByte_encodingAt hat hk (by omega) (by
      show 16 * (s.work.j + 1#6).toNat + 0 = _
      omega)) rfl rfl rfl
  · have hframe := hat.frameInv hk hi15 hj
    cases u with
    | encode => exact .of_idle rfl (.inl rfl) hframe
    | ticker k =>
      exact .of_exec (s := State.goTo _ _) rfl (.inl rfl) hframe ⟨hi.2, hat.1, rfl⟩

theorem startWork_controlInv {s t : State} (hr : s.ResultInv) (hf : s.FrameInv) {i : Instr}
    (hi : (Job.issued i).Inv s) (hs : s.seq = .exec (.issued i))
    (h : startWork i s = .next t) : t.ControlInv := by
  obtain ⟨hcommand, hrefusal⟩ := hi
  cases i with
  | canvasNew =>
    cases h
    exact .of_idle rfl (.inl rfl) fun hv => ⟨rfl, (hf hv).2⟩
  | setPixel x y v =>
    obtain ⟨-, -, -, rfl⟩ := exec_setPixel_inv h
    exact .of_idle rfl (.inl rfl) hf
  | drawCircle cx cy d =>
    obtain ⟨-, rfl⟩ := exec_drawCircle_inv h
    exact .of_idle rfl (.inl rfl) hf
  | encode =>
    cases h
    have hat := State.startEncoding_encodingAt (u := .encode) (canvasRefusal_eq_none.1 hrefusal)
    exact .of_exec (j := .encoding .encode) rfl hr hat.vacuous_frameInv hat
  | writePacket a p =>
    rcases startWork_writePacket_inv h with ⟨-, rfl⟩ | ⟨hlen, rfl⟩
    · exact ⟨.inr (.inr rfl), ⟨fun _ => rfl, fun _ => rfl⟩, fun hcode => (by cases hcode), trivial, hf⟩
    · rw [refusalOf, if_neg (show ¬ p.length > 255 by omega)] at hrefusal
      obtain ⟨h1, hrange⟩ := packetRefusal_eq_none.1 hrefusal
      exact .of_exec (s := s.goTo _) rfl hr hf ⟨h1, hlen, hrange⟩
  | sendRange a data =>
    cases h
    exact .of_exec (s := s.startRange _ a data) rfl hr hf
      (Job.Inv.of_rangeAt (State.startRange_rangeAt (rangeRefusal_eq_none.1 hrefusal)) (by simp))
  | fill v =>
    obtain ⟨data, hdata, rfl⟩ := startWork_fill_inv h
    refine .of_exec (s := (fillStart v s).startRange _ 0#16 data) rfl hr hf
      (Job.Inv.of_rangeAt (State.startRange_rangeAt ?_) (by simp))
    rw [hdata, List.length_replicate]
    decide
  | sendFrame => exact startFrame_controlInv hr hf (by simp) h
  | animInit =>
    cases h
    exact .of_idle rfl (.inl rfl) hf
  | tick =>
    cases h
    exact .of_exec (s := s.tickDrawn.goTo _) rfl (.inl rfl) (fun hv => ⟨rfl, (hf hv).2⟩)
      ⟨tickRefusal_eq_none.1 hrefusal, rfl⟩
  | run =>
    cases h
    exact .of_exec (s := s.tickDrawn.goTo _) rfl (.inl rfl) (fun hv => ⟨rfl, (hf hv).2⟩)
      ⟨tickRefusal_eq_none.1 hrefusal, rfl⟩
  | wirePacket a p => cases hcommand
  | reserved opcode => cases hcommand

theorem workOn_controlInv {s t : State} (hr : s.ResultInv) (hf : s.FrameInv) {j : Job} (hj : j.Inv s)
    (hs : s.seq = .exec j) (h : workOn j s = .next t) : t.ControlInv := by
  cases j with
  | issued i => exact startWork_controlInv hr hf hj hs h
  | encodeNext k =>
    cases h
    obtain ⟨hanim, hcanvas⟩ := hj
    have hat := State.startEncoding_encodingAt (u := .ticker k) hcanvas
    exact .of_exec (j := .encoding (.ticker k)) rfl hr hat.vacuous_frameInv ⟨hat, hanim⟩
  | encoding u => cases h; exact encoding_controlInv hr hj hs
  | sendNext k => exact startFrame_controlInv hr hf (fun _ _ => hj) h
  | packetHeader a p => cases h; exact packetHeader_controlInv hr hf hj
  | packetPayload a p => cases h; exact packetPayload_controlInv hf
  | rangeHeader u a data => cases h; exact rangeHeader_controlInv hr hf hj
  | rangePayload u a data => cases h; exact rangePayload_controlInv hf hj
  | advance k => cases h; exact .of_exec (s := State.goTo _ _) rfl hr hf hj
  | reverse k =>
    cases h
    cases k with
    | tick => exact .of_idle rfl (.inl rfl) hf
    | run => exact .of_exec (j := .issued .run) rfl (.inl rfl) hf ⟨rfl, tickRefusal_eq_none.2 hj.1⟩

/-! ### No fault -/

/-- With FRAME_VALID every byte that SEND_FRAME reads has a value (log 9). -/
theorem State.FrameInv.startFrame_ne_fault {s : State} {u : RangeUser} {f : Fault} (hf : s.FrameInv)
    (hv : s.status.frameValid = true) : s.startFrame u ≠ .fault f := by
  obtain ⟨data, hl, hd⟩ := Memory.exists_bytes (hf hv).2
  rw [State.startFrame_eq hl hd]
  simp

theorem workOn_ne_fault {j : Job} {s : State} {f : Fault} (hf : s.FrameInv) (hj : j.Inv s) : workOn j s ≠ .fault f := by
  cases j with
  | issued i =>
    obtain ⟨hcommand, hrefusal⟩ := hj
    cases i with
    | setPixel x y v =>
      obtain ⟨hv, hx, hy⟩ := pixelRefusal_eq_none.1 hrefusal
      show exec (.setPixel x y v) s ≠ .fault f
      rw [exec_setPixel v hv hx hy]
      simp
    | drawCircle cx cy d =>
      show exec (.drawCircle cx cy d) s ≠ .fault f
      rw [exec_drawCircle cx cy d (canvasRefusal_eq_none.1 hrefusal)]
      simp
    | writePacket a p =>
      show startWork (.writePacket a p) s ≠ .fault f
      rw [startWork]
      split <;> simp
    | sendFrame => exact hf.startFrame_ne_fault (frameRefusal_eq_none.1 hrefusal)
    | wirePacket a p => cases hcommand
    | reserved opcode => cases hcommand
    | _ => exact fun h => by cases h
  | sendNext k => exact hf.startFrame_ne_fault hj.2.2
  | _ => exact fun h => by cases h

/-- A step faults only in the work of a command. -/
theorem step_fault {s : State} {f : Fault} (h : step s = .fault f) :
    ∃ j u, s.seq = .exec j ∧ (u = s ∨ u = s.dropMove) ∧ workOn j u = .fault f := by
  have haccept : ∀ (i : Instr) (u : State), acceptCommand i u ≠ .fault f := fun i u => by
    unfold acceptCommand
    cases refusalOf i u <;> simp
  rw [step] at h
  unfold fetch readDescriptor at h
  cases hm : s.hostMoves with
  | nil =>
    cases hs : s.seq with
    | exec j => rw [hm, hs] at h; exact ⟨j, s, rfl, .inl rfl, h⟩
    | idle => rw [hm, hs] at h; cases h
    | halt => rw [hm, hs] at h; cases h
  | cons m moves =>
    cases m with
    | reset => rw [hm] at h; cases h
    | observe =>
      cases hs : s.seq with
      | exec j => rw [hm, hs] at h; exact ⟨j, _, rfl, .inr rfl, h⟩
      | idle => rw [hm, hs] at h; cases h
      | halt => rw [hm, hs] at h; cases h
    | issue d =>
      cases hs : s.seq with
      | exec j => rw [hm, hs] at h; exact ⟨j, s, rfl, .inl rfl, h⟩
      | idle =>
        rw [hm, hs] at h
        cases hd : decodeDescriptor d with
        | ok i => simp only [hd] at h; exact absurd h (haccept i _)
        | error e => simp only [hd] at h; cases h
      | halt => rw [hm, hs] at h; cases h

/-- What a presented descriptor decodes to is a command where it is not refused (30_encoding R63). -/
theorem isCommand_of_accepted {d : List Byte} {i : Instr} {s : State} (hd : decodeDescriptor d = .ok i)
    (hr : refusalOf i s = none) : i.isCommand = true := by
  rcases isCommand_of_decodeDescriptor hd with h | ⟨op, rfl⟩
  · exact h
  · cases hr

/-- Settles O53: each step of the work hands the next what its position says, so that no frame is sent that lacks a
byte. -/
theorem stepKeepsControlInv : Obligations.StepKeepsControlInv := by
  refine ⟨fun s t hi h => ?_, fun s f hi h => ?_⟩
  · rcases step_cases h with ⟨moves, -, rfl⟩ | ⟨-, rfl | rfl⟩ | ⟨d, moves, i, hs, -, hd, hrefusal, rfl⟩ |
      ⟨j, u, hs, hu, hwork⟩
    · exact State.assertReset_controlInv _
    · exact hi
    · exact hi.dropMove
    · exact .of_exec (s := s.dropMove.goTo _) rfl (hi.result_of_ne_halt (by rw [hs]; simp)) hi.frameInv
        ⟨isCommand_of_accepted hd hrefusal, by cases i <;> exact hrefusal⟩
    · have hui : u.ControlInv := by
        rcases hu with rfl | rfl
        · exact hi
        · exact hi.dropMove
      have hus : u.seq = .exec j := by
        rcases hu with rfl | rfl
        · exact hs
        · exact hs
      exact workOn_controlInv (hui.result_of_ne_halt (by rw [hus]; simp)) hui.frameInv (hui.positionInv.job hus) hus hwork
  · obtain ⟨j, u, hs, rfl | rfl, hwork⟩ := step_fault h
    · exact workOn_ne_fault hi.frameInv (hi.positionInv.job hs) hwork
    · exact workOn_ne_fault hi.dropMove.frameInv (hi.positionInv.job hs).dropMove hwork

end Sys2Proof.Machine

/-! # What a step and a command put on the channel (20_memory R47, 42_transport R96, 60_exceptions R118) -/

namespace Sys2Proof.Machine

/-! ### The channel's side of the state -/

/-- Nothing happened on the channel between `s` and `t`. -/
structure ChannelKept (s t : State) : Prop where
  tx : t.tx = s.tx
  dev : t.dev = s.dev
  devSynced : t.devSynced = s.devSynced
  events : t.events = s.events
  writes : t.writes = s.writes

theorem ChannelKept.lost {s t u : State} (h : Lost s t) (g : ChannelKept t u) : Lost s u := by
  refine ⟨g.devSynced.trans h.synced, ?_⟩
  rw [g.tx, g.dev]
  exact h.dev

theorem ChannelKept.lost_of_unsynced {s t : State} (g : ChannelKept s t) (h : s.devSynced = false) : Lost s t :=
  g.lost (Lost.refl h)

/-- Of a lost device no byte is known once anything was put on the channel. -/
theorem Lost.unknown {s t : State} (h : Lost s t) :
    t.devSynced = false ∧ (t.tx ≠ s.tx → ∀ x, Memory.read t.dev x = none) := by
  refine ⟨h.synced, fun htx x => ?_⟩
  rcases h.dev with ⟨hsame, -⟩ | hnil
  · exact absurd hsame htx
  · rw [hnil, Memory.read_nil]

theorem ReleasesWork.channelKept {release : State → State} (h : ReleasesWork release) (s : State) :
    ChannelKept s (release s) := by
  obtain ⟨w, d, hw⟩ := h s
  rw [hw]
  exact ⟨rfl, rfl, rfl, rfl, rfl⟩

theorem ReleasesWork.status {release : State → State} (h : ReleasesWork release) (s : State) :
    (release s).status = s.status := by
  obtain ⟨w, d, hw⟩ := h s
  rw [hw]

theorem MovesOn.channelKept {s t : State} (h : MovesOn s t) : ChannelKept s t := by
  obtain ⟨w, d, o, r, q, rfl, -⟩ := h
  exact ⟨rfl, rfl, rfl, rfl, rfl⟩

theorem MovesOn.status {s t : State} (h : MovesOn s t) : t.status = s.status := by
  obtain ⟨w, d, o, r, q, rfl, -⟩ := h
  rfl

/-- What follows a transaction in its step leaves the channel alone. -/
theorem TurnEnds.channelKept {release : State → State} {p : Progress} {t : State} (hrel : ReleasesWork release)
    (h : TurnEnds release p t) : ChannelKept p.state t := by
  rcases h with ⟨u, rfl, h⟩ | ⟨e, u, rfl, rfl⟩ | ⟨u, rfl, rfl⟩
  · exact h.channelKept
  · obtain ⟨htx, hdev, hsynced, hevents, hwrites⟩ := hrel.channelKept u
    exact ⟨htx, hdev, hsynced, hevents, hwrites⟩
  · exact ⟨rfl, rfl, rfl, rfl, rfl⟩

/-! ### Steps with no transaction -/

/-- The first step of a command puts nothing on the channel and leaves TERR. -/
theorem startWork_quiet {i : Instr} {s t : State} (h : startWork i s = .next t) (hi : ∀ a p, i ≠ .wirePacket a p) :
    ChannelKept s t ∧ t.status.terr = s.status.terr := by
  cases i with
  | canvasNew => cases h; exact ⟨⟨rfl, rfl, rfl, rfl, rfl⟩, rfl⟩
  | setPixel x y v => obtain ⟨-, -, -, rfl⟩ := exec_setPixel_inv h; exact ⟨⟨rfl, rfl, rfl, rfl, rfl⟩, rfl⟩
  | drawCircle cx cy d => obtain ⟨-, rfl⟩ := exec_drawCircle_inv h; exact ⟨⟨rfl, rfl, rfl, rfl, rfl⟩, rfl⟩
  | encode => cases h; exact ⟨⟨rfl, rfl, rfl, rfl, rfl⟩, rfl⟩
  | writePacket a p =>
    rcases startWork_writePacket_inv h with ⟨-, rfl⟩ | ⟨-, rfl⟩ <;> exact ⟨⟨rfl, rfl, rfl, rfl, rfl⟩, rfl⟩
  | sendRange a data => cases h; exact ⟨⟨rfl, rfl, rfl, rfl, rfl⟩, rfl⟩
  | fill v => obtain ⟨data, -, rfl⟩ := startWork_fill_inv h; exact ⟨⟨rfl, rfl, rfl, rfl, rfl⟩, rfl⟩
  | sendFrame => obtain ⟨data, -, -, rfl⟩ := State.startFrame_inv h; exact ⟨⟨rfl, rfl, rfl, rfl, rfl⟩, rfl⟩
  | animInit => cases h; exact ⟨⟨rfl, rfl, rfl, rfl, rfl⟩, rfl⟩
  | tick => cases h; exact ⟨⟨rfl, rfl, rfl, rfl, rfl⟩, rfl⟩
  | run => cases h; exact ⟨⟨rfl, rfl, rfl, rfl, rfl⟩, rfl⟩
  | wirePacket a p => exact absurd rfl (hi a p)
  | reserved opcode => cases h

/-- A step outside the phases of a packet puts nothing on the channel and leaves TERR. -/
theorem workOn_quiet {j : Job} {s t : State} (h : workOn j s = .next t) (hj : j.phase = none)
    (hi : ∀ a p, j ≠ .issued (.wirePacket a p)) : ChannelKept s t ∧ t.status.terr = s.status.terr := by
  cases j with
  | issued i => exact startWork_quiet h fun a p he => hi a p (congrArg Job.issued he)
  | encodeNext k => cases h; exact ⟨⟨rfl, rfl, rfl, rfl, rfl⟩, rfl⟩
  | encoding u =>
    cases h
    rcases s.encodeTurn_cases u with ⟨-, h⟩ | ⟨-, -, h⟩ | ⟨-, -, -, h⟩ | ⟨-, -, -, h⟩ <;> rw [h]
    · exact ⟨⟨rfl, rfl, rfl, rfl, rfl⟩, rfl⟩
    · exact ⟨⟨rfl, rfl, rfl, rfl, rfl⟩, rfl⟩
    · exact ⟨⟨rfl, rfl, rfl, rfl, rfl⟩, rfl⟩
    · cases u <;> exact ⟨⟨rfl, rfl, rfl, rfl, rfl⟩, rfl⟩
  | sendNext k => obtain ⟨data, -, -, rfl⟩ := State.startFrame_inv h; exact ⟨⟨rfl, rfl, rfl, rfl, rfl⟩, rfl⟩
  | packetHeader a p => cases hj
  | packetPayload a p => cases hj
  | rangeHeader u a data => cases hj
  | rangePayload u a data => cases hj
  | advance k => cases h; exact ⟨⟨rfl, rfl, rfl, rfl, rfl⟩, rfl⟩
  | reverse k => cases h; cases k <;> exact ⟨⟨rfl, rfl, rfl, rfl, rfl⟩, rfl⟩

/-! ### The channel writes of a whole command -/

/-- What the channel writes of a command, at most `n` of them, do in all, whatever the channel answers. -/
structure ChannelWork (n : Nat) (s : State) (p : Progress) : Prop where
  trace : ∃ new, p.state.tx = s.tx ++ new ∧ GoodTrace p.wasReset new
  resetFree : s.resetFree n → p.wasReset = false
  lost : s.devSynced = false → Lost s p.state
  terr : p.state.status.terr = s.status.terr

theorem emitPacket_channelWork {a : Half} {p : List Byte} (s : State) (h1 : 1 ≤ p.length) (h2 : p.length ≤ 255)
    (hr : a.toNat + p.length ≤ 1008) : ChannelWork 2 s (emitPacket a p s) where
  trace := by
    obtain ⟨new, htx, hgood, -⟩ := emitPacket_trace a p s h1 h2 hr
    exact ⟨new, htx, hgood⟩
  resetFree hfree := by
    rcases emitPacket_resetFree a p hfree with ⟨t, h, -⟩ | ⟨e, t, h⟩ <;> rw [h] <;> rfl
  lost h := emitPacket_lost h a p
  terr := congrArg Status.terr (emitPacket_kept a p s).1.status

theorem sendRangeFrom_channelWork {start : Half} {data : List Byte} (s : State)
    (hr : start.toNat + data.length ≤ 1008) :
    ChannelWork (2 * chunkCount data.length) s (sendRangeFrom start data s) where
  trace := sendRangeFrom_trace s hr
  resetFree hfree := by
    rcases sendRangeFrom_resetFree start data hfree with ⟨t, h⟩ | ⟨e, t, h⟩ <;> rw [h] <;> rfl
  lost h := by
    obtain ⟨hsynced, hdev⟩ := sendLoop_lost (s := rangeStart data s) h (chunkCount data.length) start data
    exact ⟨hsynced, hdev⟩
  terr := congrArg Status.terr (sendRangeFrom_kept start data s).status

theorem State.tickWork_channelWork (s : State) : ChannelWork 8 s s.tickWork := by
  have hl := s.tickDrawn.canvas.encodedBytes_length
  obtain ⟨-, hfree, hlost, hterr⟩ := sendRangeFrom_channelWork (start := 0#16) (data := s.tickDrawn.canvas.encodedBytes)
    s.tickDrawn.encodeCanvas (by rw [hl]; decide)
  refine ⟨s.tickWork_trace, fun h => ?_, fun h => ?_, ?_⟩
  · rcases State.tickWork_resetFree h with ⟨u, hu, -⟩ | ⟨e, u, hu, -⟩ <;> rw [hu] <;> rfl
  · have hsend := hlost h
    unfold State.tickWork
    generalize sendRangeFrom 0#16 _ _ = p at hsend
    cases p <;> exact ⟨hsend.synced, hsend.dev⟩
  · unfold State.tickWork
    generalize sendRangeFrom 0#16 _ _ = p at hterr
    cases p <;> exact hterr

/-- The end of a command's channel writes: nothing more on the channel, and TERR stays set but for RESET. -/
structure Ended (p : Progress) (t : State) : Prop where
  channel : ChannelKept p.state t
  terr : p.wasReset = false → p.state.status.terr = true → t.status.terr = true

theorem Progress.finish_ended {release : State → State} (h : ReleasesWork release) (p : Progress) :
    Ended p (p.finish release) := by
  cases p with
  | done u =>
    obtain ⟨htx, hdev, hsynced, hevents, hwrites⟩ := h.channelKept u
    exact ⟨⟨htx, hdev, hsynced, hevents, hwrites⟩, fun _ ht => (congrArg Status.terr (h.status u)).trans ht⟩
  | failed e u =>
    obtain ⟨htx, hdev, hsynced, hevents, hwrites⟩ := h.channelKept u
    exact ⟨⟨htx, hdev, hsynced, hevents, hwrites⟩, fun _ _ => rfl⟩
  | reset u => exact ⟨⟨rfl, rfl, rfl, rfl, rfl⟩, fun h => by cases h⟩

/-- A turn of RUN differs from a command's end in RESULT and SEQ alone. -/
theorem Progress.finishTurn_ended {release : State → State} (h : ReleasesWork release) (p : Progress) :
    Ended p (p.finishTurn release) := by
  obtain ⟨⟨htx, hdev, hsynced, hevents, hwrites⟩, hterr⟩ := p.finish_ended h
  cases p <;> exact ⟨⟨htx, hdev, hsynced, hevents, hwrites⟩, hterr⟩

/-- A wire packet differs from a command's end in RESULT and SEQ alone. -/
theorem endOfPacket_ended (p : Progress) : Ended p (endOfPacket p) := by
  obtain ⟨⟨htx, hdev, hsynced, hevents, hwrites⟩, hterr⟩ := p.finish_ended releasePacket_releasesWork
  cases p <;> exact ⟨⟨htx, hdev, hsynced, hevents, hwrites⟩, hterr⟩

/-- FILL's next state is the end of a range of its copies (42_transport R93). -/
theorem exec_fill_inv {v : Byte} {s t : State} (h : exec (.fill v) s = .next t) :
    ∃ data, data = List.replicate 1008 v ∧ t = (sendRangeFrom 0#16 data (fillStart v s)).finish State.releaseFill :=
  ⟨_, rfl, (Host.Outcome.next.inj ((exec_fill v s).symm.trans h)).symm⟩

/-- A command puts nothing on the channel and leaves TERR, or it ends its channel writes. -/
theorem exec_channel {i : Instr} {s t : State} (h : exec i s = .next t) :
    (ChannelKept s t ∧ t.status.terr = s.status.terr) ∨ ∃ p, ChannelWork (mostWrites i) s p ∧ Ended p t := by
  cases i with
  | canvasNew => cases h; exact .inl ⟨⟨rfl, rfl, rfl, rfl, rfl⟩, rfl⟩
  | setPixel x y v => obtain ⟨-, -, -, rfl⟩ := exec_setPixel_inv h; exact .inl ⟨⟨rfl, rfl, rfl, rfl, rfl⟩, rfl⟩
  | drawCircle cx cy d => obtain ⟨-, rfl⟩ := exec_drawCircle_inv h; exact .inl ⟨⟨rfl, rfl, rfl, rfl, rfl⟩, rfl⟩
  | encode => obtain ⟨-, rfl⟩ := exec_encode_inv h; exact .inl ⟨⟨rfl, rfl, rfl, rfl, rfl⟩, rfl⟩
  | writePacket a p =>
    rcases exec_writePacket_inv h with ⟨-, rfl⟩ | ⟨h1, h2, hr, rfl⟩
    · exact .inl ⟨⟨rfl, rfl, rfl, rfl, rfl⟩, rfl⟩
    · exact .inr ⟨_, emitPacket_channelWork s h1 h2 hr, Progress.finish_ended releasePacket_releasesWork _⟩
  | sendRange a data =>
    obtain ⟨hr, rfl⟩ := exec_sendRange_inv h
    exact .inr ⟨_, sendRangeFrom_channelWork s hr, Progress.finish_ended releaseRange_releasesWork _⟩
  | fill v =>
    obtain ⟨data, hdata, rfl⟩ := exec_fill_inv h
    have hl : data.length = 1008 := hdata ▸ List.length_replicate
    obtain ⟨htrace, hfree, hlost, hterr⟩ := sendRangeFrom_channelWork (start := 0#16) (data := data) (fillStart v s)
      (by rw [hl]; decide)
    rw [hl] at hfree
    exact .inr ⟨_, ⟨htrace, hfree, fun hs => ⟨(hlost hs).synced, (hlost hs).dev⟩, hterr⟩,
      Progress.finish_ended releaseFill_releasesWork _⟩
  | sendFrame =>
    obtain ⟨-, data, hl, -, rfl⟩ := exec_sendFrame_inv h
    have hwork := sendRangeFrom_channelWork (start := 0#16) (data := data) s (by rw [hl]; decide)
    rw [hl] at hwork
    exact .inr ⟨_, hwork, Progress.finish_ended releaseRange_releasesWork _⟩
  | animInit => cases h; exact .inl ⟨⟨rfl, rfl, rfl, rfl, rfl⟩, rfl⟩
  | tick =>
    obtain ⟨-, rfl⟩ := exec_tick_inv h
    exact .inr ⟨_, s.tickWork_channelWork, Progress.finish_ended releaseTick_releasesWork _⟩
  | run =>
    obtain ⟨-, rfl⟩ := exec_run_inv h
    exact .inr ⟨_, s.tickWork_channelWork, Progress.finishTurn_ended releaseTick_releasesWork _⟩
  | wirePacket a p =>
    obtain ⟨h1, h2, hr, rfl⟩ := exec_wirePacket_inv h
    exact .inr ⟨_, emitPacket_channelWork s h1 h2 hr, endOfPacket_ended _⟩
  | reserved opcode => cases h

/-- A command keeps a lost device lost. -/
theorem exec_lost {i : Instr} {s t : State} (hs : s.devSynced = false) (h : exec i s = .next t) : Lost s t := by
  rcases exec_channel h with ⟨hkept, -⟩ | ⟨p, hwork, hended⟩
  · exact hkept.lost_of_unsynced hs
  · exact hended.channel.lost (hwork.lost hs)

/-! ### What TX may gain -/

/-- A trace that is good where no RESET comes is good where one may come. -/
theorem isPacketTrace_of_uncut : ∀ {new : List TxEntry}, isPacketTrace false new = true → isPacketTrace true new = true
  | [], _ => rfl
  | [h], hnew => by
    simp only [isPacketTrace, Bool.and_eq_true] at hnew ⊢
    exact ⟨hnew.1, rfl⟩
  | h :: p :: rest, hnew => by
    simp only [isPacketTrace, Bool.and_eq_true, Bool.or_eq_true] at hnew ⊢
    exact ⟨hnew.1, hnew.2.imp id fun hrest => ⟨hrest.1, isPacketTrace_of_uncut hrest.2⟩⟩

/-- What a transaction that writes the bytes `b` logs is nothing, or one entry with those bytes. -/
theorem loggedBy_cases {b : List Byte} (h1 : 1 ≤ b.length) (h2 : b.length ≤ 255) (ev : Config.ChanEvent) :
    loggedBy b ev = [] ∨ ∃ e : TxEntry, loggedBy b ev = [e] ∧ e.bytes = b ∧ e.wf := by
  cases ev with
  | ok => exact .inr ⟨_, rfl, rfl, sentOk_wf h1 h2⟩
  | fail e d => exact .inr ⟨_, rfl, rfl, sentFail_wf e d h1 h2⟩
  | resetBefore => exact .inl rfl
  | resetDuring e d => exact .inr ⟨_, rfl, rfl, sentFail_wf e d h1 h2⟩

/-- What is written in the header phase is a header the block may emit (30_encoding R64). -/
theorem Job.Inv.nextBytes_header {j : Job} {s : State} (hj : j.Inv s) (hphase : j.phase = some .header)
    (ht : j.Transacts s) : isHeader (j.nextBytes s) = true ∧ (j.nextBytes s).length = 5 := by
  cases j with
  | packetHeader a p =>
    obtain ⟨h1, h2, hr⟩ := hj
    exact ⟨isHeader_packetHeader h1 h2 hr, rfl⟩
  | rangeHeader u start data =>
    have hat := hj.rangeAt
    have hlen := hat.chunkBytes_length
    have haddr := hat.chunkAddress_toNat
    obtain ⟨hr, htotal, hoff, -⟩ := hat
    have hlt : s.off.toNat < s.work.total.toNat := ht
    exact ⟨isHeader_packetHeader (by omega) (by omega) (by omega), rfl⟩
  | _ => cases hphase

/-- What is written in the payload phase has the length that the accepted header before it says (42_transport R83). -/
theorem Job.Inv.nextBytes_payload {j : Job} {s : State} (hj : j.Inv s) (hphase : j.phase = some .payload) :
    ∃ a, 1 ≤ (j.nextBytes s).length ∧ (j.nextBytes s).length ≤ 255 ∧ a + (j.nextBytes s).length ≤ 1008 ∧
      s.HeaderSent a (j.nextBytes s).length := by
  cases j with
  | packetPayload a p => exact ⟨a.toNat, hj⟩
  | rangePayload u start data =>
    obtain ⟨hat, hlt, hsent⟩ := hj.payloadAt
    have hlen : ((Job.rangePayload u start data).nextBytes s).length = min 255 (data.length - s.off.toNat) :=
      hat.chunkBytes_length
    obtain ⟨hr, -, -, -⟩ := hat
    rw [hlen]
    exact ⟨start.toNat + s.off.toNat, by omega, by omega, by omega, hsent⟩
  | _ => cases hphase

/-- A step of the work adds nothing to TX, or one entry in its packet's turn. -/
theorem workOn_tx {j : Job} {s t : State} (hj : j.Inv s) (h : workOn j s = .next t) :
    t.tx = s.tx ∨ ∃ e : TxEntry, t.tx = s.tx ++ [e] ∧ e.wf ∧
      ((j.phase = some .header ∧ isHeader e.bytes = true) ∨
        (j.phase = some .payload ∧ ∃ hd, s.tx.getLast? = some hd ∧ hd.outcome = .ok ∧ isHeader hd.bytes = true ∧
          e.bytes.length = (hd.bytes.getD 4 0#8).toNat)) := by
  rcases hphase : j.phase with _ | phase
  · refine .inl (workOn_quiet h hphase ?_).1.tx
    rintro a p rfl
    cases hj.1
  · rcases workOn_phase (by rw [hphase]; rfl) h with ⟨hmoves, -⟩ | ⟨p, release, ht, htrans, hrel, hends⟩
    · exact .inl hmoves.channelKept.tx
    · have htx : t.tx = s.tx ++ loggedBy (j.nextBytes s) (s.eventAt 0) := (hends.channelKept hrel).tx.trans htrans.tx
      cases phase with
      | header =>
        obtain ⟨hheader, hlen⟩ := hj.nextBytes_header hphase ht
        rcases loggedBy_cases (b := j.nextBytes s) (by omega) (by omega) (s.eventAt 0) with
          hlog | ⟨e, hlog, hbytes, hwf⟩ <;> rw [hlog] at htx
        · exact .inl (htx.trans (List.append_nil _))
        · exact .inr ⟨e, htx, hwf, .inl ⟨rfl, hbytes ▸ hheader⟩⟩
      | payload =>
        obtain ⟨a, h1, h2, hr, hsent⟩ := hj.nextBytes_payload hphase
        rcases loggedBy_cases h1 h2 (s.eventAt 0) with hlog | ⟨e, hlog, hbytes, hwf⟩ <;> rw [hlog] at htx
        · exact .inl (htx.trans (List.append_nil _))
        · refine .inr ⟨e, htx, hwf, .inr ⟨rfl, _, hsent, rfl, isHeader_packetHeader h1 h2 hr, ?_⟩⟩
          rw [hbytes]
          exact (packetHeader_len h2).symm

/-- A whole command adds a packet trace to TX, cut short only by a failed write or RESET. -/
theorem exec_trace {i : Instr} {s t : State} (h : exec i s = .next t) :
    ∃ new, t.tx = s.tx ++ new ∧ isPacketTrace true new = true ∧
      (s.resetFree (mostWrites i) → isPacketTrace false new = true) ∧ ∀ e ∈ new, e.wf := by
  rcases exec_channel h with ⟨hkept, -⟩ | ⟨p, hwork, hended⟩
  · exact ⟨[], by rw [hkept.tx, List.append_nil], rfl, fun _ => rfl, by simp⟩
  · obtain ⟨new, htx, hgood⟩ := hwork.trace
    refine ⟨new, hended.channel.tx.trans htx, ?_, fun hfree => ?_, hgood.wf⟩
    · have htrace := hgood.trace
      cases hreset : p.wasReset with
      | true => rwa [hreset] at htrace
      | false => rw [hreset] at htrace; exact isPacketTrace_of_uncut htrace
    · rw [← hwork.resetFree hfree]
      exact hgood.trace

/-- Settles O56: the position of the work says which bytes a transaction writes, and only transactions write TX. -/
theorem stepEmitsOnlyPackets : Obligations.StepEmitsOnlyPackets := by
  refine ⟨fun s t hi h => ?_, fun i s t h => exec_trace h⟩
  rcases step_cases h with ⟨moves, -, rfl⟩ | ⟨-, rfl | rfl⟩ | ⟨d, moves, i, -, -, -, -, rfl⟩ |
    ⟨j, u, hs, hu, hwork⟩
  · exact .inl (by simp [State.dropMove])
  · exact .inl rfl
  · exact .inl rfl
  · exact .inl rfl
  · have hj := hi.positionInv.job hs
    have hju : j.Inv u ∧ u.tx = s.tx := by
      rcases hu with rfl | rfl
      · exact ⟨hj, rfl⟩
      · exact ⟨hj.dropMove, rfl⟩
    obtain ⟨hju, hut⟩ := hju
    have htx := workOn_tx hju hwork
    rw [hut] at htx
    rcases htx with htx | ⟨e, htx, hwf, hturn⟩
    · exact .inl htx
    · exact .inr ⟨e, j, htx, hwf, hs, hturn⟩

/-! ### TERR (10_state R25) -/

/-- A packet that was cut off by RESET met it at one of the writes it made. -/
theorem emitPacket_reset_event {a : Half} {p : List Byte} {s u : State} (h : emitPacket a p s = .reset u) :
    ∃ k < u.writes - s.writes, isResetEvent (s.eventAt k) = true := by
  rcases emitPacket_cases a p s with ⟨e, d, -, hc⟩ | ⟨h0, hc⟩ | ⟨e, d, h0, hc⟩ | ⟨e, d, -, -, hc⟩ | ⟨-, h1, hc⟩ |
    ⟨e, d, -, h1, hc⟩ | ⟨-, -, hc⟩ <;> rw [h] at hc <;> cases hc
  · exact ⟨0, by simp, by rw [h0]; rfl⟩
  · exact ⟨0, by simp, by rw [h0]; rfl⟩
  · exact ⟨1, by simp [afterHeader]; omega, by rw [h1]; rfl⟩
  · exact ⟨1, by simp [afterHeader]; omega, by rw [h1]; rfl⟩

/-- A step of the work leaves TERR set, or met RESET at a write. -/
theorem workOn_terr {j : Job} {s t : State} (hs : s.status.terr = true) (h : workOn j s = .next t) :
    t.status.terr = true ∨ ∃ k < t.writes - s.writes, isResetEvent (s.eventAt k) = true := by
  rcases hphase : j.phase with _ | phase
  · by_cases hi : ∃ a p, j = .issued (.wirePacket a p)
    · obtain ⟨a, p, rfl⟩ := hi
      obtain ⟨-, -, -, rfl⟩ := exec_wirePacket_inv h
      have hterr := congrArg Status.terr (emitPacket_kept a p { s with seq := .idle }).1.status
      have hended := endOfPacket_ended (emitPacket a p { s with seq := .idle })
      rcases hp : emitPacket a p { s with seq := .idle } with u | ⟨e, u⟩ | u
      · exact .inl (hp ▸ hended.terr (by rw [hp]; rfl) (hterr.trans hs))
      · exact .inl (hp ▸ hended.terr (by rw [hp]; rfl) (hterr.trans hs))
      · exact .inr (emitPacket_reset_event (s := { s with seq := .idle }) (u := u) hp)
    · exact .inl ((workOn_quiet h hphase fun a p he => hi ⟨a, p, he⟩).2.trans hs)
  · rcases workOn_phase (by rw [hphase]; rfl) h with ⟨hmoves, -⟩ | ⟨p, release, -, htrans, hrel, hends⟩
    · exact .inl ((congrArg Status.terr hmoves.status).trans hs)
    · have hterr := (congrArg Status.terr htrans.kept.status).trans hs
      rcases hends with ⟨u, rfl, hmoves⟩ | ⟨e, u, rfl, rfl⟩ | ⟨u, rfl, rfl⟩
      · exact .inl ((congrArg Status.terr hmoves.status).trans hterr)
      · exact .inl rfl
      · refine .inr ⟨0, ?_, htrans.event⟩
        have hwrites : u.writes = s.writes + 1 := htrans.writes
        rw [State.assertReset_writes, hwrites]
        omega

/-- Settles O57: every end of a command but RESET's keeps TERR or sets it. -/
theorem onlyResetClearsTerr : Obligations.OnlyResetClearsTerr := by
  refine ⟨fun s t hs h => ?_, fun i s t hs h => ?_⟩
  · rcases step_cases h with ⟨moves, hm, -⟩ | ⟨-, rfl | rfl⟩ | ⟨d, moves, i, -, -, -, -, rfl⟩ |
      ⟨j, u, -, rfl | rfl, hwork⟩
    · exact .inr (.inl ⟨moves, hm⟩)
    · exact .inl hs
    · exact .inl hs
    · exact .inl hs
    · exact (workOn_terr hs hwork).imp id .inr
    · exact (workOn_terr (s := s.dropMove) hs hwork).imp id .inr
  · rcases exec_channel h with ⟨-, hterr⟩ | ⟨p, hwork, hended⟩
    · exact .inl (hterr.trans hs)
    · by_cases hfree : s.resetFree (mostWrites i)
      · exact .inl (hended.terr (hwork.resetFree hfree) (hwork.terr.trans hs))
      · unfold State.resetFree at hfree
        push Not at hfree
        obtain ⟨k, hk, hev⟩ := hfree
        exact .inr ⟨k, hk, by simpa using hev⟩

/-! ### Who touches the channel, and what becomes of a device cut off -/

/-- Settles O60: only a range of no bytes gets as far as the loop without a channel write. -/
theorem onlyTransportUsesTheChannel : Obligations.OnlyTransportUsesTheChannel := by
  have quiet : ∀ {s t : State}, ChannelKept s t →
      t.tx = s.tx ∧ t.events = s.events ∧ t.writes = s.writes ∧ ∀ x, Memory.read t.dev x = Memory.read s.dev x :=
    fun h => ⟨h.tx, h.events, h.writes, fun x => by rw [h.dev]⟩
  intro i s t hi h
  cases i with
  | canvasNew => cases h; exact quiet ⟨rfl, rfl, rfl, rfl, rfl⟩
  | setPixel x y v => obtain ⟨-, -, -, rfl⟩ := exec_setPixel_inv h; exact quiet ⟨rfl, rfl, rfl, rfl, rfl⟩
  | drawCircle cx cy d => obtain ⟨-, rfl⟩ := exec_drawCircle_inv h; exact quiet ⟨rfl, rfl, rfl, rfl, rfl⟩
  | encode => obtain ⟨-, rfl⟩ := exec_encode_inv h; exact quiet ⟨rfl, rfl, rfl, rfl, rfl⟩
  | animInit => cases h; exact quiet ⟨rfl, rfl, rfl, rfl, rfl⟩
  | sendRange a data =>
    have hempty : data = [] := by
      have hcount : 2 * ((data.length + 254) / 255) = 0 := hi
      exact List.length_eq_zero_iff.1 (by omega)
    subst hempty
    obtain ⟨-, rfl⟩ := exec_sendRange_inv h
    rw [sendRangeFrom_nil]
    exact quiet ⟨rfl, rfl, rfl, rfl, rfl⟩
  | writePacket a p => cases hi
  | fill v => cases hi
  | sendFrame => cases hi
  | tick => cases hi
  | run => cases hi
  | wirePacket a p => cases hi
  | reserved opcode => cases h

/-- A step of the work keeps a lost device lost. -/
theorem workOn_lost {j : Job} {s t : State} (hs : s.devSynced = false) (h : workOn j s = .next t) : Lost s t := by
  rcases hphase : j.phase with _ | phase
  · by_cases hi : ∃ a p, j = .issued (.wirePacket a p)
    · obtain ⟨a, p, rfl⟩ := hi
      have hlost := exec_lost (i := .wirePacket a p) (s := { s with seq := .idle }) hs h
      exact ⟨hlost.synced, hlost.dev⟩
    · exact (workOn_quiet h hphase fun a p he => hi ⟨a, p, he⟩).1.lost_of_unsynced hs
  · rcases workOn_phase (by rw [hphase]; rfl) h with ⟨hmoves, -⟩ | ⟨p, release, -, htrans, hrel, hends⟩
    · exact hmoves.channelKept.lost_of_unsynced hs
    · exact (hends.channelKept hrel).lost (htrans.lost hs)

theorem State.abandonPacket_lost {s : State} (hs : s.devSynced = false) : s.abandonPacket.devSynced = false := by
  rcases s.abandonPacket_cases with he | ⟨a, p, -, he⟩ | ⟨u, start, data, -, he⟩ <;> rw [he]
  · exact hs
  · exact State.devCut_synced _ _ _
  · exact State.devCut_synced _ _ _

theorem step_lost {s t : State} (hs : s.devSynced = false) (h : step s = .next t) :
    t.devSynced = false ∧ (t.tx ≠ s.tx → ∀ x, Memory.read t.dev x = none) := by
  rcases step_cases h with ⟨moves, -, rfl⟩ | ⟨-, rfl | rfl⟩ | ⟨d, moves, i, -, -, -, -, rfl⟩ |
    ⟨j, u, -, rfl | rfl, hwork⟩
  · exact ⟨State.abandonPacket_lost (s := s.dropMove) hs, fun htx => absurd (by simp [State.dropMove]) htx⟩
  · exact ⟨hs, fun htx => absurd rfl htx⟩
  · exact ⟨hs, fun htx => absurd rfl htx⟩
  · exact ⟨hs, fun htx => absurd rfl htx⟩
  · exact (workOn_lost hs hwork).unknown
  · exact (workOn_lost (s := s.dropMove) hs hwork).unknown

/-- Settles O36: the failed packet is cut on the device, which is followed no more; every later transaction forgets all of
it. -/
theorem failedRangeOnTheDevice : Obligations.FailedRangeOnTheDevice := by
  refine ⟨fun s a data k e n hr hk hok hs hf => ?_, fun s t hs h => step_lost hs h,
    fun i s t hs h => (exec_lost hs h).unknown⟩
  obtain ⟨last, t, ht, hfail⟩ : ∃ last t, sendRangeFrom a data s = .failed e t ∧ RangeFailed a.toNat data k last s t := by
    rcases hf with h0 | ⟨h0, h1⟩
    · exact ⟨_, sendRangeFrom_failed hr hk hok (.inl ⟨n, h0, rfl⟩)⟩
    · exact ⟨_, sendRangeFrom_failed hr hk hok (.inr ⟨n, h0, h1, rfl⟩)⟩
  refine ⟨_, exec_sendRange s hr, ?_⟩
  rw [ht, Progress.finish_failed]
  exact ⟨hfail.synced, hfail.dev hs⟩

end Sys2Proof.Machine

/-! # The step against the host's moves, and RESET (30_encoding R62, 70_reset_and_hazards R123 to R125) -/

namespace Sys2Proof.Machine

/-! ### STATUS -/

/-- The bits of STATUS (10_state R25). -/
theorem State.statusWord_bits (s : State) :
    s.statusWord.getLsbD 0 = s.busy ∧ s.statusWord.getLsbD 1 = s.status.terr ∧ s.statusWord.getLsbD 2 = s.fatal ∧
      s.statusWord.getLsbD 3 = s.status.canvasValid ∧ s.statusWord.getLsbD 4 = s.status.frameValid ∧
      s.statusWord.getLsbD 5 = s.status.animValid ∧ s.statusWord.getLsbD 6 = false ∧ s.statusWord.getLsbD 7 = false := by
  rw [State.statusWord]
  generalize s.status.animValid = a, s.status.frameValid = f, s.status.canvasValid = c, s.fatal = h, s.status.terr = r,
    s.busy = b
  revert a f c h r b
  decide

theorem State.busy_iff (s : State) : s.busy = true ↔ ∃ j, s.seq = .exec j := by
  rw [State.busy]
  cases s.seq <;> simp [Seq.executing]

/-- Settles O13: STATUS is the concatenation of its bits, and BUSY and FATAL are read off SEQ. -/
theorem statusLayout : Obligations.StatusLayout := by
  intro s
  obtain ⟨h0, h1, h2, h3, h4, h5, h6, h7⟩ := s.statusWord_bits
  exact ⟨by rw [h0, s.busy_iff], h1, h2, h3, h4, h5, h6, h7⟩

/-! ### The invariants at reset -/

/-- Settles O55: at reset the memories are empty, RESULT is 0, and no valid bit is set. -/
theorem resetMeetsInvariants : Obligations.ResetMeetsInvariants :=
  ⟨⟨Canvas.wf_nil, Memory.wf_nil _, Memory.wf_nil _⟩, State.ControlInv.of_idle rfl (.inl rfl) (fun h => by cases h),
    State.AnimInv.of_invalid rfl⟩

/-! ### Issue, work, and nothing -/

theorem State.dropMove_of_cons {s : State} {m : HostMove} {moves : List HostMove} (h : s.hostMoves = m :: moves) :
    s.dropMove = { s with hostMoves := moves } := by
  rw [State.dropMove, h, List.tail_cons]

/-- Settles O6: acceptance asks the refusals that the meaning asks, and then sets SEQ alone. -/
theorem stepRunsTheDescriptor : Obligations.StepRunsTheDescriptor := by
  intro s d moves i hs hm hd
  rw [step_issue hs hm hd, State.dropMove_of_cons hm]
  refine ⟨fun hexec => acceptCommand_eq_next.2 ⟨?_, rfl⟩,
    fun r hexec => acceptCommand_refused ((exec_refused_iff _ _ _).1 hexec)⟩
  rcases hr : refusalOf i { s with hostMoves := moves } with _ | r
  · rfl
  · exact absurd ((exec_refused_iff _ _ _).2 hr) (hexec r)

/-- Settles O7: in EXEC the host's only move that a step takes, short of RESET, is a look. -/
theorem stepContinuesTheWork : Obligations.StepContinuesTheWork := by
  refine ⟨fun s j hs hm => step_exec hs (.inl hm), fun s j d moves hs hm => step_exec hs (.inr ⟨d, moves, hm⟩),
    fun s j moves hs hm => ?_⟩
  rw [step_observe hs hm, State.dropMove_of_cons hm]

/-- Settles O9: in IDLE a step looks for a descriptor, in HALT for RESET, and otherwise passes over the host's move. -/
theorem nothingHappensUnasked : Obligations.NothingHappensUnasked := by
  refine ⟨fun s hs hm => ?_, fun s moves hs hm => ?_, fun s hs hm => step_halt hs hm⟩
  · rw [step, fetch, hm, hs]
  · rw [← State.dropMove_of_cons hm, step, fetch, hm, hs]

/-! ### RESET -/

theorem State.assertReset_statusWord (s : State) : s.assertReset.statusWord = 0x00#8 := by
  show State.reset.statusWord = 0x00#8
  decide

/-- What a packet abandoned between header and payload was, where the position fits the range. -/
theorem State.RangeAt.read_abandoned {s : State} {start : Half} {data : List Byte} {u : RangeUser}
    (hseq : s.seq = .exec (.rangePayload u start data)) (hs : s.devSynced = true) (h : s.RangeAt start data) (x : Nat) :
    Memory.read s.abandonPacket.dev x =
      if start.toNat + s.off.toNat ≤ x ∧ x < start.toNat + s.off.toNat + min 255 (data.length - s.off.toNat) then none
      else Memory.read s.dev x := by
  have haddr := h.chunkAddress_toNat
  have hlen := h.chunkBytes_length
  obtain ⟨hr, -, hoff, -⟩ := h
  rw [State.abandonPacket, hseq]
  simp only
  rw [State.read_devCut hs (by omega), haddr, hlen]

theorem State.abandonPacket_synced {s : State} {j : Job} (hs : s.seq = .exec j) (hj : j.phase = some .payload) :
    s.abandonPacket.devSynced = false := by
  rw [State.abandonPacket, hs]
  cases j with
  | packetPayload a p => exact State.devCut_synced _ _ _
  | rangePayload u a data => exact State.devCut_synced _ _ _
  | _ => cases hj

/-- Settles O10: RESET writes the block and not the channel, but that a packet between its header and its payload is cut. -/
theorem resetLeaves : Obligations.ResetLeaves := by
  refine ⟨fun s moves hm => ?_, rfl, by decide, rfl, rfl, rfl⟩
  have hdrop := State.dropMove_of_cons hm
  refine ⟨_, step_reset hm, rfl, State.assertReset_statusWord _, rfl, rfl, by simp [State.dropMove], ?_,
    by simp [State.dropMove],
    by simp [State.dropMove], fun hj => ?_, fun j hs hj => State.abandonPacket_synced (s := s.dropMove) hs hj,
    fun a p hs hsync hr x => ?_, fun u a data hs hsync hat x =>
      State.RangeAt.read_abandoned (s := s.dropMove) hs hsync hat x⟩
  · simp [hdrop]
  · rw [State.abandonPacket_eq (s := s.dropMove) hj]
    exact ⟨fun _ => rfl, rfl⟩
  · have hcut : s.dropMove.abandonPacket = s.dropMove.devCut a.toNat p.length := by
      rw [State.abandonPacket, show s.dropMove.seq = _ from hs]
    rw [State.assertReset_dev, hcut]
    exact State.read_devCut (s := s.dropMove) hsync hr x

/-! ### Who writes CANVAS, FRAME and ANIM (10_state R14 to R16) -/

/-- CANVAS, FRAME and ANIM are as they were. -/
def MemoriesKept (s t : State) : Prop := t.canvas = s.canvas ∧ t.frame = s.frame ∧ t.anim = s.anim

theorem TransportKept.memoriesKept {s t : State} (h : TransportKept s t) : MemoriesKept s t := ⟨h.canvas, h.frame, h.anim⟩

theorem ReleasesWork.memoriesKept {release : State → State} (h : ReleasesWork release) (s : State) :
    MemoriesKept s (release s) := by
  obtain ⟨w, d, hw⟩ := h s
  rw [hw]
  exact ⟨rfl, rfl, rfl⟩

theorem MemoriesKept.trans {s t u : State} (h : MemoriesKept s t) (g : MemoriesKept t u) : MemoriesKept s u :=
  ⟨g.1.trans h.1, g.2.1.trans h.2.1, g.2.2.trans h.2.2⟩

/-- A transport command that no RESET cut off keeps the three. -/
theorem TransportKept.finish_memoriesKept {s : State} {p : Progress} {release : State → State}
    (hk : TransportKept s p.state) (h : ReleasesWork release) (hp : p.wasReset = false) :
    MemoriesKept s (p.finish release) := by
  refine hk.memoriesKept.trans ?_
  cases p with
  | done u => exact h.memoriesKept u
  | failed e u => exact h.memoriesKept u
  | reset u => cases hp

/-- The instructions of the transport (42_transport), with the wire packet. -/
def isTransport : Instr → Bool
  | .writePacket _ _ => true
  | .sendRange _ _ => true
  | .fill _ => true
  | .sendFrame => true
  | .wirePacket _ _ => true
  | _ => false

/-- The transport keeps CANVAS, FRAME and ANIM where no RESET comes. -/
theorem exec_transport_memoriesKept {i : Instr} {s t : State} (hi : isTransport i = true)
    (hfree : s.resetFree (mostWrites i)) (h : exec i s = .next t) : MemoriesKept s t := by
  cases i with
  | writePacket a p =>
    rcases exec_writePacket_inv h with ⟨-, rfl⟩ | ⟨h1, h2, hr, rfl⟩
    · exact ⟨rfl, rfl, rfl⟩
    · exact (emitPacket_kept a p s).1.finish_memoriesKept releasePacket_releasesWork
        ((emitPacket_channelWork s h1 h2 hr).resetFree hfree)
  | sendRange a data =>
    obtain ⟨hr, rfl⟩ := exec_sendRange_inv h
    exact (sendRangeFrom_kept a data s).finish_memoriesKept releaseRange_releasesWork
      ((sendRangeFrom_channelWork s hr).resetFree hfree)
  | fill v =>
    obtain ⟨data, hdata, rfl⟩ := exec_fill_inv h
    have hl : data.length = 1008 := hdata ▸ List.length_replicate
    have hwork := sendRangeFrom_channelWork (start := 0#16) (data := data) (fillStart v s) (by rw [hl]; decide)
    rw [hl] at hwork
    exact (sendRangeFrom_kept 0#16 data (fillStart v s)).finish_memoriesKept releaseFill_releasesWork
      (hwork.resetFree hfree)
  | sendFrame =>
    obtain ⟨-, data, hl, -, rfl⟩ := exec_sendFrame_inv h
    have hwork := sendRangeFrom_channelWork (start := 0#16) (data := data) s (by rw [hl]; decide)
    rw [hl] at hwork
    exact (sendRangeFrom_kept 0#16 data s).finish_memoriesKept releaseRange_releasesWork (hwork.resetFree hfree)
  | wirePacket a p =>
    obtain ⟨h1, h2, hr, rfl⟩ := exec_wirePacket_inv h
    have hkept := (emitPacket_kept a p s).1.finish_memoriesKept releasePacket_releasesWork
      ((emitPacket_channelWork s h1 h2 hr).resetFree hfree)
    generalize emitPacket a p s = q at hkept ⊢
    cases q <;> exact hkept
  | _ => cases hi

/-- Settles O59: a transport command keeps the three where no RESET comes, and of the others each writes its own. -/
theorem whoWritesWhat : Obligations.WhoWritesWhat := by
  have kept : ∀ {s t : State}, MemoriesKept s t → ∀ {P Q R : Prop},
      (t.canvas ≠ s.canvas → P) ∧ (t.frame ≠ s.frame → Q) ∧ (t.anim ≠ s.anim → R) :=
    fun ⟨hc, hf, ha⟩ _ _ _ => ⟨fun h => absurd hc h, fun h => absurd hf h, fun h => absurd ha h⟩
  intro i s t hfree h
  cases i with
  | canvasNew => cases h; simp
  | setPixel x y v => obtain ⟨-, -, -, rfl⟩ := exec_setPixel_inv h; simp
  | drawCircle cx cy d => obtain ⟨-, rfl⟩ := exec_drawCircle_inv h; simp
  | encode => obtain ⟨-, rfl⟩ := exec_encode_inv h; simp
  | animInit => cases h; simp
  | tick => simp
  | run => simp
  | sendRange a data => exact kept (exec_transport_memoriesKept rfl hfree h)
  | writePacket a p => exact kept (exec_transport_memoriesKept rfl hfree h)
  | fill v => exact kept (exec_transport_memoriesKept rfl hfree h)
  | sendFrame => exact kept (exec_transport_memoriesKept rfl hfree h)
  | wirePacket a p => exact kept (exec_transport_memoriesKept rfl hfree h)
  | reserved opcode => cases h

end Sys2Proof.Machine

/-! # The steps of a command, one by one and to its end (10_state R24, 20_memory R46) -/

namespace Sys2Proof.Machine

/-! ### ENCODE's steps -/

/-- A K step shifts the pixel at (9I + K, 2J + 1) into bit 0 (41_encoder R74). -/
theorem State.packPixel_acc (s : State) :
    s.packPixel.work.acc.getLsbD 0 = s.canvas.pixel (9 * s.work.i.toNat + s.work.k.toNat) (2 * s.work.j.toNat + 1) ∧
      ∀ m < 7, s.packPixel.work.acc.getLsbD (m + 1) = s.work.acc.getLsbD m := by
  refine ⟨shiftIn_getLsbD _ _ 0 (by omega), fun m hm => ?_⟩
  show (shiftIn s.work.acc _).getLsbD (m + 1) = _
  rw [shiftIn_getLsbD _ _ _ (by omega), if_neg (by omega), Nat.add_sub_cancel]

theorem State.storeByte_read (s : State) (x : Nat) : Memory.read s.storeByte.frame x =
    if x = 16 * s.work.j.toNat + s.work.i.toNat then some s.work.acc else Memory.read s.frame x :=
  Memory.read_write _ _ _ _

/-- Settles O14: the four ways of ENCODE's loop, by K, I and J. -/
theorem encodeWork : Obligations.EncodeWork := by
  refine ⟨fun s hs hu => step_exec hs hu, fun s t hs hu => step_exec hs hu, fun s u hs hu => ⟨fun hk => ?_, fun hk => ?_⟩⟩
  · obtain ⟨hbit, hshift⟩ := s.packPixel_acc
    refine ⟨s.packPixel.work.acc, hbit, hshift, ?_⟩
    rw [step_exec hs hu]
    exact congrArg Host.Outcome.next (if_pos hk)
  · have hwork : step s = .next (s.encodeTurn u) := step_exec hs hu
    have hk8 : s.work.k = 8#4 := BitVec.eq_of_toNat_eq hk
    rw [State.encodeTurn_store u hk8] at hwork
    refine ⟨s.storeByte.frame, s.storeByte_read, fun hi => ?_, fun hi hj => ?_, fun hi hj => ?_⟩
    · rw [hwork, if_pos (by omega)]
      rfl
    · rw [hwork, if_neg (by omega), if_pos (by omega)]
      rfl
    · rw [if_neg (by omega), if_neg (by omega)] at hwork
      refine ⟨_, hwork, ?_⟩
      cases u with
      | encode => exact ⟨rfl, rfl, rfl, rfl, fun _ => ⟨rfl, rfl⟩, fun k hk => by cases hk⟩
      | ticker k => exact ⟨rfl, rfl, rfl, rfl, fun h => (by cases h),
        fun k' hk => (by cases hk; exact ⟨rfl, rfl⟩)⟩

/-! ### The transport's steps -/

section Turn

variable {b : List Byte} {s : State} {p : Progress} {release goOn : State → State}

theorem Transaction.of_ok (h : Transaction b s p) (he : s.eventAt 0 = .ok) :
    ∃ u, p = .done u ∧ u.tx = s.tx ++ [sentOk b] := by
  have hevent := h.event
  rw [he] at hevent
  cases p with
  | done u => exact ⟨u, rfl, h.tx_done⟩
  | failed e u => obtain ⟨d, hd⟩ := hevent; cases hd
  | reset u => cases hevent

theorem Transaction.of_fail {e : ErrInfo} {n : Nat} (h : Transaction b s p) (he : s.eventAt 0 = .fail e n) :
    ∃ u, p = .failed e u ∧ u.tx = s.tx ++ [sentFail b e n] := by
  have hevent := h.event
  have htx := h.tx
  rw [he] at hevent htx
  cases p with
  | done u => cases hevent
  | failed e' u =>
    obtain ⟨d, hd⟩ := hevent
    cases hd
    exact ⟨u, rfl, htx⟩
  | reset u => cases hevent

theorem Transaction.of_reset (h : Transaction b s p) (he : isResetEvent (s.eventAt 0) = true) : ∃ u, p = .reset u := by
  have hevent := h.event
  cases p with
  | done u => rw [show s.eventAt 0 = .ok from hevent] at he; cases he
  | failed e u => obtain ⟨d, hd⟩ := hevent; rw [hd] at he; cases he
  | reset u => exact ⟨u, rfl⟩

/-- A transaction with its turn, by the event it meets (42_transport R83, R90; 60_exceptions R110, R116). -/
theorem Transaction.turn (h : Transaction b s p) (hrel : ReleasesWork release) (hgo : ∀ u, MovesOn u (goOn u)) :
    (p.turn release goOn).writes = s.writes + 1 ∧
      (s.eventAt 0 = .ok → ∃ u, p = .done u ∧ p.turn release goOn = goOn u ∧ u.result = s.result ∧ u.off = s.off ∧
        u.work.total = s.work.total ∧ u.tx = s.tx ++ [sentOk b]) ∧
      (∀ e n, s.eventAt 0 = .fail e n → (p.turn release goOn).seq = .idle ∧ (p.turn release goOn).result = 1#8 ∧
        (p.turn release goOn).errorValue = some e ∧ (p.turn release goOn).off = s.off ∧
        (p.turn release goOn).tx = s.tx ++ [sentFail b e n]) ∧
      (isResetEvent (s.eventAt 0) = true →
        (p.turn release goOn).seq = .idle ∧ (p.turn release goOn).statusWord = 0x00#8) := by
  refine ⟨(Progress.turn_ends hgo p).channelKept hrel |>.writes.trans h.writes, fun he => ?_, fun e n he => ?_,
    fun he => ?_⟩
  · obtain ⟨u, rfl, htx⟩ := h.of_ok he
    exact ⟨u, rfl, rfl, h.result, h.off, h.total, htx⟩
  · obtain ⟨u, rfl, htx⟩ := h.of_fail he
    have hoff := h.off
    obtain ⟨w, d, hw⟩ := hrel u
    show ((release u).raiseTransportError e).seq = _ ∧ _
    simp only [Progress.turn, hw]
    exact ⟨rfl, rfl, rfl, hoff, htx⟩
  · obtain ⟨u, rfl⟩ := h.of_reset he
    exact ⟨rfl, u.assertReset_statusWord⟩

end Turn

/-- The end of a range's loop, with nothing left to send (42_transport R88). -/
theorem State.endRange_ends (u : RangeUser) (s : State) : (s.endRange u).tx = s.tx ∧ (s.endRange u).off = s.off ∧
    (s.endRange u).writes = s.writes ∧
    (∀ k, u = .ticker k → (s.endRange u).seq = .exec (.advance k) ∧ (s.endRange u).result = 0#8) ∧
    ((∀ k, u ≠ .ticker k) → (s.endRange u).seq = .idle ∧ (s.endRange u).result = 0#8) := by
  cases u with
  | ticker k => exact ⟨rfl, rfl, rfl, fun k' hk => (by cases hk; exact ⟨rfl, rfl⟩), fun h => absurd rfl (h k)⟩
  | _ => exact ⟨rfl, rfl, rfl, fun k hk => (by cases hk), fun _ => ⟨rfl, rfl⟩⟩

/-- Settles O15: each transport step is one transaction with its turn, and the chunk is the one at OFF. -/
theorem transportWork : Obligations.TransportWork := by
  refine ⟨fun s a p hs hu => ⟨_, step_exec hs hu, ?_⟩, fun s a p hs hu => ⟨_, step_exec hs hu, ?_⟩,
    fun s a data hs hu => ⟨_, step_exec hs hu, rfl, rfl, rfl, rfl, rfl⟩,
    fun s u a data hs hu hat => ⟨_, step_exec hs hu, ?_⟩, fun s u a data hs hu hat hlt => ⟨_, step_exec hs hu, ?_⟩⟩
  · obtain ⟨hwrites, hok, hrest⟩ := (sendHeader_transaction a p.length s).turn releasePacket_releasesWork
      (goOn := fun u => u.goTo (.packetPayload a p)) fun u => ⟨_, _, _, _, _, rfl, rfl⟩
    refine ⟨hwrites, fun he => ?_, hrest⟩
    obtain ⟨v, -, hv, hresult, hoff, -, htx⟩ := hok he
    rw [State.packetHeaderTurn, hv]
    exact ⟨rfl, hresult, hoff, htx⟩
  · obtain ⟨hwrites, hok, hrest⟩ := (sendPayload_transaction a p s).turn releasePacket_releasesWork
      (goOn := fun u => u.releasePacket.complete) fun u => ⟨_, _, _, _, _, rfl, rfl⟩
    refine ⟨hwrites, fun he => ?_, hrest⟩
    obtain ⟨v, -, hv, -, hoff, -, htx⟩ := hok he
    rw [State.packetPayloadTurn, hv]
    exact ⟨rfl, rfl, hoff, htx⟩
  · have htotal := hat.2.1
    refine ⟨fun hlt => ?_, fun hend => ?_⟩
    · obtain ⟨hwrites, hok, hrest⟩ := (sendHeader_transaction (s.chunkAddress a) (s.chunkBytes data).length s).turn
        u.release_releasesWork (goOn := fun v => v.goTo (.rangePayload u a data)) fun v => ⟨_, _, _, _, _, rfl, rfl⟩
      have hbytes : packetHeader (s.chunkAddress a).toNat (s.chunkBytes data).length =
          packetHeader (a.toNat + s.off.toNat) (min 255 (data.length - s.off.toNat)) := by
        rw [hat.chunkAddress_toNat, hat.chunkBytes_length]
      rw [State.rangeHeaderTurn, if_pos (by omega), ← hbytes]
      refine ⟨hwrites, fun he => ?_, hrest⟩
      obtain ⟨v, -, hv, hresult, hoff, -, htx⟩ := hok he
      rw [hv]
      exact ⟨rfl, hresult, hoff, htx⟩
    · rw [State.rangeHeaderTurn, if_neg (by omega)]
      exact s.endRange_ends u
  · obtain ⟨hwrites, hok, hrest⟩ := (sendPayload_transaction (s.chunkAddress a) (s.chunkBytes data) s).turn
      u.release_releasesWork (goOn := fun v => v.succeed.advanceOff.goTo (.rangeHeader u a data))
      fun v => ⟨_, _, _, _, _, rfl, rfl⟩
    rw [← hat.chunkBytes_eq]
    refine ⟨hwrites, fun he => ?_, hrest⟩
    obtain ⟨v, -, hv, -, hoff, htotal, htx⟩ := hok he
    rw [State.rangePayloadTurn, hv]
    refine ⟨rfl, rfl, ?_, htx⟩
    have hatv : v.succeed.RangeAt a data := by
      obtain ⟨hr, htotal', hrest⟩ := hat
      refine ⟨hr, (congrArg BitVec.toNat htotal).trans htotal', ?_⟩
      rw [State.succeed_off, hoff]
      exact hrest
    rw [State.goTo_off, hatv.advanceOff_toNat, State.succeed_off, hoff]

/-! ### A tick's own steps -/

/-- Where a step leads from a tick's position: on within the step, to the next step, or, RUN's, back to step 1. -/
theorem workOn_tickStep {s t : State} {j j' : Job} {m n : Nat} (hs : s.seq = .exec j) (h : workOn j s = .next t)
    (ht : t.seq = .exec j') (hm : j.tickStep = some m) (hn : j'.tickStep = some n) :
    m ≤ n ∧ n ≤ m + 1 ∨ m = 4 ∧ n = 1 ∧ j' = .issued .run := by
  have hturn : ∀ {u : RangeUser} {p : Progress} {goOn : State → State} {k : Job}, t = p.turn u.release goOn →
      (∀ v, (goOn v).seq = .exec k) → j' = k := fun {u p goOn k} htp hgo => by
    cases p with
    | done v => rw [htp] at ht; exact (Seq.exec.inj ((hgo v).symm.trans ht)).symm
    | failed e v => rw [htp] at ht; cases ht
    | reset v => rw [htp] at ht; cases ht
  cases j with
  | issued i =>
    cases i with
    | tick => cases h; cases ht; cases hm; cases hn; omega
    | run => cases h; cases ht; cases hm; cases hn; omega
    | _ => cases hm
  | encodeNext k => cases h; cases ht; cases hm; cases hn; omega
  | encoding u =>
    cases u with
    | encode => cases hm
    | ticker k =>
      cases h
      have hstay : j' = .encoding (.ticker k) ∨ j' = .sendNext k := by
        rcases s.encodeTurn_cases (.ticker k) with ⟨-, h⟩ | ⟨-, -, h⟩ | ⟨-, -, -, h⟩ | ⟨-, -, -, h⟩ <;> rw [h] at ht
        · exact .inl (Seq.exec.inj (ht.symm.trans hs))
        · exact .inl (Seq.exec.inj (ht.symm.trans hs))
        · exact .inl (Seq.exec.inj (ht.symm.trans hs))
        · cases ht; exact .inr rfl
      rcases hstay with rfl | rfl <;> cases hm <;> cases hn <;> omega
  | sendNext k =>
    obtain ⟨data, -, -, rfl⟩ := State.startFrame_inv h
    cases ht; cases hm; cases hn; omega
  | packetHeader a p => cases hm
  | packetPayload a p => cases hm
  | rangeHeader u a data =>
    cases u with
    | ticker k =>
      cases h
      unfold State.rangeHeaderTurn at hturn ht
      split at ht
      · obtain rfl := hturn (if_pos ‹_›) fun _ => rfl
        cases hm; cases hn; omega
      · cases ht; cases hm; cases hn; omega
    | _ => cases hm
  | rangePayload u a data =>
    cases u with
    | ticker k =>
      cases h
      obtain rfl := hturn rfl fun _ => rfl
      cases hm; cases hn; omega
    | _ => cases hm
  | advance k => cases h; cases ht; cases hm; cases hn; omega
  | reverse k =>
    cases h
    cases k with
    | tick => cases ht
    | run => cases ht; cases hm; cases hn; exact .inr ⟨rfl, rfl, rfl⟩

/-- Settles O16: the steps of a tick that are no ENCODE's and no SEND_FRAME's write their own registers; every other step
of the work leads on within step 2. -/
theorem tickWork : Obligations.TickWork := by
  refine ⟨fun s k hs hu => ?_, fun s k data hs hu hl hd => ?_, fun s k hs hu => ⟨_, step_exec hs hu, rfl, rfl, rfl,
    fun h1 h2 => advancePosition_toInt h1 h2, fun h1 h2 => advancePosition_toInt h1 h2⟩, fun s k hs hu => ?_,
    fun s t j j' m n hs hu h ht hm hn => workOn_tickStep hs ((step_exec hs hu).symm.trans h) ht hm hn⟩
  · refine ⟨s.tickDrawn.goTo (.encodeNext k), ?_, rfl, rfl, rfl, rfl, rfl, rfl, fun x y hx hy => s.tickDrawn_pixel hx hy⟩
    rcases hs with ⟨hs, rfl⟩ | ⟨hs, rfl⟩ <;> exact step_exec hs hu
  · refine ⟨s.startRange (.ticker k) 0#16 data, ?_, rfl, rfl, ?_, rfl, rfl, rfl, rfl⟩
    · rw [step_exec hs hu]
      exact State.startFrame_eq hl hd
    · show BitVec.ofNat 16 data.length = _
      rw [hl]
  · refine ⟨_, step_exec hs hu, ?_⟩
    cases k with
    | tick => exact ⟨rfl, rfl, rfl, rfl, rfl, rfl, rfl, rfl, fun _ => rfl, fun h => by cases h⟩
    | run => exact ⟨rfl, rfl, rfl, rfl, rfl, rfl, rfl, rfl, fun h => (by cases h), fun _ => rfl⟩

/-! ### From the issue to the end -/

theorem Progress.finish_goTo (p : Progress) (j : Job) :
    (p.map (·.goTo j)).finish State.releasePacket = p.finish State.releasePacket := by
  cases p <;> rfl

/-- ENCODE's steps come to the frame of its canvas. -/
theorem runsTo_encodeCommand {s : State} (hs : s.seq = .exec (.issued .encode)) (hu : s.undisturbed)
    (hf : Memory.wf 1008 s.frame) : RunsTo s s.encodeCanvas.releaseEncoder.complete := by
  refine (RunsTo.turn (t := s.startEncoding .encode) hs hu rfl (runsTo_startEncoding .encode hu hf)).congr ?_
  unfold State.encodeCanvas
  generalize s.canvas.encoded = f, s.canvas.packedByte 62 15 = b
  rfl

/-- WRITE_PACKET's steps come to the end of its packet. -/
theorem runsTo_writePacket {s : State} {a : Half} {p : List Byte} (hs : s.seq = .exec (.issued (.writePacket a p)))
    (hu : s.undisturbed) (hl : p.length ≤ 255) : RunsTo s ((emitPacket a p s).finish State.releasePacket) := by
  have hstart : workOn (.issued (.writePacket a p)) s = .next (s.goTo (.packetHeader a p)) :=
    if_neg (show ¬ p.length > 255 by omega)
  refine RunsTo.turn hs hu hstart ((runsTo_packet (s := s.goTo (.packetHeader a p)) rfl hu).congr ?_)
  rw [emitPacket_goTo, Progress.finish_goTo]

theorem refuseOr_eq_fault {r : Option Refusal} {o : Host.Outcome State Fault Refusal} {f : Fault}
    (h : refuseOr r o = .fault f) : o = .fault f := by
  cases r with
  | none => exact h
  | some r => cases h

/-- The only meaning that faults is SEND_FRAME's, at a frame that lacks a byte (log 9). -/
theorem exec_fault {i : Instr} {s : State} {f : Fault} (h : exec i s = .fault f) :
    i = .sendFrame ∧ s.startFrame .sendFrame = .fault f := by
  have tick_goes_on : ∀ finish, tickEndedBy finish s ≠ .fault f := fun finish ht => by
    have ho := refuseOr_eq_fault ht
    rw [tickFrom_eq] at ho
    cases ho
  cases i with
  | canvasNew => cases h
  | setPixel x y v => cases refuseOr_eq_fault h
  | drawCircle cx cy d => cases refuseOr_eq_fault h
  | encode => cases refuseOr_eq_fault h
  | writePacket a p =>
    change writePacketUnder _ a p s = _ at h
    rw [writePacketUnder] at h
    split at h
    · cases h
    · cases refuseOr_eq_fault h
  | sendRange a data => cases refuseOr_eq_fault h
  | fill v => cases h
  | sendFrame =>
    refine ⟨rfl, ?_⟩
    have ho := refuseOr_eq_fault h
    rw [sendFrameFrom] at ho
    rw [State.startFrame]
    cases hr : s.frame.readRange 0 Config.frameSize with
    | none => rw [hr] at ho; exact ho
    | some data => rw [hr] at ho; cases ho
  | animInit => cases h
  | tick => exact absurd h (tick_goes_on _)
  | run => exact absurd h (tick_goes_on _)
  | wirePacket a p => cases refuseOr_eq_fault h
  | reserved opcode => cases h

/-- Settles O8: the loops of the encoder and the range, run to their ends, are what the meanings say; SEND_FRAME alone can
fault, and does so at its start. -/
theorem commandRunsToItsMeaning : Obligations.CommandRunsToItsMeaning := by
  intro s i hc hs hu hf
  refine ⟨fun t h => ?_, fun f h => ?_⟩
  · cases i with
    | canvasNew => exact RunsTo.last hs hu h
    | setPixel x y v => exact RunsTo.last hs hu h
    | drawCircle cx cy d => exact RunsTo.last hs hu h
    | encode => obtain ⟨-, rfl⟩ := exec_encode_inv h; exact runsTo_encodeCommand hs hu hf
    | writePacket a p =>
      rcases exec_writePacket_inv h with ⟨hl, rfl⟩ | ⟨-, hl, -, rfl⟩
      · exact RunsTo.last hs hu (if_pos hl)
      · exact runsTo_writePacket hs hu hl
    | sendRange a data =>
      obtain ⟨-, rfl⟩ := exec_sendRange_inv h
      refine RunsTo.turn hs hu rfl ((runsTo_startRange .sendRange a data hu).congr ?_)
      cases sendRangeFrom a data s <;> rfl
    | fill v =>
      obtain ⟨data, hdata, rfl⟩ := exec_fill_inv h
      refine RunsTo.turn hs hu (workOn_fill hdata s) ((runsTo_startRange .fill 0#16 data (s := fillStart v s) hu).congr ?_)
      cases sendRangeFrom 0#16 data (fillStart v s) <;> rfl
    | sendFrame =>
      obtain ⟨-, data, hl, hd, rfl⟩ := exec_sendFrame_inv h
      refine RunsTo.turn hs hu (State.startFrame_eq hl hd) ((runsTo_startRange .sendFrame 0#16 data hu).congr ?_)
      cases sendRangeFrom 0#16 data s <;> rfl
    | animInit => exact RunsTo.last hs hu h
    | tick => obtain ⟨-, rfl⟩ := exec_tick_inv h; exact RunsTo.turn hs hu rfl (runsTo_tick .tick hu hf)
    | run => obtain ⟨-, rfl⟩ := exec_run_inv h; exact RunsTo.turn hs hu rfl (runsTo_tick .run hu hf)
    | wirePacket a p => cases hc
    | reserved opcode => cases hc
  · obtain ⟨rfl, hfault⟩ := exec_fault h
    exact (step_exec hs hu).trans hfault

end Sys2Proof.Machine

/-! # The laws of DRAW_CIRCLE, the place of each pixel, and the frames of the canvas commands (40_canvas R67, R72;
20_memory R40) -/

namespace Sys2Proof.Machine

/-! ### DRAW_CIRCLE (40_canvas R72) -/

/-- Negation in s16 keeps the square, that of -32768 too, which is its own negation. -/
theorem toInt_neg_sq (d : Half) : (-d).toInt ^ 2 = d.toInt ^ 2 := by
  by_cases hd : d = BitVec.intMin 16
  · rw [hd, BitVec.neg_intMin]
  · rw [BitVec.toInt_neg_of_ne_intMin hd, neg_sq]

/-- A drawing changes the pixels inside the open disk alone: two drawings of the same disk on canvases that agree outside
it agree. -/
theorem drawCircle_pixel_congr {s s' t t' : State} {cx cy d d' : Half} {x y : Nat} (hx : x < 144) (hy : y < 126)
    (ht : exec (.drawCircle cx cy d) s = .next t) (ht' : exec (.drawCircle cx cy d') s' = .next t')
    (hd : d.toInt ^ 2 = d'.toInt ^ 2)
    (hs : ¬ ((x : Int) - cx.toInt) ^ 2 + ((y : Int) - cy.toInt) ^ 2 < d.toInt ^ 2 →
      (Canvas.pixel s.canvas x y = true ↔ Canvas.pixel s'.canvas x y = true)) :
    Canvas.pixel t.canvas x y = Canvas.pixel t'.canvas x y := by
  rw [Bool.eq_iff_iff, exec_drawCircle_pixel ht hx hy, exec_drawCircle_pixel ht' hx hy, ← hd]
  by_cases hin : ((x : Int) - cx.toInt) ^ 2 + ((y : Int) - cy.toInt) ^ 2 < d.toInt ^ 2
  · simp [hin]
  · rw [hs hin]

/-- The only integer point of the open disk of radius 1 is its centre. -/
theorem sq_add_sq_lt_one_sq_iff (a b : Int) : a ^ 2 + b ^ 2 < 1 ^ 2 ↔ a = 0 ∧ b = 0 := by
  constructor
  · intro h
    have hsum : a ^ 2 + b ^ 2 = 0 := by
      have := sq_nonneg a
      have := sq_nonneg b
      omega
    exact ⟨pow_eq_zero_iff (two_ne_zero) |>.1 (by linarith [sq_nonneg a, sq_nonneg b]),
      pow_eq_zero_iff (two_ne_zero) |>.1 (by linarith [sq_nonneg a, sq_nonneg b])⟩
  · rintro ⟨rfl, rfl⟩
    norm_num

/-- Of the grid the open disk of radius 3 about (-1, -1) covers the four pixels of the corner. -/
theorem corner_disk_iff (x y : Nat) : ((x : Int) - -1) ^ 2 + ((y : Int) - -1) ^ 2 < 3 ^ 2 ↔ x ≤ 1 ∧ y ≤ 1 := by
  constructor
  · intro h
    constructor <;> by_contra hlt <;> push Not at hlt <;> nlinarith
  · rintro ⟨hx, hy⟩
    interval_cases x <;> interval_cases y <;> norm_num

/-- Settles O20: each law is the disjunction of the old pixel and the disk, at the operands it names. -/
theorem drawCircleLaws : Obligations.DrawCircleLaws := by
  refine ⟨fun s t cx cy d h x y hx hy => exec_drawCircle_pixel h hx hy,
    fun s t u cx cy d ht hu x y hx hy => drawCircle_pixel_congr hx hy hu ht rfl fun hout => ?_,
    fun s t u cx cy d ht hu x y hx hy => drawCircle_pixel_congr hx hy hu ht (toInt_neg_sq d) fun _ => Iff.rfl,
    fun s t cx cy h x y hx hy => ?_, fun s t cx cy h x y hx hy => ?_, fun s => ?_⟩
  · rw [exec_drawCircle_pixel ht hx hy]
    simp [hout]
  · have hzero : (0#16).toInt = 0 := by decide
    have hpos := add_nonneg (sq_nonneg ((x : Int) - cx.toInt)) (sq_nonneg ((y : Int) - cy.toInt))
    rw [Bool.eq_iff_iff, exec_drawCircle_pixel h hx hy, hzero]
    exact or_iff_left (by rw [zero_pow two_ne_zero]; exact not_lt.2 hpos)
  · have hone : (1#16).toInt = 1 := by decide
    rw [exec_drawCircle_pixel h hx hy, hone, sq_add_sq_lt_one_sq_iff, sub_eq_zero, sub_eq_zero]
  · have hdraw := exec_drawCircle (s := s.blankCanvas.complete) (-1#16) (-1#16) 3#16 rfl
    refine ⟨_, _, exec_canvasNew s, hdraw, fun x y hx hy => ?_⟩
    obtain ⟨h1, h3⟩ : (-1#16 : Half).toInt = -1 ∧ (3#16).toInt = 3 := by decide
    rw [exec_drawCircle_pixel hdraw hx hy, State.complete_canvas, State.blankCanvas_canvas, Canvas.pixel_nil, h1, h3,
      corner_disk_iff, or_iff_right Bool.false_ne_true]

/-! ### What the canvas commands and ANIM_INIT leave -/

/-- Settles O21: each of the four is `complete` of a state that differs in what it writes. -/
theorem canvasAndAnimInitFrame : Obligations.CanvasAndAnimInitFrame := by
  intro i s t hi h
  rcases hi with rfl | ⟨x, y, v, rfl⟩ | ⟨cx, cy, d, rfl⟩ | rfl
  · cases h; simp [resultOk]
  · obtain ⟨-, -, -, rfl⟩ := exec_setPixel_inv h
    simp [resultOk]
  · obtain ⟨-, rfl⟩ := exec_drawCircle_inv h
    simp [resultOk]
  · cases h; simp [resultOk]

/-! ### ENCODE -/

/-- Settles O26: ENCODE packs the frame, frees the encoder's registers and completes. -/
theorem encodeFrame : Obligations.EncodeFrame := by
  intro s t h
  obtain ⟨-, rfl⟩ := exec_encode_inv h
  simp

/-- Settles O23: a represented pixel is (9i + k, 2j + 1) for one byte 16j + i and one bit 7 - k, and the other way
round. -/
theorem representedPixelHasItsBit : Obligations.RepresentedPixelHasItsBit := by
  refine ⟨fun s t x y h hxy => ?_, fun k m hk hm => ?_⟩
  · obtain ⟨hx, hy, hodd, hcolumn⟩ := hxy
    have hplace : (16 * ((y - 1) / 2) + x / 9) / 16 = (y - 1) / 2 ∧ (16 * ((y - 1) / 2) + x / 9) % 16 = x / 9 := by omega
    refine ⟨_, ?_, (s.canvas.packedByte_getLsbD ((y - 1) / 2) (x / 9) (x % 9) (by omega)).trans ?_⟩
    · rw [exec_encode_frame h, if_pos (by omega), hplace.1, hplace.2]
    · rw [Nat.div_add_mod, show 2 * ((y - 1) / 2) + 1 = y by omega]
  · refine ⟨(9 * (k % 16) + (7 - m), 2 * (k / 16) + 1), ?_, fun p hp => ?_⟩
    · simp only [represented]
      omega
    obtain ⟨⟨hx, hy, hodd, hcolumn⟩, hbyte, hbit⟩ := hp
    refine Prod.ext ?_ ?_ <;> simp only <;> omega

end Sys2Proof.Machine

/-! # One packet: sent, failed, cut by RESET, and what it leaves (42_transport R82 to R86, 60_exceptions R116) -/

namespace Sys2Proof.Machine

/-! ### A packet whose two writes are accepted -/

/-- What an accepted packet has done (42_transport R83, 10_state R30). -/
structure PacketSent (a : Half) (p : List Byte) (s u : State) : Prop where
  kept : TransportKept s u
  result : u.result = s.result
  tx : u.tx = s.tx ++ packetEntries a.toNat p
  synced : u.devSynced = s.devSynced
  dev : s.devSynced = true → ∀ x, Memory.read u.dev x =
    if a.toNat ≤ x ∧ x < a.toNat + p.length then p[x - a.toNat]? else Memory.read s.dev x
  events : u.events = s.events.drop 2
  writes : u.writes = s.writes + 2

/-- A payload of at most 255 bytes is the only chunk of its range. -/
theorem chunkAt_zero {p : List Byte} (h : p.length ≤ 255) : chunkAt p 0 = p := by
  rw [chunkAt, Nat.mul_zero, List.drop_zero, List.take_of_length_le h]

theorem emitPacket_sent {s : State} {a : Half} {p : List Byte} (h1 : 1 ≤ p.length) (h2 : p.length ≤ 255)
    (hr : a.toNat + p.length ≤ 1008) (hok : s.allOk 2) : ∃ u, emitPacket a p s = .done u ∧ PacketSent a p s u := by
  obtain ⟨u, hu, hkept, -, -, htx, hevents, hwrites, hsynced, hdev⟩ := emitPacket_accepted (s := s) (start := a.toNat)
    (a := a) (data := p) (m := 0) rfl hr (by omega) (hok 0 (by omega)) (hok 1 (by omega))
  rw [chunkAt_zero h2] at hu
  have hresult := emitPacket_result a p s
  rw [hu] at hresult
  refine ⟨u, hu, ⟨hkept.canvas, hkept.frame, hkept.anim, hkept.errinfo, hkept.seq, hkept.status, hkept.hostMoves,
    hkept.draws, hkept.j, hkept.i, hkept.k, hkept.acc, hkept.fillv⟩, hresult, ?_, hsynced, fun hs x => ?_, hevents,
    hwrites⟩
  · simpa [chunkAt_zero h2] using htx
  · have hx := hdev hs x
    rw [show min (255 * (0 + 1)) p.length = p.length by omega] at hx
    exact hx

/-- The header's bytes, from the operand's own (30_encoding R52). -/
theorem packetHeader_eq (a : Half) (n : Nat) :
    packetHeader a.toNat n = [0x00#8, 0x20#8, a.extractLsb' 8 8, a.extractLsb' 0 8, BitVec.ofNat 8 n] :=
  (headerOf_toList a n).symm

/-- Settles O27: WRITE_PACKET's end adds nothing but RESULT, SEQ and free registers to its accepted packet. -/
theorem writePacketSends : Obligations.WritePacketSends := by
  intro s a p h1 h2 hr hok
  obtain ⟨u, hu, hsent⟩ := emitPacket_sent h1 h2 hr hok
  refine ⟨_, exec_writePacket s h1 h2 hr, ?_⟩
  rw [hu, Progress.finish_done, ← packetHeader_eq]
  exact ⟨hsent.tx, rfl, rfl, hsent.kept.status, hsent.kept.errinfo, hsent.synced, hsent.dev, hsent.events, hsent.writes⟩

/-- Settles O31: an accepted packet by itself writes no RESULT and no STATUS; the three checks refuse the others. -/
theorem wirePacketIsEmitted : Obligations.WirePacketIsEmitted := by
  refine ⟨fun s a p h1 h2 hr hok => ?_, fun s a => (exec_refused_iff _ s _).2 rfl,
    fun s a p hl => (exec_refused_iff _ s _).2 (if_pos hl), fun s a p h1 h2 hr => (exec_refused_iff _ s _).2 ?_⟩
  · obtain ⟨u, hu, hsent⟩ := emitPacket_sent h1 h2 hr hok
    refine ⟨_, exec_wirePacket s h1 h2 hr, ?_⟩
    rw [hu]
    exact ⟨hsent.tx, hsent.result, hsent.kept.errinfo, hsent.kept.seq, hsent.kept.status, hsent.synced, hsent.dev⟩
  · rw [refusalOf, wirePacketRefusal, if_neg (show ¬ p.length > 255 by omega)]
    exact packetRefusal_outOfRange h1 hr

/-! ### A packet cut short -/

/-- What a packet cut short has done, once its header has been started, `last` being its entries (60_exceptions R118;
log 11). -/
structure PacketCut (a : Half) (p : List Byte) (last : List TxEntry) (s u : State) : Prop where
  kept : TransportKept s u
  tx : u.tx = s.tx ++ last
  synced : u.devSynced = false
  dev : s.devSynced = true → ∀ x, Memory.read u.dev x =
    if a.toNat ≤ x ∧ x < a.toNat + p.length then none else Memory.read s.dev x

theorem PacketCut.of_devCut {a : Half} {p : List Byte} {last : List TxEntry} {s v : State}
    (hr : a.toNat + p.length ≤ 1008) (hkept : TransportKept s (v.devCut a.toNat p.length)) (htx : v.tx = s.tx ++ last)
    (hsynced : v.devSynced = s.devSynced) (hdev : s.devSynced = true → v.dev = s.dev) :
    PacketCut a p last s (v.devCut a.toNat p.length) := by
  refine ⟨hkept, (State.devCut_tx _ _ _).trans htx, State.devCut_synced _ _ _, fun hs x => ?_⟩
  rw [State.read_devCut (hsynced.trans hs) hr, hdev hs]

/-- The payload comes after an accepted header (42_transport R83). -/
theorem emitPacket_of_header {s : State} (a : Half) (p : List Byte) (h0 : s.eventAt 0 = .ok) :
    emitPacket a p s = sendPayload a p (afterHeader a p s) := by
  rw [emitPacket, sendHeader_eq, h0]
  rfl

theorem afterHeader_eventAt (a : Half) (p : List Byte) (s : State) : (afterHeader a p s).eventAt 0 = s.eventAt 1 :=
  State.eventAt_after (n := 1) (by simp [afterHeader]) (by simp [afterHeader]) 0

section Cut

variable {s : State} {a : Half} {p : List Byte} (hr : a.toNat + p.length ≤ 1008)

include hr

/-- A packet whose header write fails ends there (42_transport R84). -/
theorem emitPacket_header_failed {e : ErrInfo} {n : Nat} (h0 : s.eventAt 0 = .fail e n) :
    ∃ u, emitPacket a p s = .failed e u ∧ PacketCut a p [sentFail (packetHeader a.toNat p.length) e n] s u := by
  have hkept := (emitPacket_kept a p s).1
  rw [emitPacket, sendHeader_eq, h0] at hkept ⊢
  exact ⟨_, rfl, .of_devCut hr hkept (by simp [sentFail]) rfl fun _ => rfl⟩

/-- A packet whose payload write fails ends there. -/
theorem emitPacket_payload_failed {e : ErrInfo} {n : Nat} (h0 : s.eventAt 0 = .ok) (h1 : s.eventAt 1 = .fail e n) :
    ∃ u, emitPacket a p s = .failed e u ∧
      PacketCut a p [sentOk (packetHeader a.toNat p.length), sentFail p e n] s u := by
  have hkept := (emitPacket_kept a p s).1
  rw [emitPacket_of_header a p h0, sendPayload_eq, afterHeader_eventAt, h1] at hkept ⊢
  exact ⟨_, rfl, .of_devCut hr hkept (by simp [afterHeader, sentOk, sentFail]) rfl fun hs => afterHeader_dev hs a p⟩

/-- The ways RESET can come once the header has been started, with what they leave in TX (60_exceptions R116). -/
def cutByReset (s : State) (a : Half) (p : List Byte) (last : List TxEntry) : Prop :=
  (∃ e n, s.eventAt 0 = .resetDuring e n ∧ last = [sentFail (packetHeader a.toNat p.length) e n]) ∨
  (s.eventAt 0 = .ok ∧ s.eventAt 1 = .resetBefore ∧ last = [sentOk (packetHeader a.toNat p.length)]) ∨
  ∃ e n, s.eventAt 0 = .ok ∧ s.eventAt 1 = .resetDuring e n ∧
    last = [sentOk (packetHeader a.toNat p.length), sentFail p e n]

theorem emitPacket_cut {last : List TxEntry} (h : cutByReset s a p last) :
    ∃ u, emitPacket a p s = .reset u ∧ PacketCut a p last s u := by
  have hkept := (emitPacket_kept a p s).1
  rcases h with ⟨e, n, h0, rfl⟩ | ⟨h0, h1, rfl⟩ | ⟨e, n, h0, h1, rfl⟩
  · rw [emitPacket, sendHeader_eq, h0] at hkept ⊢
    exact ⟨_, rfl, .of_devCut hr hkept (by simp [sentFail]) rfl fun _ => rfl⟩
  · rw [emitPacket_of_header a p h0, sendPayload_eq, afterHeader_eventAt, h1] at hkept ⊢
    exact ⟨_, rfl, .of_devCut hr hkept (by simp [afterHeader, sentOk]) rfl fun hs => afterHeader_dev hs a p⟩
  · rw [emitPacket_of_header a p h0, sendPayload_eq, afterHeader_eventAt, h1] at hkept ⊢
    exact ⟨_, rfl, .of_devCut hr hkept (by simp [afterHeader, sentOk, sentFail]) rfl fun hs => afterHeader_dev hs a p⟩

end Cut

/-! ### The two instructions of one packet -/

section OnePacket

variable {i : Instr} {s u : State} {a : Half} {p : List Byte} (hi : i = .writePacket a p ∨ i = .wirePacket a p)
  (h1 : 1 ≤ p.length) (h2 : p.length ≤ 255) (hr : a.toNat + p.length ≤ 1008)

include hi h1 h2 hr

/-- WRITE_PACKET and a wire packet raise a failed write alike (log 12). -/
theorem exec_packet_failed {e : ErrInfo} (h : emitPacket a p s = .failed e u) :
    exec i s = .next (u.releasePacket.raiseTransportError e) := by
  rcases hi with rfl | rfl
  · rw [exec_writePacket s h1 h2 hr, h]; rfl
  · rw [exec_wirePacket s h1 h2 hr, h]; rfl

theorem exec_packet_reset (h : emitPacket a p s = .reset u) : exec i s = .next u.assertReset := by
  rcases hi with rfl | rfl
  · rw [exec_writePacket s h1 h2 hr, h]; rfl
  · rw [exec_wirePacket s h1 h2 hr, h]; rfl

end OnePacket

/-- Settles O28: the packet is cut at its header or at its payload, and TransportError is raised. -/
theorem writePacketFails : Obligations.WritePacketFails := by
  intro s i a p e n hi h1 h2 hr
  have raised : ∀ {last : List TxEntry} {u : State}, emitPacket a p s = .failed e u → PacketCut a p last s u →
      ∃ t, exec i s = .next t ∧ t.tx = s.tx ++ last ∧ t.result = 1#8 ∧ t.errorValue = some e ∧
        t.status = { s.status with terr := true } ∧ t.seq = .idle ∧ t.devSynced = false ∧
        (s.devSynced = true → ∀ x, Memory.read t.dev x =
          if a.toNat ≤ x ∧ x < a.toNat + p.length then none else Memory.read s.dev x) := by
    intro last u hu hcut
    refine ⟨_, exec_packet_failed hi h1 h2 hr hu, hcut.tx, rfl, rfl, ?_, rfl, hcut.synced, hcut.dev⟩
    rw [State.raiseTransportError_status, State.releasePacket_status, hcut.kept.status]
  refine ⟨fun h0 => ?_, fun h0 h1 => ?_⟩
  · obtain ⟨u, hu, hcut⟩ := emitPacket_header_failed hr h0
    exact raised hu hcut
  · obtain ⟨u, hu, hcut⟩ := emitPacket_payload_failed hr h0 h1
    exact raised hu hcut

/-- Settles O11: the packet is cut where RESET comes, and RESET leaves TX, DEV and devSynced as the packet left them. -/
theorem resetCutsAPacket : Obligations.ResetCutsAPacket := by
  intro s i a p hi h1 h2 hr
  have cut : ∀ {last : List TxEntry}, cutByReset s a p last → ∃ t, exec i s = .next t ∧ t.seq = .idle ∧
      t.statusWord = 0x00#8 ∧ t.result = 0#8 ∧ t.tx = s.tx ++ last ∧ t.devSynced = false := by
    intro last h
    obtain ⟨u, hu, hcut⟩ := emitPacket_cut hr h
    exact ⟨_, exec_packet_reset hi h1 h2 hr hu, rfl, u.assertReset_statusWord, rfl, hcut.tx, hcut.synced⟩
  refine ⟨fun h0 => ?_, fun e n h0 => cut (.inl ⟨e, n, h0, rfl⟩), fun h0 h1 => cut (.inr (.inl ⟨h0, h1, rfl⟩)),
    fun e n h0 h1 => cut (.inr (.inr ⟨e, n, h0, h1, rfl⟩))⟩
  have hu : emitPacket a p s = .reset (s.buildHeader a p.length).takeEvent := by
    rw [emitPacket, sendHeader_eq, h0]
    rfl
  exact ⟨_, exec_packet_reset hi h1 h2 hr hu, rfl, State.assertReset_statusWord _, rfl, rfl, fun _ => rfl, rfl⟩

/-! ### What a transport command leaves that no RESET cut off -/

/-- The block's registers that the end of a transport command keeps; of a failed one TERR and ERRINFO are written
(60_exceptions R110). -/
structure EndKept (s t : State) : Prop where
  memories : MemoriesKept s t
  canvasValid : t.status.canvasValid = s.status.canvasValid
  frameValid : t.status.frameValid = s.status.frameValid
  animValid : t.status.animValid = s.status.animValid
  terr : t.result ≠ 1#8 → t.status.terr = s.status.terr ∧ t.errinfo = s.errinfo
  hostMoves : t.hostMoves = s.hostMoves

/-- A state that keeps what the transport keeps but for RESULT, SEQ and working registers. -/
theorem TransportKept.endKept {s u : State} (hk : TransportKept s u) (w : Working) (d : Nat) (r : Byte) (q : Seq) :
    EndKept s { u with work := w, draws := d, result := r, seq := q } := by
  have hstatus := hk.status
  exact ⟨hk.memoriesKept, congrArg Status.canvasValid hstatus, congrArg Status.frameValid hstatus,
    congrArg Status.animValid hstatus, fun _ => ⟨congrArg Status.terr hstatus, hk.errinfo⟩, hk.hostMoves⟩

theorem TransportKept.endKept_failed {s u : State} (hk : TransportKept s u) (w : Working) (d : Nat) (e : ErrInfo) :
    EndKept s (State.raiseTransportError e { u with work := w, draws := d }) := by
  obtain ⟨hmem, hcanvas, hframe, hanim, -, hmoves⟩ := hk.endKept w d u.result u.seq
  exact ⟨hmem, hcanvas, hframe, hanim, fun hne => absurd rfl hne, hmoves⟩

section NotReset

variable {s : State} {p : Progress} {release : State → State} (hrel : ReleasesWork release) (hp : p.wasReset = false)

include hrel hp

theorem TransportKept.finish_endKept (hk : TransportKept s p.state) : EndKept s (p.finish release) := by
  cases p with
  | done u => obtain ⟨w, d, hw⟩ := hrel u; rw [Progress.finish_done, hw]; exact hk.endKept w d _ _
  | failed e u => obtain ⟨w, d, hw⟩ := hrel u; rw [Progress.finish_failed, hw]; exact hk.endKept_failed w d e
  | reset u => cases hp

omit hrel in
theorem Progress.finish_work : (p.finish release).work = (release p.state).work := by
  cases p with
  | reset u => cases hp
  | _ => rfl

theorem Progress.finish_off : (p.finish release).off = p.state.off := by
  cases p with
  | done u => obtain ⟨w, d, hw⟩ := hrel u; rw [Progress.finish_done, hw]; rfl
  | failed e u => obtain ⟨w, d, hw⟩ := hrel u; rw [Progress.finish_failed, hw]; rfl
  | reset u => cases hp

end NotReset

/-- A wire packet's end writes no RESULT and no SEQ where a command's completes. -/
theorem endOfPacket_eq {p : Progress} (hp : p.wasReset = false) :
    (∃ u, p = .done u ∧ endOfPacket p = u.releasePacket) ∨ endOfPacket p = p.finish State.releasePacket := by
  cases p with
  | done u => exact .inl ⟨u, rfl, rfl⟩
  | failed e u => exact .inr rfl
  | reset u => cases hp

theorem TransportKept.endOfPacket_endKept {s : State} {p : Progress} (hp : p.wasReset = false)
    (hk : TransportKept s p.state) : EndKept s (endOfPacket p) := by
  rcases endOfPacket_eq hp with ⟨u, rfl, h⟩ | h <;> rw [h]
  · exact hk.endKept _ _ u.result u.seq
  · exact hk.finish_endKept releasePacket_releasesWork hp

theorem endOfPacket_work_off {p : Progress} (hp : p.wasReset = false) :
    (endOfPacket p).work = p.state.releasePacket.work ∧ (endOfPacket p).off = p.state.off := by
  rcases endOfPacket_eq hp with ⟨u, rfl, h⟩ | h <;> rw [h]
  · exact ⟨rfl, rfl⟩
  · exact ⟨Progress.finish_work hp, Progress.finish_off releasePacket_releasesWork hp⟩

/-- What WRITE_PACKET and a wire packet leave, by the packet they end. -/
theorem exec_packet_ends {i : Instr} {a : Half} {p : List Byte} {s t : State}
    (hi : i = .writePacket a p ∨ i = .wirePacket a p) (hfree : s.resetFree 2) (h : exec i s = .next t) :
    (255 < p.length ∧ t = s.raiseContractViolation) ∨
      (p.length ≤ 255 ∧ a.toNat + p.length ≤ 1008 ∧ EndKept s t ∧ t.dev = (emitPacket a p s).state.dev ∧
        t.work = (emitPacket a p s).state.releasePacket.work ∧ t.off = (emitPacket a p s).state.off) := by
  have hkept := (emitPacket_kept a p s).1
  rcases hi with rfl | rfl
  · rcases exec_writePacket_inv h with hlong | ⟨h1, h2, hr, rfl⟩
    · exact .inl hlong
    · have hp := (emitPacket_channelWork s h1 h2 hr).resetFree hfree
      exact .inr ⟨h2, hr, hkept.finish_endKept releasePacket_releasesWork hp,
        (Progress.finish_ended releasePacket_releasesWork _).channel.dev, Progress.finish_work hp,
        Progress.finish_off releasePacket_releasesWork hp⟩
  · obtain ⟨h1, h2, hr, rfl⟩ := exec_wirePacket_inv h
    have hp := (emitPacket_channelWork s h1 h2 hr).resetFree hfree
    obtain ⟨hwork, hoff⟩ := endOfPacket_work_off hp
    exact .inr ⟨h2, hr, hkept.endOfPacket_endKept hp, (endOfPacket_ended _).channel.dev, hwork, hoff⟩

/-- Settles O32: an over-long WRITE_PACKET writes RESULT and SEQ alone; a packet that is done or failed keeps what the
transport keeps, and the bytes of DEV it does not address. -/
theorem packetFrame : Obligations.PacketFrame := by
  intro i s t a p hi hfree h
  rcases exec_packet_ends hi hfree h with ⟨hlong, rfl⟩ | ⟨hshort, hr, hend, hdev, hwork, hoff⟩
  · simp
  · obtain ⟨hkept, hoff', htotal⟩ := emitPacket_kept a p s
    obtain ⟨⟨hcanvas, hframe, hanim⟩, hcv, hfv, hav, hterr, hmoves⟩ := hend
    rw [hwork, hdev, hcanvas, hframe]
    exact ⟨fun _ _ => rfl, fun _ => rfl, fun hs => ((emitPacket_dev a p s hr).2 hs).1, hanim, hoff.trans hoff', htotal,
      hkept.j, hkept.i, hkept.k, hkept.acc, hkept.fillv, hcv, hfv, hav, hterr, hmoves,
      fun hlong => absurd hlong (by omega)⟩

end Sys2Proof.Machine

/-! # Ranges: sent in full, what they leave, and cut by RESET (42_transport R87 to R91, 60_exceptions R116) -/

namespace Sys2Proof.Machine

/-! ### A range under RANGE_POLICY `emit` (log 16) -/

/-- Under `emit` a range is allowed whose addresses and length are 16-bit fields. -/
theorem rangeRefusal_emit {a : Half} {n : Nat} (hr : a.toNat + n ≤ 65536) (hn : n < 65536) :
    rangeRefusal .emit a n = none := by
  have ha := a.isLt
  have hlast : a.toNat + 255 * ((n - 1) / 255) < 65536 := by omega
  have hallowed : rangeAllowed .emit a.toNat n = true := by
    simp only [rangeAllowed, Bool.or_eq_true, Bool.and_eq_true, decide_eq_true_eq]
    exact .inr ⟨⟨trivial, hlast⟩, hn⟩
  rw [rangeRefusal, hallowed]
  rfl

/-- A range whose first `k` packets are accepted has put them into TX, inside the frame memory or not. -/
theorem sendLoop_emitted {s : State} {start : Half} {data : List Byte} (k turns : Nat)
    (hr : start.toNat + data.length ≤ 65536) (hl : data.length < 65536) (ht : s.work.total.toNat = data.length)
    (ho : s.off.toNat = 0) (hk : k ≤ (data.length + 254) / 255) (hok : s.allOk (2 * k)) :
    ∃ t, sendLoop (turns + k) start data s = sendLoop turns start data t ∧ t.work.total = s.work.total ∧
      t.off.toNat = min (255 * k) data.length ∧ t.tx = s.tx ++ firstPackets start.toNat data k ∧
      t.events = s.events.drop (2 * k) ∧ t.writes = s.writes + 2 * k := by
  induction k generalizing turns with
  | zero => exact ⟨s, rfl, rfl, by omega, (List.append_nil _).symm, rfl, rfl⟩
  | succ k ih =>
    obtain ⟨t, hloop, htotal, hoff, htx, hevents, hwrites⟩ := ih (turns + 1) (by omega) fun i hi => hok i (by omega)
    have hoff : t.off.toNat = 255 * k := by omega
    have haddr : (t.chunkAddress start).toNat = start.toNat + 255 * k := by
      rw [State.chunkAddress, hoff, BitVec.toNat_ofNat, Nat.mod_eq_of_lt (by omega)]
    have hbytes : t.chunkBytes data = chunkAt data k := by
      rw [State.chunkBytes, htotal, ht, hoff, ← List.length_drop, take_min_length]
      rfl
    have hlen : t.work.total.toNat = data.length := by rw [htotal, ht]
    have htwo : t.allOk 2 := fun i hi => by
      rw [State.eventAt_after hevents hwrites]
      exact hok _ (by omega)
    obtain ⟨u, hu, hutx⟩ := emitPacket_ok (t.chunkAddress start) (chunkAt data k) htwo
    obtain ⟨-, huoff, hutotal⟩ := emitPacket_kept (t.chunkAddress start) (chunkAt data k) t
    have hnext : (∃ v, emitPacket (t.chunkAddress start) (chunkAt data k) t = .done v ∧ v.events = t.events.drop 2 ∧
        v.writes = t.writes + 2) ∨ ∃ e v, emitPacket (t.chunkAddress start) (chunkAt data k) t = .failed e v :=
      emitPacket_resetFree _ _ fun i hi => by rw [htwo i hi]; rfl
    rw [hu] at huoff hutotal hnext
    obtain ⟨v, hv, huevents, huwrites⟩ := hnext.resolve_right (by simp)
    cases hv
    have huoff : u.off = t.off := huoff
    have hutotal : u.work.total = t.work.total := hutotal
    refine ⟨u.succeed.advanceOff, ?_, hutotal.trans htotal, ?_, ?_, ?_, ?_⟩
    · rw [show turns + (k + 1) = turns + 1 + k by omega, hloop, sendLoop, if_pos (by omega), hbytes, hu,
        Progress.done_andThen]
    · rw [State.advanceOff_off, State.succeed_off, State.succeed_work, huoff, hutotal, hoff, htotal, ht,
        BitVec.toNat_ofNat, show Config.maxPayload = 255 from rfl, Nat.mod_eq_of_lt (by omega)]
      omega
    · rw [firstPackets_succ, ← List.append_assoc, ← htx, ← haddr]
      exact hutx
    · rw [show u.succeed.advanceOff.events = u.events from rfl, huevents, hevents, List.drop_drop]
      congr 1
    · rw [show u.succeed.advanceOff.writes = u.writes from rfl, huwrites, hwrites]
      omega

/-- Settles O33: the loop ends with OFF at the end of the data, and the packets are those of the whole range. -/
theorem sendRangeSends : Obligations.SendRangeSends := by
  refine ⟨fun s a data hr hok => ?_, fun s a data => rfl, fun s a data hr hl hok => ?_⟩
  · obtain ⟨t, ht, hsent⟩ := sendRangeFrom_sent hr hok
    refine ⟨_, exec_sendRange s hr, ?_⟩
    rw [ht, Progress.finish_done]
    exact ⟨hsent.tx, hsent.off, rfl, rfl, hsent.kept.status, hsent.kept.errinfo, hsent.synced, hsent.dev⟩
  · have htotal : (rangeStart data s).work.total.toNat = data.length := by
      show (BitVec.ofNat 16 data.length).toNat = _
      rw [BitVec.toNat_ofNat, Nat.mod_eq_of_lt hl]
    obtain ⟨t, hloop, -, hoff, htx, -, -⟩ := sendLoop_emitted (s := rangeStart data s) ((data.length + 254) / 255) 0 hr hl
      htotal rfl le_rfl hok
    have hdone : sendRangeFrom a data s = .done t := by
      rw [sendRangeFrom_eq, chunkCount_eq, ← Nat.zero_add ((data.length + 254) / 255), hloop]
      rfl
    refine ⟨_, by rw [sendRangeUnder, rangeRefusal_emit hr hl, refuseOr_none], ?_⟩
    rw [hdone, Progress.finish_done]
    refine ⟨htx, BitVec.eq_of_toNat_eq ?_, rfl, rfl⟩
    rw [State.complete_off, State.releaseRange_off, hoff, BitVec.toNat_ofNat, Nat.mod_eq_of_lt hl]
    omega

/-! ### The chunk law (42_transport R89) -/

/-- A packet is five bytes of header and its payload. -/
theorem bytesHanded_firstPackets (start : Nat) (data : List Byte) (k : Nat) :
    bytesHanded (firstPackets start data k) = min (255 * k) data.length + 5 * k := by
  induction k with
  | zero => simp [firstPackets, bytesHanded]
  | succ k ih =>
    have hpacket : bytesHanded (packetEntries (start + 255 * k) (chunkAt data k)) =
        5 + min 255 (data.length - 255 * k) := by
      simp [bytesHanded, packetEntries, sentOk, chunkAt_length]
    rw [firstPackets_succ, bytesHanded, List.map_append, List.sum_append]
    change bytesHanded _ + bytesHanded _ = _
    rw [ih, hpacket]
    omega

/-- Entries 2m and 2m + 1 are packet `m`. -/
theorem firstPackets_getElem? (start : Nat) (data : List Byte) {k m : Nat} (hm : m < k) :
    (firstPackets start data k)[2 * m]? = some (sentOk (packetHeader (start + 255 * m) (chunkAt data m).length)) ∧
      (firstPackets start data k)[2 * m + 1]? = some (sentOk (chunkAt data m)) := by
  induction k with
  | zero => omega
  | succ k ih =>
    have hl := firstPackets_length start data k
    rw [firstPackets_succ]
    by_cases hlast : m = k
    · subst hlast
      rw [List.getElem?_append_right (by omega), List.getElem?_append_right (by omega), hl, Nat.sub_self,
        Nat.add_sub_cancel_left]
      exact ⟨rfl, rfl⟩
    · rw [List.getElem?_append_left (by omega), List.getElem?_append_left (by omega)]
      exact ih (by omega)

/-- The first `k` chunks are the first `255 k` bytes. -/
theorem flatMap_chunkAt (data : List Byte) (k : Nat) : (List.range k).flatMap (chunkAt data) = data.take (255 * k) := by
  induction k with
  | zero => simp
  | succ k ih => rw [List.range_succ, List.flatMap_append, ih, List.flatMap_singleton, chunkAt, Nat.mul_succ,
    List.take_add]

/-- Settles O34: the packets of a whole range, counted, one by one, and put together. -/
theorem chunkLaw : Obligations.ChunkLaw := by
  intro s a data P h1 hP hr hok
  subst hP
  obtain ⟨t, ht, hsent⟩ := sendRangeFrom_sent hr hok
  refine ⟨_, _, exec_sendRange s hr, by rw [ht]; exact hsent.tx, firstPackets_length _ _ _, ?_,
    fun m hm => firstPackets_getElem? _ _ hm, fun m hm => ?_, ?_, ?_⟩
  · rw [bytesHanded_firstPackets]
    omega
  · rw [chunkAt_length]
    omega
  · rw [chunkAt_length]
    omega
  · rw [flatMap_chunkAt, List.take_of_length_le (by omega)]

/-! ### What a range leaves -/

/-- What a command of one range leaves, accepted or failed, of the state and of the device (42_transport R82). -/
def RangeLeaves (a : Half) (n : Nat) (s t : State) : Prop :=
  t.canvas = s.canvas ∧ t.frame = s.frame ∧
  (s.devSynced = true → ∀ x, (x < a.toNat ∨ a.toNat + n ≤ x) → Memory.read t.dev x = Memory.read s.dev x) ∧
  t.anim = s.anim ∧ (t.work.j = s.work.j ∧ t.work.i = s.work.i ∧ t.work.k = s.work.k ∧ t.work.acc = s.work.acc) ∧
  t.status.canvasValid = s.status.canvasValid ∧ t.status.frameValid = s.status.frameValid ∧
  t.status.animValid = s.status.animValid ∧
  (t.result ≠ 1#8 → t.status.terr = s.status.terr ∧ t.errinfo = s.errinfo) ∧ t.hostMoves = s.hostMoves

/-- A range that no RESET cut off, ended by a release of transport registers. -/
theorem sendRangeFrom_leaves {a : Half} {data : List Byte} {s : State} {release : State → State}
    (hrel : ReleasesWork release) (hregs : ∀ u, (release u).work.j = u.work.j ∧ (release u).work.i = u.work.i ∧
      (release u).work.k = u.work.k ∧ (release u).work.acc = u.work.acc)
    (hr : a.toNat + data.length ≤ 1008) (hfree : s.resetFree (2 * ((data.length + 254) / 255))) :
    RangeLeaves a data.length s ((sendRangeFrom a data s).finish release) := by
  have hp := (sendRangeFrom_channelWork s hr).resetFree hfree
  have hkept := sendRangeFrom_kept a data s
  obtain ⟨⟨hcanvas, hframe, hanim⟩, hcv, hfv, hav, hterr, hmoves⟩ := hkept.finish_endKept hrel hp
  obtain ⟨hj, hi, hk, hacc⟩ := hregs (sendRangeFrom a data s).state
  refine ⟨hcanvas, hframe, fun hs x hx => ?_, hanim, ?_, hcv, hfv, hav, hterr, hmoves⟩
  · rw [(Progress.finish_ended hrel _).channel.dev]
    exact (sendRangeFrom_dev s hr).2 hs x hx
  · rw [Progress.finish_work hp]
    exact ⟨hj.trans hkept.j, hi.trans hkept.i, hk.trans hkept.k, hacc.trans hkept.acc⟩

/-- The release at the end of SEND_RANGE and SEND_FRAME leaves FILLV. -/
theorem sendRangeFrom_fillv {a : Half} {data : List Byte} {s : State} (hr : a.toNat + data.length ≤ 1008)
    (hfree : s.resetFree (2 * ((data.length + 254) / 255))) :
    ((sendRangeFrom a data s).finish State.releaseRange).work.fillv = s.work.fillv := by
  rw [Progress.finish_work ((sendRangeFrom_channelWork s hr).resetFree hfree)]
  exact (sendRangeFrom_kept a data s).fillv

/-- What the three commands of one range leave. -/
theorem exec_range_leaves {i : Instr} {s t : State} {a : Half} {n : Nat}
    (hi : (∃ data, i = .sendRange a data ∧ n = data.length) ∨ (i = .sendFrame ∨ ∃ v, i = .fill v) ∧ a = 0#16 ∧ n = 1008)
    (hfree : s.resetFree (2 * ((n + 254) / 255))) (h : exec i s = .next t) :
    RangeLeaves a n s t ∧ ((∀ v, i ≠ .fill v) → t.work.fillv = s.work.fillv) := by
  rcases hi with ⟨data, rfl, rfl⟩ | ⟨rfl | ⟨v, rfl⟩, rfl, rfl⟩
  · obtain ⟨hr, rfl⟩ := exec_sendRange_inv h
    exact ⟨sendRangeFrom_leaves releaseRange_releasesWork (fun _ => ⟨rfl, rfl, rfl, rfl⟩) hr hfree,
      fun _ => sendRangeFrom_fillv hr hfree⟩
  · obtain ⟨-, data, hl, -, rfl⟩ := exec_sendFrame_inv h
    have hr : (0#16).toNat + data.length ≤ 1008 := by rw [hl]; decide
    rw [← hl] at hfree ⊢
    exact ⟨sendRangeFrom_leaves releaseRange_releasesWork (fun _ => ⟨rfl, rfl, rfl, rfl⟩) hr hfree,
      fun _ => sendRangeFrom_fillv hr hfree⟩
  · obtain ⟨data, hdata, rfl⟩ := exec_fill_inv h
    have hl : data.length = 1008 := hdata ▸ List.length_replicate
    have hr : (0#16).toNat + data.length ≤ 1008 := by rw [hl]; decide
    rw [← hl] at hfree ⊢
    have hleft := sendRangeFrom_leaves (s := fillStart v s) releaseFill_releasesWork (fun _ => ⟨rfl, rfl, rfl, rfl⟩) hr
      hfree
    exact ⟨hleft, fun hne => absurd rfl (hne v)⟩

/-- Settles O38: each of the three ends one range, and FILL alone writes FILLV. -/
theorem rangeFrame : Obligations.RangeFrame := by
  intro i s t a n hi hfree h
  obtain ⟨⟨hcanvas, hframe, hdev, hanim, ⟨hj, hi', hk, hacc⟩, hcv, hfv, hav, hterr, hmoves⟩, hfillv⟩ :=
    exec_range_leaves hi hfree h
  rw [hcanvas, hframe]
  exact ⟨fun _ _ => rfl, fun _ => rfl, hdev, hanim, hj, hi', hk, hacc, hfillv, hcv, hfv, hav, hterr, hmoves⟩

/-! ### A range that RESET cuts off -/

/-- A canvas whose bits in the frame map are those of `data` is encoded as `data` (41_encoder R74). -/
theorem Canvas.encodedBytes_of_bits {s : State} {data : List Byte} (hl : data.length = 1008)
    (h : ∀ j i k, j < 63 → i < 16 → k < 8 → ∃ b, data[16 * j + i]? = some b ∧
      b.getLsbD (7 - k) = s.canvas.pixel (9 * i + k) (2 * j + 1)) : data = s.canvas.encodedBytes := by
  refine List.ext_getElem? fun m => ?_
  by_cases hm : m < 1008
  · obtain ⟨hj, hi, hm'⟩ : m / 16 < 63 ∧ m % 16 < 16 ∧ m = 16 * (m / 16) + m % 16 := by omega
    generalize m / 16 = j at hj hm'
    generalize m % 16 = i at hi hm'
    subst hm'
    obtain ⟨b, hb, -⟩ := h j i 0 hj hi (by omega)
    obtain ⟨c, hc, -⟩ := s.encodeCanvas_bit hj hi (k := 0) (by omega)
    rw [State.encodedBytes_eq s hm, hb, hc]
    refine congrArg some (BitVec.eq_of_getLsbD_eq fun q hq => ?_)
    obtain ⟨b', hb', hbit⟩ := h j i (7 - q) hj hi (by omega)
    obtain ⟨c', hc', hcit⟩ := s.encodeCanvas_bit hj hi (k := 7 - q) (by omega)
    cases hb.symm.trans hb'
    cases hc.symm.trans hc'
    rw [show 7 - (7 - q) = q by omega] at hbit hcit
    rw [hbit, hcit]
  · rw [List.getElem?_eq_none (by omega), List.getElem?_eq_none (by rw [Canvas.encodedBytes_length]; omega)]

/-- The range that a tick sends is that of the disk's encoding. -/
theorem State.tick_encodedBytes {s : State} {data : List Byte} (hl : data.length = 1008)
    (h : ∀ j i k, j < 63 → i < 16 → k < 8 → ∃ b, data[16 * j + i]? = some b ∧
      (b.getLsbD (7 - k) = true ↔
        ((9 * i + k : Nat) - s.anim.cx.toInt : Int) ^ 2 + ((2 * j + 1 : Nat) - s.anim.cy.toInt : Int) ^ 2 < 12 ^ 2)) :
    data = s.tickDrawn.canvas.encodedBytes := by
  refine Canvas.encodedBytes_of_bits hl fun j i k hj hi hk => ?_
  obtain ⟨b, hb, hbit⟩ := h j i k hj hi hk
  exact ⟨b, hb, Bool.eq_iff_iff.2 (hbit.trans (s.tickDrawn_pixel (by omega) (by omega)).symm)⟩

/-- The range a command sends is inside the frame memory, starts from a state of the same channel, and cut off by RESET
is the end of the command. -/
theorem sends_reset {s : State} {i : Instr} {a : Half} {data : List Byte} (h : sends i s a data) :
    a.toNat + data.length ≤ 1008 ∧ ∃ s', ChannelKept s s' ∧
      ∀ u, sendRangeFrom a data s' = .reset u → exec i s = .next u.assertReset := by
  have same : ∀ s : State, ChannelKept s s := fun _ => ⟨rfl, rfl, rfl, rfl, rfl⟩
  rcases h with ⟨rfl, hr⟩ | ⟨⟨v, rfl, hdata⟩, rfl⟩ | ⟨rfl, rfl, hv, hl, hd⟩ | ⟨hi, rfl, hv, hl, hd⟩
  · exact ⟨hr, s, same s, fun u hu => by rw [exec_sendRange s hr, hu]; rfl⟩
  · have hl : data.length = 1008 := hdata ▸ List.length_replicate
    refine ⟨by rw [hl]; decide, fillStart v s, ⟨rfl, rfl, rfl, rfl, rfl⟩, fun u hu => ?_⟩
    rw [exec_fill, ← hdata, hu]
    rfl
  · exact ⟨by rw [hl]; decide, s, same s, fun u hu => by rw [exec_sendFrame hv hl hd, hu]; rfl⟩
  · have hdata := State.tick_encodedBytes hl hd
    refine ⟨by rw [hl]; decide, s.tickDrawn.encodeCanvas, ⟨rfl, rfl, rfl, rfl, rfl⟩, fun u hu => ?_⟩
    have hwork : s.tickWork = .reset u := by rw [State.tickWork, ← hdata, hu]; rfl
    rcases hi with rfl | rfl
    · rw [exec_tick hv, hwork]; rfl
    · rw [exec_run hv, hwork]; rfl

/-- A command in packet `k` of whose range RESET comes ends there. -/
theorem exec_sends_reset {s : State} {i : Instr} {a : Half} {data : List Byte} {k : Nat} {last : List TxEntry}
    {started : Bool} (hi : sends i s a data) (hk : k < (data.length + 254) / 255) (hok : s.allOk (2 * k))
    (h : resetIn s a.toNat data k last started) :
    ∃ t, exec i s = .next t ∧ t.seq = .idle ∧ t.statusWord = 0x00#8 ∧ t.result = 0#8 ∧
      t.tx = s.tx ++ firstPackets a.toNat data k ++ last ∧ t.devSynced = (!started && s.devSynced) ∧
      (s.devSynced = true → ∀ x, Memory.read t.dev x =
        if a.toNat ≤ x ∧ x < a.toNat + 255 * k then data[x - a.toNat]?
        else if started = true ∧ a.toNat + 255 * k ≤ x ∧ x < a.toNat + 255 * k + (chunkAt data k).length then none
        else Memory.read s.dev x) := by
  obtain ⟨hr, s', ⟨htx, hdev, hsynced, hevents, hwrites⟩, hend⟩ := sends_reset hi
  have hevent : ∀ n, s'.eventAt n = s.eventAt n := State.eventAt_congr hevents hwrites
  obtain ⟨u, hu, hreset⟩ := sendRangeFrom_reset hr hk (fun n hn => (hevent n).trans (hok n hn))
    (show resetIn s' a.toNat data k last started by rw [resetIn, hevent, hevent]; exact h)
  obtain ⟨-, hutx, husynced, hudev⟩ := hreset
  rw [htx] at hutx
  rw [hsynced] at husynced hudev
  rw [hdev] at hudev
  exact ⟨_, hend u hu, rfl, u.assertReset_statusWord, rfl, hutx, husynced, hudev⟩

/-- Settles O12: each command ends in its range, and a range ends where RESET comes. -/
theorem resetCutsARange : Obligations.ResetCutsARange := by
  intro s i a data k hi hk hok
  refine ⟨fun h0 => ?_, fun e n last h => ?_⟩
  · obtain ⟨t, ht, hseq, hstatus, hresult, htx, hsynced, hdev⟩ :=
      exec_sends_reset hi hk hok (.inl ⟨h0, rfl, rfl⟩)
    exact ⟨t, ht, hseq, hstatus, hresult, by simpa using htx, by simpa using hsynced, by simpa using hdev⟩
  · have hin : resetIn s a.toNat data k last true := by
      rcases h with ⟨h0, rfl⟩ | ⟨h0, h1, rfl⟩ | ⟨h0, h1, rfl⟩
      · exact .inr (.inl ⟨e, n, h0, rfl, rfl⟩)
      · exact .inr (.inr (.inl ⟨h0, h1, rfl, rfl⟩))
      · exact .inr (.inr (.inr ⟨e, n, h0, h1, rfl, rfl⟩))
    obtain ⟨t, ht, hseq, hstatus, hresult, htx, hsynced, hdev⟩ := exec_sends_reset hi hk hok hin
    exact ⟨t, ht, hseq, hstatus, hresult, htx, hsynced, by simpa using hdev⟩

end Sys2Proof.Machine

/-! # TICK and RUN, in full (43_animation R100 to R104) -/

namespace Sys2Proof.Machine

/-! ### A tick whose eight writes are accepted -/

/-- The frame of the disk is sent, and ANIM advanced (43_animation R100). -/
theorem State.tickWork_sent {s : State} (hok : s.allOk 8) :
    ∃ u, s.tickWork = .done { u with anim := s.anim.advance } ∧ TransportKept s.tickDrawn.encodeCanvas u ∧
      u.off = 1008#16 ∧ u.tx = s.tx ++ rangeEntries 0 s.tickDrawn.canvas.encodedBytes ∧
      (s.devSynced = true → ∀ x, Memory.read u.dev x =
        if x < 1008 then s.tickDrawn.canvas.encodedBytes[x]? else Memory.read s.dev x) := by
  obtain ⟨u, hu, hkept, hoff, htx, hdev⟩ := sendRangeFrom_frame_sent (s := s.tickDrawn.encodeCanvas)
    s.tickDrawn.canvas.encodedBytes_length hok
  refine ⟨u, ?_, hkept, hoff, htx, hdev⟩
  have hanim : u.anim = s.anim := hkept.anim
  rw [State.tickWork, hu, Progress.done_andThen, hanim]

/-- Settles O42: CANVAS and FRAME are those of step 1 and of ENCODE, which the send keeps. -/
theorem tickSendsItsDisk : Obligations.TickSendsItsDisk := by
  intro s hv hok
  obtain ⟨u, hu, hkept, hoff, htx, hdev⟩ := State.tickWork_sent hok
  have hcanvas : u.canvas = s.tickDrawn.canvas := hkept.canvas
  have hframe : u.frame = s.tickDrawn.encodeCanvas.frame := hkept.frame
  refine ⟨_, s.tickDrawn.canvas.encodedBytes, exec_tick hv, ?_⟩
  rw [hu, Progress.finish_done, State.complete_canvas, State.releaseTick_canvas, State.complete_frame,
    State.releaseTick_frame, hcanvas, hframe]
  exact ⟨fun x y hx hy => s.tickDrawn_pixel hx hy, fun j i k hj hi hk => s.tickDrawn.encodeCanvas_bit hj hi hk,
    Canvas.encodedBytes_length _, fun k hk => s.tickDrawn.encodedBytes_eq hk, htx,
    fun hs k hk => by rw [← s.tickDrawn.encodedBytes_eq hk]; exact (hdev hs k).trans (if_pos hk),
    rfl, hoff, rfl, rfl, hkept.status⟩

/-- Settles O43: the device holds FRAME, whose bits are the pixels of the disk. -/
theorem tickShowsTheDiskOnTheDevice : Obligations.TickShowsTheDiskOnTheDevice := by
  intro s hv hs hok
  obtain ⟨t, data, ht, hdisk, hbits, -, -, -, hdev, -⟩ := tickSendsItsDisk s hv hok
  refine ⟨t, ht, fun x y hxy => ?_⟩
  obtain ⟨hx, hy, hodd, hcolumn⟩ := hxy
  obtain ⟨b, hb, hbit⟩ := hbits ((y - 1) / 2) (x / 9) (x % 9) (by omega) (by omega) (by omega)
  refine ⟨b, by rw [hdev hs _ (by omega), hb], ?_⟩
  rw [hbit, Nat.div_add_mod, show 2 * ((y - 1) / 2) + 1 = y by omega, hdisk x y hx hy]

/-- Settles O50: RUN's turn is the same work, and leads to the next turn. -/
theorem runTurnCompletes : Obligations.RunTurnCompletes := by
  intro s hv hok
  obtain ⟨u, hu, -, hoff, htx, -⟩ := State.tickWork_sent hok
  refine ⟨_, exec_run hv, ?_⟩
  rw [hu]
  refine ⟨rfl, (State.statusWord_bits _).1, rfl, rfl, hoff, ?_⟩
  show u.tx.length = _
  rw [htx, List.length_append, rangeEntries, firstPackets_length, Canvas.encodedBytes_length]

/-! ### A tick in whose writes no RESET comes -/

/-- What TICK or a turn of RUN ends in, the send having left `u`. -/
def TickEnds (u t : State) : Prop :=
  t = { u with anim := u.anim.advance }.releaseTick.complete ∨
  t = { u with anim := u.anim.advance }.releaseTick.keepRunning ∨
  ∃ e, t = u.releaseTick.raiseTransportError e

theorem exec_tick_ends {i : Instr} {s t : State} (hi : i = .tick ∨ i = .run) (hfree : s.resetFree 8)
    (h : exec i s = .next t) :
    TickEnds (sendRangeFrom 0#16 s.tickDrawn.canvas.encodedBytes s.tickDrawn.encodeCanvas).state t := by
  rcases hi with rfl | rfl
  · obtain ⟨-, rfl⟩ := exec_tick_inv h
    rcases State.tickWork_resetFree hfree with ⟨u, hwork, hu⟩ | ⟨e, u, hwork, hu⟩ <;> rw [hwork, hu]
    · exact .inl rfl
    · exact .inr (.inr ⟨e, rfl⟩)
  · obtain ⟨-, rfl⟩ := exec_run_inv h
    rcases State.tickWork_resetFree hfree with ⟨u, hwork, hu⟩ | ⟨e, u, hwork, hu⟩ <;> rw [hwork, hu]
    · exact .inr (.inl rfl)
    · exact .inr (.inr ⟨e, rfl⟩)

/-- Settles O47: the send keeps all this, and the end of a tick writes none of it but TERR and ERRINFO after a failure. -/
theorem tickFrame : Obligations.TickFrame := by
  intro i s t hi hfree h
  have hkept := s.tickSend_kept
  have hl := s.tickDrawn.canvas.encodedBytes_length
  have hdev : s.devSynced = true → ∀ x, 1008 ≤ x → Memory.read
      (sendRangeFrom 0#16 s.tickDrawn.canvas.encodedBytes s.tickDrawn.encodeCanvas).state.dev x = Memory.read s.dev x :=
    fun hs x hx => (sendRangeFrom_dev s.tickDrawn.encodeCanvas (by rw [hl]; decide)).2 hs x
      (.inr (by rw [hl]; exact (Nat.zero_add 1008).trans_le hx))
  have hends := exec_tick_ends hi hfree h
  generalize (sendRangeFrom 0#16 s.tickDrawn.canvas.encodedBytes s.tickDrawn.encodeCanvas).state = u at *
  have hvalid : u.status.animValid = s.status.animValid := by rw [hkept.status]; rfl
  have hterr : u.status.terr = s.status.terr := by rw [hkept.status]; rfl
  rcases hends with rfl | rfl | ⟨e, rfl⟩
  · exact ⟨hdev, hkept.fillv, hvalid, fun _ => ⟨hterr, hkept.errinfo⟩, hkept.hostMoves⟩
  · exact ⟨hdev, hkept.fillv, hvalid, fun _ => ⟨hterr, hkept.errinfo⟩, hkept.hostMoves⟩
  · exact ⟨hdev, hkept.fillv, hvalid, fun hne => absurd rfl hne, hkept.hostMoves⟩

/-! ### RUN (43_animation R104) -/

/-- A turn of RUN whose `n`-th write is the first to fail ends RUN as it would end the tick. -/
theorem exec_run_failed {s : State} {n d : Nat} {e : ErrInfo} (hv : s.status.animValid = true) (hn : n < 8)
    (hok : s.allOk n) (hf : s.eventAt n = .fail e d) :
    ∃ u last, exec .run s = .next (u.releaseTick.raiseTransportError e) ∧ last.length = n % 2 + 1 ∧
      RangeFailed 0 s.tickDrawn.canvas.encodedBytes (n / 2) last s.tickDrawn.encodeCanvas u := by
  obtain ⟨u, last, hwork, hlast, hfail⟩ := State.tickWork_failed hn hok hf
  exact ⟨u, last, by rw [exec_run hv, hwork]; rfl, hlast, hfail⟩

/-- Settles O49: TICK and RUN's turn do the same work, and part only where it is done. -/
theorem runTurn : Obligations.RunTurn := by
  refine ⟨fun s hv hfree => ⟨_, exec_tick hv, ?_⟩, fun s n e d hv hn hok hf => ?_⟩
  · rw [exec_run hv]
    rcases State.tickWork_resetFree hfree with ⟨u, hu, -⟩ | ⟨e, u, hu, -⟩ <;> rw [hu]
    · exact ⟨fun _ => rfl, fun hne => absurd rfl hne⟩
    · exact ⟨fun h => absurd h (by rw [Progress.finish_failed, State.raiseTransportError_result]; decide),
        fun _ => ⟨rfl, rfl, rfl⟩⟩
  · obtain ⟨u, last, hrun, hlast, hfail⟩ := exec_run_failed hv hn hok hf
    obtain ⟨hbusy, hterr, -⟩ := State.statusWord_bits (u.releaseTick.raiseTransportError e)
    refine ⟨_, hrun, ⟨rfl, rfl⟩, rfl, hbusy, hterr, hfail.kept.anim, ?_⟩
    calc u.tx.length = s.tx.length + 2 * (n / 2) + last.length := hfail.tx_length
      _ = s.tx.length + n + 1 := by omega

/-! ### TICK as its expansion (30_encoding R66) -/

section Expansion

variable {s : State}

/-- CANVAS_NEW and DRAW_CIRCLE of radius 12 at ANIM's position are step 1 of a tick. -/
theorem exec_canvasNew_drawCircle (s : State) :
    exec (.drawCircle s.anim.cx s.anim.cy 12#16) s.blankCanvas.complete = .next s.tickDrawn.complete :=
  exec_drawCircle s.anim.cx s.anim.cy 12#16 rfl

/-- What the four commands have before SEND_FRAME's range, where TICK has its own. -/
def State.tickEncodedAsCommand (s : State) : State := s.tickDrawn.complete.encodeCanvas.releaseEncoder.complete

/-- SEND_FRAME after ENCODE sends what the tick sends. -/
theorem exec_sendFrame_tick (s : State) : exec .sendFrame s.tickEncodedAsCommand = .next
    ((sendRangeFrom 0#16 s.tickDrawn.canvas.encodedBytes s.tickEncodedAsCommand).finish State.releaseRange) :=
  exec_sendFrame rfl (Canvas.encodedBytes_length _) fun _ hk => s.tickDrawn.encodedBytes_eq hk

/-- The tick's send and SEND_FRAME, ended alike and by no RESET: they differ in the working registers and in the
advance. -/
theorem Progress.alike.finish_tick_eq {p q : Progress} (h : p.alike q) (hreset : p.wasReset = false)
    (hp : TransportKept s.tickDrawn.encodeCanvas p.state) (hq : TransportKept s.tickEncodedAsCommand q.state)
    (w : Working) :
    { (p.andThen fun u => .done { u with anim := u.anim.advance }).finish State.releaseTick with work := w } =
      { q.finish State.releaseRange with
        work := w, anim := if (q.finish State.releaseRange).result = 0#8 then s.anim.advance else s.anim } := by
  have hdraws : ∀ {t u : State}, t.draws = s.draws → u.draws = s.draws + 1 → t.draws + 1 + 1 = u.draws + 1 :=
    fun ht hu => by rw [ht, hu]
  cases p <;> cases q <;> try exact h.elim
  case done.done t u =>
    exact State.eq_of_fields (hp.canvas.trans hq.canvas.symm) (hp.frame.trans hq.frame.symm)
      (congrArg Anim.advance hp.anim) rfl h.off.symm rfl (hp.errinfo.trans hq.errinfo.symm) rfl
      (hp.status.trans hq.status.symm) h.tx.symm h.dev.symm h.devSynced.symm (hp.hostMoves.trans hq.hostMoves.symm)
      h.events.symm h.writes.symm (hdraws hp.draws hq.draws)
  case failed.failed e t f u =>
    obtain ⟨rfl, h⟩ := h
    exact State.eq_of_fields (hp.canvas.trans hq.canvas.symm) (hp.frame.trans hq.frame.symm)
      hp.anim rfl h.off.symm rfl rfl rfl
      (congrArg (fun st : Status => { st with terr := true }) (hp.status.trans hq.status.symm)) h.tx.symm h.dev.symm
      h.devSynced.symm (hp.hostMoves.trans hq.hostMoves.symm) h.events.symm h.writes.symm (hdraws hp.draws hq.draws)
  case reset.reset t u => cases hreset

end Expansion

/-- Settles O48: the first three commands come to what the tick has encoded, and SEND_FRAME is the tick's send. -/
theorem tickIsItsExpansion : Obligations.TickIsItsExpansion := by
  intro s hv hfree
  have hl := s.tickDrawn.canvas.encodedBytes_length
  have hreset := (sendRangeFrom_channelWork (start := 0#16) (data := s.tickDrawn.canvas.encodedBytes)
    s.tickDrawn.encodeCanvas (by rw [hl]; decide)).resetFree (by rw [hl]; exact hfree)
  refine ⟨_, _, _, _, _, exec_tick hv, exec_canvasNew s, exec_canvasNew_drawCircle s, exec_encode rfl,
    exec_sendFrame_tick s, ?_⟩
  exact (sendRangeFrom_alike 0#16 _ (s := s.tickDrawn.encodeCanvas) (t := s.tickEncodedAsCommand) rfl rfl rfl rfl
    rfl).finish_tick_eq hreset (sendRangeFrom_kept _ _ _) (sendRangeFrom_kept _ _ _) s.work

end Sys2Proof.Machine

/-! # The trajectory after ANIM_INIT (43_animation R103) -/

namespace Sys2Proof.Machine

/-- One axis at phase `m` of its triangular wave: from 12 up to `half + 12`, and down again. -/
def onWave (half m : Nat) (c : Half) (d : Dir) : Prop :=
  c.toInt = half + 12 - |(m : Int) - half| ∧ d = if m < half then .pos else .neg

theorem onWave_up_iff {half m : Nat} (hm : m < half) {c : Half} {d : Dir} :
    onWave half m c d ↔ c.toInt = m + 12 ∧ d = .pos := by
  rw [onWave, if_pos hm, abs_of_neg (by omega)]
  constructor <;> rintro ⟨hc, rfl⟩ <;> exact ⟨by omega, rfl⟩

theorem onWave_down_iff {half m : Nat} (hm : half ≤ m) {c : Half} {d : Dir} :
    onWave half m c d ↔ c.toInt = 2 * half + 12 - m ∧ d = .neg := by
  rw [onWave, if_neg (by omega), abs_of_nonneg (by omega)]
  constructor <;> rintro ⟨hc, rfl⟩ <;> exact ⟨by omega, rfl⟩

/-- One tick takes an axis to the next phase: it turns at `half + 12`, and at 12, where the wave begins again. -/
theorem onWave.advance {half m : Nat} {c : Half} {d : Dir} (hhalf : 0 < half) (hbound : half < 30000)
    (hm : m < 2 * half) (h : onWave half m c d) :
    onWave half ((m + 1) % (2 * half)) (advancePosition c d) (reverseAt (half + 24) (advancePosition c d) d) := by
  by_cases hup : m < half
  · obtain ⟨hc, rfl⟩ := (onWave_up_iff hup).1 h
    have hmove : (advancePosition c .pos).toInt = m + 1 + 12 := by
      rw [advancePosition_toInt] <;> simp only [Dir.value] <;> omega
    rw [Nat.mod_eq_of_lt (by omega), reverseAt_eq, hmove]
    by_cases hnext : m + 1 < half
    · rw [onWave_up_iff hnext, hmove, if_neg (by omega), if_neg (by omega)]
      exact ⟨by omega, rfl⟩
    · rw [onWave_down_iff (by omega), hmove, if_pos (by omega)]
      exact ⟨by omega, rfl⟩
  · obtain ⟨hc, rfl⟩ := (onWave_down_iff (by omega)).1 h
    have hmove : (advancePosition c .neg).toInt = 2 * half + 11 - m := by
      rw [advancePosition_toInt] <;> simp only [Dir.value] <;> omega
    rw [reverseAt_eq, hmove, if_neg (by omega)]
    by_cases hnext : m + 1 < 2 * half
    · rw [Nat.mod_eq_of_lt hnext, onWave_down_iff (by omega), hmove, if_neg (by omega)]
      exact ⟨by omega, rfl⟩
    · rw [show m + 1 = 2 * half by omega, Nat.mod_self, onWave_up_iff hhalf, hmove, if_pos (by omega)]
      exact ⟨by omega, rfl⟩

/-- A phase says where the axis is. -/
theorem onWave.unique {half m : Nat} {c c' : Half} {d d' : Dir} (h : onWave half m c d) (h' : onWave half m c' d') :
    c = c' ∧ d = d' :=
  ⟨BitVec.eq_of_toInt_eq (h.1.trans h'.1.symm), h.2.trans h'.2.symm⟩

/-- ANIM after `t` advances from the initial one: a wave of period 240 across, and one of period 204 down. -/
def Anim.onTrajectory (t : Nat) (a : Anim) : Prop :=
  onWave 120 ((t + 60) % 240) a.cx a.dx ∧ onWave 102 ((t + 51) % 204) a.cy a.dy

theorem Anim.onTrajectory.advance {t : Nat} {a : Anim} (h : a.onTrajectory t) : a.advance.onTrajectory (t + 1) := by
  obtain ⟨hx, hy⟩ := h
  have hx' := hx.advance (by omega) (by omega) (by omega)
  have hy' := hy.advance (by omega) (by omega) (by omega)
  rw [Nat.mod_add_mod] at hx' hy'
  rw [Anim.onTrajectory, show t + 1 + 60 = t + 60 + 1 by omega, show t + 1 + 51 = t + 51 + 1 by omega]
  exact ⟨hx', hy'⟩

theorem Anim.onTrajectory_advances (t : Nat) : (Anim.advance^[t] Anim.initial).onTrajectory t := by
  induction t with
  | zero =>
    rw [Function.iterate_zero_apply, Anim.onTrajectory, onWave_up_iff (by decide), onWave_up_iff (by decide)]
    decide
  | succ t ih => rw [Function.iterate_succ_apply']; exact ih.advance

/-- Where the phases are the same, ANIM is. -/
theorem Anim.onTrajectory.unique {t t' : Nat} {a b : Anim} (hx : t % 240 = t' % 240) (hy : t % 204 = t' % 204)
    (h : a.onTrajectory t) (h' : b.onTrajectory t') : a = b := by
  obtain ⟨h1, h2⟩ := h
  obtain ⟨h1', h2'⟩ := h'
  rw [show (t' + 60) % 240 = (t + 60) % 240 by omega] at h1'
  rw [show (t' + 51) % 204 = (t + 51) % 204 by omega] at h2'
  obtain ⟨hcx, hdx⟩ := h1.unique h1'
  obtain ⟨hcy, hdy⟩ := h2.unique h2'
  cases a
  cases b
  rw [Anim.mk.injEq]
  exact ⟨hcx, hcy, hdx, hdy⟩

/-- Settles O51: each axis goes round its own wave, and 4080 is a whole number of both periods. -/
theorem trajectoryIsTriangular : Obligations.TrajectoryIsTriangular := by
  refine ⟨fun s => ⟨_, exec_animInit s, rfl, rfl⟩, fun s hv hok => ?_, fun t => ?_, fun t => ?_, ?_, ?_⟩
  · obtain ⟨t, -, ht, -, -, -, -, -, -, hanim, -, -, -, hstatus⟩ := tickSendsItsDisk s hv hok
    exact ⟨t, ht, hanim, by rw [hstatus]; exact hv⟩
  · obtain ⟨⟨hcx, hdx⟩, hcy, hdy⟩ := Anim.onTrajectory_advances t
    exact ⟨hcx, hdx, hcy, hdy⟩
  · exact (Anim.onTrajectory_advances (t + 4080)).unique (by omega) (by omega) (Anim.onTrajectory_advances t)
  · refine (Anim.onTrajectory_advances 60).unique rfl rfl ?_
    rw [Anim.onTrajectory, onWave_down_iff (by decide), onWave_down_iff (by decide)]
    decide
  · refine (Anim.onTrajectory_advances 153).unique rfl rfl ?_
    rw [Anim.onTrajectory, onWave_down_iff (by decide), onWave_up_iff (by decide)]
    decide

end Sys2Proof.Machine
